-- ==== Sys2Proof/Word.lean ====
section
/-! DEFINITION. The word types of the Bit Cursor Engine. -/

namespace Sys2Proof

/-- A byte is 8 bits (00_scope R9). -/
abbrev Byte := BitVec 8

/-- `VALW` = 32 bits: the width of a moved value, of `RESULT`, and of the two index fields of a response (00_scope R8,
30_encoding R71). -/
abbrev Value := BitVec 32

/-- The 48-bit command word `CMDW` (30_encoding R61). -/
abbrev CmdWord := BitVec 48

/-- `BIT_OFFSET`, typed as the range 0 to 8 (10_state R25). -/
abbrev BitOffset := Fin 9

end Sys2Proof
end

