-- ==== Sys2Proof/Syntax.lean ====
section
/-! DEFINITION. The commands of BCE-CMD 1.0 (30_encoding R60 to R65): the opcode map's rows, the operand forms, the
capability classes, the one inductive of commands, the command pair and what the host can do. -/

namespace Sys2Proof

/-- The rows of the opcode map, in its order (30_encoding R65). -/
inductive Mnemonic where
  | createWriter | createReader | buffer | rawview | getByteIndex | getBitOffset
  | alignW | alignR | collectAll | hasMore
  | appendBytes | emit | emitByte | emitWord | emitDword
  | deconcat | deappend | collect | collectByte | collectWord | collectDword
deriving DecidableEq, Repr

/-- The operand forms (30_encoding R62). -/
inductive Form where
  | z | nv | n | v8 | v16 | v32 | c | p
deriving DecidableEq, Repr

/-- The capability a command needs (30_encoding R65 "class", 60_exceptions R152). -/
inductive CapClass where
  | any | writer | reader | both
deriving DecidableEq, Repr

/-- Every row, in the order of the opcode map (30_encoding R65). -/
def Mnemonic.all : List Mnemonic :=
  [.createWriter, .createReader, .buffer, .rawview, .getByteIndex, .getBitOffset, .alignW, .alignR,
   .collectAll, .hasMore, .appendBytes, .emit, .emitByte, .emitWord, .emitDword, .deconcat, .deappend,
   .collect, .collectByte, .collectWord, .collectDword]

/-- The row's `OP` (30_encoding R65). -/
def Mnemonic.opcode : Mnemonic → BitVec 8
  | .createWriter => 0x01#8
  | .createReader => 0x02#8
  | .buffer       => 0x03#8
  | .rawview      => 0x04#8
  | .getByteIndex => 0x05#8
  | .getBitOffset => 0x06#8
  | .alignW       => 0x07#8
  | .alignR       => 0x08#8
  | .collectAll   => 0x09#8
  | .hasMore      => 0x0A#8
  | .appendBytes  => 0x0B#8
  | .emit         => 0x0C#8
  | .emitByte     => 0x0D#8
  | .emitWord     => 0x0E#8
  | .emitDword    => 0x0F#8
  | .deconcat     => 0x10#8
  | .deappend     => 0x11#8
  | .collect      => 0x12#8
  | .collectByte  => 0x13#8
  | .collectWord  => 0x14#8
  | .collectDword => 0x15#8

/-- The row's operand form (30_encoding R62, R65). -/
def Mnemonic.form : Mnemonic → Form
  | .createWriter => .z
  | .createReader => .p
  | .buffer       => .z
  | .rawview      => .z
  | .getByteIndex => .z
  | .getBitOffset => .z
  | .alignW       => .z
  | .alignR       => .z
  | .collectAll   => .z
  | .hasMore      => .z
  | .appendBytes  => .p
  | .emit         => .nv
  | .emitByte     => .v8
  | .emitWord     => .v16
  | .emitDword    => .v32
  | .deconcat     => .c
  | .deappend     => .c
  | .collect      => .n
  | .collectByte  => .z
  | .collectWord  => .z
  | .collectDword => .z

/-- The row's capability class (30_encoding R65). -/
def Mnemonic.capClass : Mnemonic → CapClass
  | .createWriter => .any
  | .createReader => .any
  | .buffer       => .writer
  | .rawview      => .both
  | .getByteIndex => .both
  | .getBitOffset => .both
  | .alignW       => .writer
  | .alignR       => .reader
  | .collectAll   => .reader
  | .hasMore      => .both
  | .appendBytes  => .writer
  | .emit         => .writer
  | .emitByte     => .writer
  | .emitWord     => .writer
  | .emitDword    => .writer
  | .deconcat     => .reader
  | .deappend     => .reader
  | .collect      => .reader
  | .collectByte  => .reader
  | .collectWord  => .reader
  | .collectDword => .reader

/-- The commands of BCE-CMD 1.0, one constructor per row of the opcode map, each with the operands its form carries
(30_encoding R62, R63). The payload of a form-`P` command is not part of the word: it comes on the data-in channel
(30_encoding R60, R64). -/
inductive Instr where
  | createWriter
  | createReader (count : BitVec 32)
  | buffer
  | rawview
  | getByteIndex
  | getBitOffset
  | alignW
  | alignR
  | collectAll
  | hasMore
  | appendBytes (count : BitVec 32)
  | emit (numBits : BitVec 8) (value : BitVec 32)
  | emitByte (value : BitVec 8)
  | emitWord (value : BitVec 16)
  | emitDword (value : BitVec 32)
  | deconcat (count : BitVec 32)
  | deappend (count : BitVec 32)
  | collect (numBits : BitVec 8)
  | collectByte
  | collectWord
  | collectDword
deriving DecidableEq, Repr

/-- The row a command belongs to (30_encoding R65). -/
def Instr.mnemonic : Instr → Mnemonic
  | .createWriter   => .createWriter
  | .createReader _ => .createReader
  | .buffer         => .buffer
  | .rawview        => .rawview
  | .getByteIndex   => .getByteIndex
  | .getBitOffset   => .getBitOffset
  | .alignW         => .alignW
  | .alignR         => .alignR
  | .collectAll     => .collectAll
  | .hasMore        => .hasMore
  | .appendBytes _  => .appendBytes
  | .emit _ _       => .emit
  | .emitByte _     => .emitByte
  | .emitWord _     => .emitWord
  | .emitDword _    => .emitDword
  | .deconcat _     => .deconcat
  | .deappend _     => .deappend
  | .collect _      => .collect
  | .collectByte    => .collectByte
  | .collectWord    => .collectWord
  | .collectDword   => .collectDword

/-- The command's `NBITS` field: `num_bits` for `EMIT` and `COLLECT`, else 0 (30_encoding R61, R62). -/
def Instr.nbits : Instr → BitVec 8
  | .emit n _  => n
  | .collect n => n
  | .createWriter | .createReader _ | .buffer | .rawview | .getByteIndex | .getBitOffset | .alignW | .alignR
  | .collectAll | .hasMore | .appendBytes _ | .emitByte _ | .emitWord _ | .emitDword _ | .deconcat _ | .deappend _
  | .collectByte | .collectWord | .collectDword => 0#8

/-- The command's `ARG` field: a value or a byte count where the form has one, else 0 (30_encoding R61, R62). -/
def Instr.arg : Instr → BitVec 32
  | .createReader k => k
  | .appendBytes k  => k
  | .emit _ v       => v
  | .emitByte v     => v.zeroExtend 32
  | .emitWord v     => v.zeroExtend 32
  | .emitDword v    => v
  | .deconcat k     => k
  | .deappend k     => k
  | .createWriter | .buffer | .rawview | .getByteIndex | .getBitOffset | .alignW | .alignR | .collectAll | .hasMore
  | .collect _ | .collectByte | .collectWord | .collectDword => 0#32

/-- A command as the host issues it: the pair `(CMDW, PAYLOAD)` (30_encoding R60). -/
structure Command where
  word : CmdWord
  payload : List Byte
deriving DecidableEq, Repr

/-- Everything the host can do to the engine (70_reset R174): issue a command, or assert reset, between commands
(`reset none`) or during a command, which is then abandoned (`reset (some c)`, 70_reset R159). -/
inductive HostEvent where
  | command (c : Command)
  | reset (abandoned : Option Command)
deriving DecidableEq, Repr

end Sys2Proof
end

