-- ==== Sys2Proof/WellFormed.lean ====
section
/-! DEFINITION. The checks that a word, a command pair and a capacity are well formed. A term of `Instr` needs no check
of its own: its constructors hold exactly the operand bits their form leaves free (30_encoding R62), so every must-be-zero
bit is zero by the type. What can be ill formed is a word's fields, the pair of a command and its payload, and `CAP`. -/

namespace Sys2Proof

/-- The bits of `NBITS` that a form requires to be zero (30_encoding R62). -/
def Form.nbitsMask : Form → BitVec 8
  | .nv | .n => 0x00#8
  | .z | .v8 | .v16 | .v32 | .c | .p => 0xFF#8

/-- The bits of `ARG` that a form requires to be zero (30_encoding R62). -/
def Form.argMask : Form → BitVec 32
  | .z | .n => 0xFFFFFFFF#32
  | .v8 => 0xFFFFFF00#32
  | .v16 => 0xFFFF0000#32
  | .nv | .v32 | .c | .p => 0x00000000#32

/-- The must-be-zero rule on the two operand fields of a word (30_encoding R62, R67). -/
def Form.fieldsWellFormed (f : Form) (nbits : BitVec 8) (arg : BitVec 32) : Bool :=
  (nbits &&& f.nbitsMask == 0#8) && (arg &&& f.argMask == 0#32)

/-- A form-`P` command comes with exactly `ARG` payload bytes, every other with none (30_encoding R64). -/
def Instr.payloadWellFormed (i : Instr) (payload : List Byte) : Bool :=
  match i.mnemonic.form with
  | .p => payload.length == i.arg.toNat
  | .z | .nv | .n | .v8 | .v16 | .v32 | .c => payload.isEmpty

/-- The store capacity `CAP`: a number of bytes, or unbounded (00_scope R11). -/
inductive Capacity where
  | bytes (n : BitVec 32)
  | unbounded
deriving DecidableEq, Repr

/-- `1 <= CAP <= 2^32 - 1`, or unbounded (00_scope R11); the upper bound is the width's. -/
def Capacity.wellFormed : Capacity → Bool
  | .bytes n => decide (1 ≤ n.toNat)
  | .unbounded => true

end Sys2Proof
end

