-- ==== Sys2Proof/Machine/Response.lean ====
section
/-! DEFINITION. The response record and its status codes (30_encoding R71, 60_exceptions R131). -/

namespace Sys2Proof.Machine

/-- `STATUS` (60_exceptions R131). The reserved codes 0x04 and 0x08 to 0xFF are never returned: they have no
constructor. -/
inductive Status where
  | ok
  | invalidParameter
  | alignmentViolation
  | overrun
  | illegalCommand
  | wrongMode
  | capacityExceeded
deriving DecidableEq, Repr, Inhabited

/-- The 8-bit code of a status (60_exceptions R131). -/
def Status.code : Status → BitVec 8
  | .ok                 => 0x00#8
  | .invalidParameter   => 0x01#8
  | .alignmentViolation => 0x02#8
  | .overrun            => 0x03#8
  | .illegalCommand     => 0x05#8
  | .wrongMode          => 0x06#8
  | .capacityExceeded   => 0x07#8

/-- The response of one command (30_encoding R71). -/
structure Response where
  status : Status
  result : Value
  dout : List Byte
  diagLen : Value
  diagByteIndex : Value
  diagBitOffset : BitVec 4
deriving DecidableEq, Repr, Inhabited

/-- The response of a command that completes: the `DIAG_*` fields are 0 (30_encoding R71, R72). -/
def Response.okay (result : Value) (dout : List Byte) : Response :=
  ⟨.ok, result, dout, 0#32, 0#32, 0#4⟩

end Sys2Proof.Machine
end

