-- ==== Sys2Proof/Config.lean ====
section
/-! DEFINITION. What the spec leaves to a choice: the fixed choices of the model, and the free values, which are opaque
constants that no proof can look into (notes/assumptions). -/

namespace Sys2Proof.Config

/-- What an index of the store that nothing has written reads as. DESIGN CHOICE (log entry 6): the spec leaves it
unspecified and unobservable, and allows all zeros (20_memory R56, 70_reset R156). -/
def unwrittenByte : Byte := 0x00#8

/-- The capacity that `State.reset` carries. DESIGN CHOICE (log entry 1): `CAP` is an argument of the model
(00_scope R11), and unbounded is the value the spec's own vectors start from (95_test_vectors section 1). -/
def resetCapacity : Capacity := .unbounded

/-- The unspecified `BYTE_INDEX` of a run in the undefined case (43_read_path R114 (b)). FREE VALUE (log entry 7). -/
opaque freeByteIndex : Nat → Nat

/-- The 32-bit form of an index of `2^32` or more, which an unbounded `CAP` allows and no rule states (00_scope R10, R11,
30_encoding R71). FREE VALUE (log entry 2). -/
opaque freeIndexField : Nat → Value

/-- The unspecified `BIT_OFFSET` of a run in the undefined case (93 U1). FREE VALUE (log entry 7). -/
opaque freeBitOffset : Nat → BitOffset

/-- The unspecified response of a run in the undefined case (43_read_path R114 (b)). FREE VALUE (log entry 7). -/
opaque freeResponse : Nat → Machine.Response

end Sys2Proof.Config
end

