-- ==== Sys2Proof/Machine/State.lean ====
section
/-! DEFINITION. The state of the engine: the five architectural items (10_state R20), the arguments and the result of
the spec's step (00_scope R15), and the model's own two fields for the undefined case (log entry 7). -/

namespace Sys2Proof.Machine

/-- `MODE` (10_state R21). Code 3 never occurs: it has no constructor. -/
inductive Mode where
  | idle
  | writer
  | reader
deriving DecidableEq, Repr

/-- The 2-bit encoding of `MODE` (10_state R21). -/
def Mode.code : Mode → BitVec 2
  | .idle   => 0#2
  | .writer => 1#2
  | .reader => 2#2

/-- The byte store `STORE` (10_state R22, 20_memory R40): the listed (index, byte) pairs, in the canonical form of
`Store.wf`; an unlisted index reads as `Config.unwrittenByte`. -/
abbrev Store := List Host.Cell

/-- The state. `mode`, `len`, `byteIndex`, `bitOffset` and `store` are the architectural state (10_state R20). `LEN` and
`BYTE_INDEX` are registers of `IDXW` = 32 bits, for which "a model may use unbounded naturals for both and lose nothing"
(00_scope R10): a finite `CAP` keeps both below `2^32`, and an unbounded one lets the store grow for ever (00_scope R11,
92 D7, log entry 2). -/
structure State where
  /-- `MODE` (10_state R21) -/
  mode : Mode
  /-- `LEN` (10_state R23) -/
  len : Nat
  /-- `BYTE_INDEX` (10_state R24) -/
  byteIndex : Nat
  /-- `BIT_OFFSET` (10_state R25) -/
  bitOffset : BitOffset
  /-- `STORE` (10_state R22) -/
  store : Store
  /-- `CAP`, an argument of the spec's step; no step changes it (00_scope R11, log entry 1) -/
  cap : Capacity
  /-- what the host will do next, in order, an argument of the spec's step (70_reset R173, R174, log entry 3) -/
  host : List HostEvent
  /-- the payload the data-in channel delivered with the command accepted last (30_encoding R64, log entry 5) -/
  din : List Byte
  /-- the response of the last command, the result of the spec's step; none after reset (30_encoding R70, R71, log entry 4) -/
  rsp : Option Response
  /-- the model's own: the run has met the undefined raw extract (43_read_path R114 (b), 93 U1, log entry 7) -/
  poisoned : Bool
  /-- the model's own: how many times free values have been taken (log entry 14) -/
  freeCount : Nat
deriving DecidableEq, Repr

/-- The five architectural items by themselves ("exactly these five items and nothing else", 10_state R20): what two
states have in common when the spec says they are the same state. -/
structure Engine where
  mode : Mode
  len : Nat
  byteIndex : Nat
  bitOffset : BitOffset
  store : Store
deriving DecidableEq, Repr

/-- The architectural part of a state (10_state R20). -/
def State.engine (s : State) : Engine := ⟨s.mode, s.len, s.byteIndex, s.bitOffset, s.store⟩

/-- The reasons the machine stops. The spec's own faults are responses, not stops (60_exceptions R141). -/
inductive Fault where
  /-- An index outside the valid part of the store, which `MemRead` and `MemWrite` require (00_scope R14, 10_state R22).
  Raised by the operations over the store, in states that no run from reset reaches. Safe (log entry 8). -/
  | storeIndex
deriving DecidableEq, Repr

/-- The reasons the model gives no meaning. -/
inductive Refusal where
  /-- An arm of `exec` without a meaning yet; no arm uses it. Safe. -/
  | notModelled (mnemonic : String)
  /-- A command pair whose payload is not the one its word calls for: "a model ... gives no meaning to an ill-formed
  pair" (30_encoding R64, 93 U14). Raised by the fetch, and by the two form-`P` commands. Safe (log entry 11). -/
  | illFormedCommand
deriving DecidableEq, Repr

/-- What one command or one step answers. -/
abbrev Outcome := Host.Outcome State Fault Refusal

/-- The architectural state after reset (10_state R36, 70_reset R155): `IDLE`, everything 0, no byte listed. -/
def Engine.reset : Engine := ⟨.idle, 0, 0, 0, []⟩

/-- The machine right after reset with a given capacity: no command in progress, no response pending (70_reset R155). -/
def State.resetWith (cap : Capacity) : State :=
  { mode := .idle, len := 0, byteIndex := 0, bitOffset := 0, store := [], cap := cap, host := [], din := [],
    rsp := none, poisoned := false, freeCount := 0 }

/-- The machine right after reset (70_reset R155). -/
def State.reset : State := State.resetWith Config.resetCapacity

end Sys2Proof.Machine
end

