-- ==== Sys2Proof/Machine/Flags.lean ====
section
/-! DEFINITION. The conditions that commands test. The engine has no flags and no condition codes (10_state R29): what
stands here are the tests the rules make on the registers, each over naturals, so that no sum wraps (00_scope R13). -/

namespace Sys2Proof.Machine

/-- `Aligned0 := (BIT_OFFSET == 0)` (20_memory R48). -/
def State.aligned0 (s : State) : Bool := s.bitOffset.val == 0

/-- `Aligned08 := (BIT_OFFSET == 0 or BIT_OFFSET == 8)` (20_memory R48). -/
def State.aligned08 (s : State) : Bool := s.bitOffset.val == 0 || s.bitOffset.val == 8

/-- Which `MODE` admits which class (60_exceptions R137, R152). -/
def classAdmits (c : CapClass) (m : Mode) : Bool :=
  match c, m with
  | .any, _ => true
  | .writer, .writer => true
  | .writer, .idle | .writer, .reader => false
  | .reader, .reader => true
  | .reader, .idle | .reader, .writer => false
  | .both, .writer | .both, .reader => true
  | .both, .idle => false

/-- `num_bits` in [1, 32] (60_exceptions R132). -/
def numBitsValid (n : Nat) : Bool := decide (1 ≤ n) && decide (n ≤ 32)

/-- `n <= CAP`; every `n` when `CAP` is unbounded (00_scope R11, 20_memory R52). -/
def capacityAdmits (c : Capacity) (n : Nat) : Bool :=
  match c with
  | .bytes b => decide (n ≤ b.toNat)
  | .unbounded => true

/-- The requirement of `MemRead` and `MemWrite` on an index: `a < LEN` (00_scope R14), at an index that the store of
`CAP` bytes has (10_state R22). -/
def State.indexValid (s : State) (a : Nat) : Bool := decide (a < s.len) && capacityAdmits s.cap (a + 1)

/-- Fewer than `n` bytes remain: `BYTE_INDEX + n > LEN` (43_read_path R114, R119 to R121). -/
def State.bytesShort (s : State) (n : Nat) : Bool := decide (s.len < s.byteIndex + n)

/-- Fewer than `n` bits remain: `BYTE_INDEX > LEN or 8 * (LEN - BYTE_INDEX) - BIT_OFFSET < n` (43_read_path R117). -/
def State.bitsShort (s : State) (n : Nat) : Bool :=
  decide (s.len < s.byteIndex) || decide (8 * (s.len - s.byteIndex) - s.bitOffset.val < n)

/-- `BYTE_INDEX + 1 < LEN` (41_align_and_drain R98). -/
def State.hasMoreBytes (s : State) : Bool := decide (s.byteIndex + 1 < s.len)

/-- The number of `Grow()` calls `EMIT` of `n` bits makes (20_memory R52, 42_write_path R104). -/
def State.emitGrowth (s : State) (n : Nat) : Nat :=
  if s.bitOffset.val ≤ 7 then (s.bitOffset.val + n) / 8 else 1 + n / 8

end Sys2Proof.Machine
end

