-- ==== Sys2Proof/Machine/Ops.lean ====
section
/-! DEFINITION. The named operations over the store and the registers, the response of a command, and the entry into a
fault. An operation over the store answers `none` when it would leave the valid part, which stops the machine
(`Fault.storeIndex`, log entry 8). -/

namespace Sys2Proof.Machine

/-! ### The store -/

/-- The byte at an index. -/
def Store.read : Store → Nat → Byte
  | [], _ => Config.unwrittenByte
  | (a, v) :: rest, i => if a = i then v else Store.read rest i

/-- An entry in front of a store, left out where it says what an unlisted index says anyway. -/
def Store.cons (i : Nat) (v : Byte) (m : Store) : Store := if v = Config.unwrittenByte then m else (i, v) :: m

/-- The store with the byte at an index set; keeps the canonical form. -/
def Store.write : Store → Nat → Byte → Store
  | [], i, v => Store.cons i v []
  | (a, w) :: rest, i, v =>
    if i < a then Store.cons i v ((a, w) :: rest)
    else if i = a then Store.cons i v rest
    else (a, w) :: Store.write rest i v

/-- The canonical form: indices strictly rising, no entry that says what an unlisted index says anyway. -/
def Store.wf : Store → Bool
  | [] => true
  | (a, v) :: rest =>
    decide (v ≠ Config.unwrittenByte) && rest.all (fun c => decide (a < c.1)) && Store.wf rest

/-! ### Register writes -/

/-- The state with `MODE` written. -/
def State.setMode (s : State) (m : Mode) : State := { s with mode := m }

/-- The state with `LEN` written. -/
def State.setLen (s : State) (n : Nat) : State := { s with len := n }

/-- The state with `BYTE_INDEX` written. -/
def State.setByteIndex (s : State) (n : Nat) : State := { s with byteIndex := n }

/-- The state with `BIT_OFFSET` written. -/
def State.setBitOffset (s : State) (b : BitOffset) : State := { s with bitOffset := b }

/-- The state with `STORE` written. -/
def State.setStore (s : State) (m : Store) : State := { s with store := m }

/-- The state with the response of the command that ends. -/
def State.setRsp (s : State) (r : Response) : State := { s with rsp := some r }

/-- The state of a run that is defined again: a `CREATE_*` command has written all five items (93 U1). -/
def State.setDefined (s : State) : State := { s with poisoned := false }

/-- `BYTE_INDEX <- BYTE_INDEX + n`, over naturals (00_scope R13, 40 R92). -/
def advance (s : State) (n : Nat) : State := s.setByteIndex (s.byteIndex + n)

/-! ### The primitives of the pseudocode (00_scope R14) -/

/-- `MemRead(a, 1)`. -/
def memRead (s : State) (a : Nat) : Option Byte :=
  if s.indexValid a then some (Store.read s.store a) else none

/-- `MemRead(a, n)`: the bytes at `a, a+1, ..., a+n-1`; `MemRead(a, 0)` is the empty list. -/
def memReadRun (s : State) (a : Nat) : Nat → Option (List Byte)
  | 0 => some []
  | n + 1 => (memRead s a).bind fun b => (memReadRun s (a + 1) n).map fun rest => b :: rest

/-- `MemWrite(a, 1, v)`. -/
def memWrite (s : State) (a : Nat) (v : Byte) : Option State :=
  if s.indexValid a then some (s.setStore (Store.write s.store a v)) else none

/-- `for i = 0 to k - 1: MemWrite(a + i, 1, bytes[i])`. -/
def memWriteRun (s : State) (a : Nat) : List Byte → Option State
  | [] => some s
  | b :: rest => (memWrite s a b).bind fun t => memWriteRun t (a + 1) rest

/-- `LEN - 1` over naturals, where there is a last byte. -/
def lastIndex (s : State) : Option Nat := if s.len = 0 then none else some (s.len - 1)

/-- `LEN - BYTE_INDEX` over naturals, where it is one. -/
def remaining (s : State) : Option Nat :=
  if s.byteIndex ≤ s.len then some (s.len - s.byteIndex) else none

/-- `Grow()`: `LEN <- LEN + 1; MemWrite(LEN - 1, 1, 0x00)`, where `LEN - 1` is the old `LEN` (00_scope R14, 20_memory
R49). -/
def grow (s : State) : Option State := memWrite (s.setLen (s.len + 1)) s.len 0x00#8

/-- Normalisation on the write path: `Grow(); BYTE_INDEX <- BYTE_INDEX + 1; BIT_OFFSET <- 0` (10_state R26). -/
def normaliseWrite (s : State) : Option State := (grow s).map fun t => (advance t 1).setBitOffset 0

/-- Normalisation on the read path: `BYTE_INDEX <- BYTE_INDEX + 1; BIT_OFFSET <- 0` (10_state R26). -/
def normaliseRead (s : State) : State := (advance s 1).setBitOffset 0

/-- `BIT_OFFSET <- BIT_OFFSET + 1`, never above 8 (40 R92). -/
def State.nextBit (s : State) : State :=
  s.setBitOffset ⟨min (s.bitOffset.val + 1) 8, by omega⟩

/-! ### The bit loops -/

/-- The pre-write and post-write checks of `EMIT` (42_write_path R104). -/
def checkWrite (s : State) : Option State := if s.bitOffset.val = 8 then normaliseWrite s else some s

/-- The pre-read and post-read checks of `COLLECT` (43_read_path R117). -/
def checkRead (s : State) : State := if s.bitOffset.val = 8 then normaliseRead s else s

/-- A bit shifted into the slot `7 - BIT_OFFSET` of a byte (20_memory R41, R54). -/
def slotBit (b : Bool) (offset : Nat) : Byte := (BitVec.ofBool b).zeroExtend 8 <<< (7 - offset)

/-- `STORE[BYTE_INDEX] <- STORE[BYTE_INDEX] | (b << (7 - BIT_OFFSET))` (20_memory R54). -/
def orBit (b : Bool) (s : State) : Option State :=
  (memRead s s.byteIndex).bind fun old =>
    memWrite s s.byteIndex (old ||| slotBit b s.bitOffset.val)

/-- One iteration of `EMIT` (42_write_path R104). -/
def emitBit (b : Bool) (s : State) : Option State :=
  (checkWrite s).bind fun t => (orBit b t).bind fun u => checkWrite u.nextBit

/-- `for i = n - 1 downto 0` of `EMIT`: the bits `n - 1` to 0 of the value (42_write_path R104). -/
def emitBits (v : Value) : Nat → State → Option State
  | 0, s => some s
  | i + 1, s => (emitBit (v.getLsbD i) s).bind (emitBits v i)

/-- `(MemRead(BYTE_INDEX, 1) >> (7 - BIT_OFFSET)) & 1` (43_read_path R117). -/
def readBit (s : State) : Option Bool :=
  (memRead s s.byteIndex).map fun b => b.getLsbD (7 - s.bitOffset.val)

/-- One iteration of `COLLECT`: the bit read, and the state after the post-read check (43_read_path R117). -/
def collectBit (s : State) : Option (Bool × State) :=
  (readBit (checkRead s)).map fun b => (b, checkRead (checkRead s).nextBit)

/-- `for i = n - 1 downto 0: ... v <- v | (b << i)` of `COLLECT` (43_read_path R117). -/
def collectBits : Nat → Value → State → Option (Value × State)
  | 0, v, s => some (v, s)
  | i + 1, v, s =>
    (collectBit s).bind fun (b, t) => collectBits i (v ||| ((BitVec.ofBool b).zeroExtend 32 <<< i)) t

/-- `EmitByteBody(x)`: `MemWrite(BYTE_INDEX, 1, x); Grow(); BYTE_INDEX <- BYTE_INDEX + 1; BIT_OFFSET <- 0`
(42_write_path R106, R107). -/
def emitByteBody (s : State) (x : Byte) : Option State :=
  (memWrite s s.byteIndex x).bind normaliseWrite

/-- `EmitByteBody` for each byte in turn (42_write_path R107, R108). -/
def emitBytesBody (s : State) : List Byte → Option State
  | [] => some s
  | x :: rest => (emitByteBody s x).bind fun t => emitBytesBody t rest

/-! ### Ending a command -/

/-- `respond(RESULT = r, DOUT = d)`: the command completes (00_scope R14, 30_encoding R71). -/
def respond (s : State) (result : Value) (dout : List Byte) : Outcome :=
  .next (s.setRsp (Response.okay result dout))

/-- An index, or a count of bytes, in a 32-bit field of the response (30_encoding R71, R72). Below `2^32`, which a finite
`CAP` ensures, it is the index itself; what an engine with an unbounded store reports above that no rule states, and it
is a free value (log entry 2). -/
def indexField (n : Nat) : Value := if n < 2 ^ 32 then BitVec.ofNat 32 n else Config.freeIndexField n

/-- The response of a fault: the code, no result, and the diagnostic triple (30_encoding R71, 60_exceptions R141,
R142). -/
def faultResponse (st : Status) (s : State) : Response :=
  ⟨st, 0#32, [], indexField s.len, indexField s.byteIndex, BitVec.ofNat 4 s.bitOffset.val⟩

/-- TAKING A FAULT: `raise E` (00_scope R14, 60_exceptions R141 to R143). The command writes no architectural state, and
its response says which fault and where the cursor was. There is no return: the engine is ready for the next command. -/
def raise (st : Status) (s : State) : Outcome := .next (s.setRsp (faultResponse st s))

/-- The undefined case (43_read_path R114 (b), 60_exceptions R135, 93 U1): the response and the cursor become free
values, and the run is marked; `MODE`, `LEN` and `STORE` are not written (log entry 7). -/
def State.poison (s : State) : State :=
  { s with byteIndex := Config.freeByteIndex s.freeCount, bitOffset := Config.freeBitOffset s.freeCount,
           rsp := some (Config.freeResponse s.freeCount), poisoned := true, freeCount := s.freeCount + 1 }

/-- The body of a command ran: its response, or the stop where an operation left the valid store. -/
def finish (r : Option (State × Value × List Byte)) : Outcome :=
  match r with
  | some (t, result, dout) => respond t result dout
  | none => .fault .storeIndex

/-- A body without a result (30_encoding R72, first row). -/
def finishUnit (r : Option State) : Outcome := finish (r.map fun t => (t, 0#32, []))

/-- A body that returns a value (30_encoding R72). -/
def finishValue (r : Option (Value × State)) : Outcome := finish (r.map fun (v, t) => (t, v, []))

/-- A body that returns bytes, and their count as `RESULT` (30_encoding R72). -/
def finishBytes (r : Option (List Byte × State)) : Outcome :=
  finish (r.map fun (d, t) => (t, indexField d.length, d))

/-! ### The leading checks of a command (40_construct_and_view R85, 60_exceptions R140) -/

/-- In a run that has met the undefined case every response is unspecified until a `CREATE_*` command completes, or
reset (43_read_path R114 (b), 93 U1). -/
def whenDefined (s : State) (k : Outcome) : Outcome := if s.poisoned then .next s.poison else k

/-- `1 <= NBITS <= 32`, else `INVALID_PARAMETER` (60_exceptions R132). -/
def whenNumBits (n : Nat) (s : State) (k : Outcome) : Outcome :=
  if numBitsValid n then k else raise .invalidParameter s

/-- `MODE` admits the command's class, else `WRONG_MODE` (60_exceptions R137). -/
def whenClass (c : CapClass) (s : State) (k : Outcome) : Outcome :=
  if classAdmits c s.mode then k else raise .wrongMode s

/-- The cursor is at a byte boundary, else `ALIGNMENT_VIOLATION` (60_exceptions R133). -/
def whenAligned (aligned : Bool) (s : State) (k : Outcome) : Outcome :=
  if aligned then k else raise .alignmentViolation s

/-- Enough remains to be read, else `OVERRUN` (60_exceptions R134). -/
def whenNotShort (short : Bool) (s : State) (k : Outcome) : Outcome :=
  if short then raise .overrun s else k

/-- A new `LEN` of `n` bytes fits `CAP`, else `CAPACITY_EXCEEDED` (20_memory R52, 60_exceptions R138); with `CAP` unbounded
every `n` fits (00_scope R11). -/
def whenRoom (n : Nat) (s : State) (k : Outcome) : Outcome :=
  if capacityAdmits s.cap n then k else raise .capacityExceeded s

end Sys2Proof.Machine
end

