-- ==== Sys2Proof/Machine/Operands.lean ====
section
/-! DEFINITION. How operands are taken apart and results put together (30_encoding R62 to R64, 20_memory R44). -/

namespace Sys2Proof.Machine

/-- `num_bits = NBITS`, 0 to 255, unsigned (30_encoding R63 (a)). -/
def numBitsOperand (n : BitVec 8) : Nat := n.toNat

/-- A byte count `n = ARG`, 0 to 2^32 - 1 (30_encoding R63 (d)). -/
def countOperand (k : BitVec 32) : Nat := k.toNat

/-- The payload of a form-`P` command: exactly `ARG` bytes, payload byte 0 first (30_encoding R63 (e), R64). -/
def payloadOperand (k : BitVec 32) (s : State) : Option (List Byte) :=
  if s.din.length = k.toNat then some s.din else none

/-- A form-`P` command with the payload its word calls for; an ill-formed pair has no meaning (30_encoding R64). -/
def withPayload (k : BitVec 32) (s : State) (body : List Byte → Outcome) : Outcome :=
  match payloadOperand k s with
  | some bytes => body bytes
  | none => .refused .illFormedCommand

/-- The bytes of a 16-bit operand, most significant first (42_write_path R107). -/
def wordBytes (v : BitVec 16) : List Byte := [v.extractLsb' 8 8, v.extractLsb' 0 8]

/-- The bytes of a 32-bit operand, most significant first (42_write_path R108). -/
def dwordBytes (v : BitVec 32) : List Byte :=
  [v.extractLsb' 24 8, v.extractLsb' 16 8, v.extractLsb' 8 8, v.extractLsb' 0 8]

/-- `(first << 8) | second` (43_read_path R120). -/
def combineBytes (first second : Byte) : Value := (first.zeroExtend 32 <<< 8) ||| second.zeroExtend 32

/-- `(first << 16) | second` (43_read_path R121). -/
def combineWords (first second : Value) : Value := (first <<< 16) ||| second

/-- A 16-bit value at an index, most significant byte first (20_memory R44, 43_read_path R120). -/
def readWordAt (s : State) (a : Nat) : Option Value :=
  (memRead s a).bind fun first => (memRead s (a + 1)).map fun second => combineBytes first second

/-- A 32-bit value at an index, most significant word first (20_memory R44, 43_read_path R121). -/
def readDwordAt (s : State) (a : Nat) : Option Value :=
  (readWordAt s a).bind fun w1 => (readWordAt s (a + 2)).map fun w2 => combineWords w1 w2

/-- What `ALIGN_W` does off a byte boundary: `BIT_OFFSET <- 0; BYTE_INDEX <- BYTE_INDEX + 1; Grow()`
(41_align_and_drain R95). -/
def alignWriteBody (s : State) : Option State := grow (advance (s.setBitOffset 0) 1)

/-- The body of `ALIGN_R`: nothing at a byte boundary, else `BIT_OFFSET <- 0; BYTE_INDEX <- BYTE_INDEX + 1`
(41_align_and_drain R96). -/
def alignReadBody (s : State) : State :=
  if s.aligned0 then s else advance (s.setBitOffset 0) 1

/-- The committed-content view: without the staging byte at a byte boundary, else with it (40_construct_and_view
R88). -/
def committedView (s : State) : Option (List Byte) :=
  if s.aligned0 then (lastIndex s).bind fun n => memReadRun s 0 n else memReadRun s 0 s.len

/-- `MemRead(BYTE_INDEX, LEN - BYTE_INDEX)` (41_align_and_drain R97). -/
def remainingBytes (s : State) : Option (List Byte) :=
  (remaining s).bind fun n => memReadRun s s.byteIndex n

/-- Read `n` bytes at the cursor and move past them (43_read_path R114). -/
def takeBytes (s : State) (n : Nat) : Option (List Byte × State) :=
  (memReadRun s s.byteIndex n).map fun bytes => (bytes, advance s n)

/-- Return a value read at the cursor and move `n` bytes past it (43_read_path R119 to R121). -/
def takeValue (s : State) (v : Option Value) (n : Nat) : Option (Value × State) :=
  v.map fun x => (x, advance s n)

/-- The shared body of `DECONCAT` and `DEAPPEND` (43_read_path R114): alignment first; past the end the run is
undefined; inside, the bytes. -/
def rawExtract (n : Nat) (s : State) : Outcome :=
  whenAligned s.aligned0 s <|
  if s.bytesShort n then .next s.poison else finishBytes (takeBytes s n)

/-- The cursor at the start of the stream: `BYTE_INDEX <- 0; BIT_OFFSET <- 0` (40_construct_and_view R86, R87). -/
def State.rewind (s : State) : State := (s.setByteIndex 0).setBitOffset 0

/-- The body of `CREATE_WRITER` (40_construct_and_view R86). -/
def createWriterBody (s : State) : Option State :=
  (memWrite ((s.setMode .writer).setLen 1) 0 0x00#8).map fun t => t.rewind.setDefined

/-- The body of `CREATE_READER` (40_construct_and_view R87). -/
def createReaderBody (k : BitVec 32) (bytes : List Byte) (s : State) : Option State :=
  (memWriteRun ((s.setMode .reader).setLen (countOperand k)) 0 bytes).map fun t => t.rewind.setDefined

/-- The body of `APPEND_BYTES`: the payload in place of the staging byte, then a fresh zero staging byte
(42_write_path R103). -/
def appendBody (bytes : List Byte) (s : State) : Option State :=
  (lastIndex s).bind fun base =>
  (memWriteRun (s.setLen (s.len + bytes.length)) base bytes).bind fun t =>
  (memWrite t (t.len - 1) 0x00#8).map fun u => advance u bytes.length

end Sys2Proof.Machine
end

