-- ==== Sys2Proof/Machine/Align.lean ====
section
/-! DEFINITION. Alignment advance, drain and has-more (41_align_and_drain). -/

namespace Sys2Proof.Machine

/-- `ALIGN_W` (41_align_and_drain R95): writer class; nothing at a byte boundary, else the advance, or
`CAPACITY_EXCEEDED` on a full store. -/
def execAlignW (s : State) : Outcome :=
  whenDefined s <| whenClass .writer s <|
  if s.aligned0 then finishUnit (some s)
  else whenRoom (s.len + 1) s <| finishUnit (alignWriteBody s)

/-- `ALIGN_R` (41_align_and_drain R96): reader class, no bounds check. -/
def execAlignR (s : State) : Outcome :=
  whenDefined s <| whenClass .reader s <| finishUnit (some (alignReadBody s))

/-- `COLLECT_ALL` (41_align_and_drain R97): reader class; the alignment advance is kept, the extraction moves nothing. -/
def execCollectAll (s : State) : Outcome :=
  whenDefined s <| whenClass .reader s <|
  finishBytes ((remainingBytes (alignReadBody s)).map fun d => (d, alignReadBody s))

/-- `HAS_MORE` (41_align_and_drain R98): both classes. -/
def execHasMore (s : State) : Outcome :=
  whenDefined s <| whenClass .both s <|
  respond s (if s.hasMoreBytes then 1#32 else 0#32) []

end Sys2Proof.Machine
end

