-- ==== Sys2Proof/Machine/Construct.lean ====
section
/-! DEFINITION. Construction, views and position accessors (40_construct_and_view). -/

namespace Sys2Proof.Machine

/-- `CREATE_WRITER` (40_construct_and_view R86): any `MODE`, no fault. -/
def execCreateWriter (s : State) : Outcome := finishUnit (createWriterBody s)

/-- `CREATE_READER` (40_construct_and_view R87): any `MODE`; `CAPACITY_EXCEEDED` when `ARG > CAP`, and then the previous
buffer, or the mark of an undefined run, is untouched (log entry 15). -/
def execCreateReader (count : BitVec 32) (s : State) : Outcome :=
  withPayload count s fun bytes =>
  if capacityAdmits s.cap (countOperand count) then finishUnit (createReaderBody count bytes s)
  else whenDefined s (raise .capacityExceeded s)

/-- `BUFFER` (40_construct_and_view R88): writer class. -/
def execBuffer (s : State) : Outcome :=
  whenDefined s <| whenClass .writer s <|
  finishBytes ((committedView s).map fun d => (d, s))

/-- `RAWVIEW` (40_construct_and_view R89): both classes. -/
def execRawview (s : State) : Outcome :=
  whenDefined s <| whenClass .both s <|
  finishBytes ((memReadRun s 0 s.len).map fun d => (d, s))

/-- `GET_BYTE_INDEX` (40_construct_and_view R90): both classes. -/
def execGetByteIndex (s : State) : Outcome :=
  whenDefined s <| whenClass .both s <| respond s (indexField s.byteIndex) []

/-- `GET_BIT_OFFSET` (40_construct_and_view R91): both classes. -/
def execGetBitOffset (s : State) : Outcome :=
  whenDefined s <| whenClass .both s <| respond s (BitVec.ofNat 32 s.bitOffset.val) []

end Sys2Proof.Machine
end

