-- ==== Sys2Proof/Machine/Read.lean ====
section
/-! DEFINITION. The read path (43_read_path). All commands are reader class; none writes `STORE` or `LEN`. -/

namespace Sys2Proof.Machine

/-- `DECONCAT` (43_read_path R114, R115). -/
def execDeconcat (count : BitVec 32) (s : State) : Outcome :=
  whenDefined s <| whenClass .reader s <| rawExtract (countOperand count) s

/-- `DEAPPEND` (43_read_path R114, R116). -/
def execDeappend (count : BitVec 32) (s : State) : Outcome :=
  whenDefined s <| whenClass .reader s <| rawExtract (countOperand count) s

/-- `COLLECT` (43_read_path R117). -/
def execCollect (numBits : BitVec 8) (s : State) : Outcome :=
  whenDefined s <| whenNumBits (numBitsOperand numBits) s <| whenClass .reader s <|
  whenNotShort (s.bitsShort (numBitsOperand numBits)) s <|
  finishValue (collectBits (numBitsOperand numBits) 0#32 s)

/-- `COLLECT_BYTE` (43_read_path R119): `BIT_OFFSET` is not written. -/
def execCollectByte (s : State) : Outcome :=
  whenDefined s <| whenClass .reader s <| whenAligned s.aligned08 s <| whenNotShort (s.bytesShort 1) s <|
  finishValue (takeValue s ((memRead s s.byteIndex).map fun b => b.zeroExtend 32) 1)

/-- `COLLECT_WORD` (43_read_path R120): two bytes or none. -/
def execCollectWord (s : State) : Outcome :=
  whenDefined s <| whenClass .reader s <| whenAligned s.aligned08 s <| whenNotShort (s.bytesShort 2) s <|
  finishValue (takeValue s (readWordAt s s.byteIndex) 2)

/-- `COLLECT_DWORD` (43_read_path R121): four bytes or none. -/
def execCollectDword (s : State) : Outcome :=
  whenDefined s <| whenClass .reader s <| whenAligned s.aligned08 s <| whenNotShort (s.bytesShort 4) s <|
  finishValue (takeValue s (readDwordAt s s.byteIndex) 4)

end Sys2Proof.Machine
end

