-- ==== Sys2Proof/Machine/Write.lean ====
section
/-! DEFINITION. The write path (42_write_path). All commands are writer class; the capacity is checked for the whole
command before its first write (20_memory R52). -/

namespace Sys2Proof.Machine

/-- `APPEND_BYTES` (42_write_path R103): byte-aligned, else `ALIGNMENT_VIOLATION`. -/
def execAppendBytes (count : BitVec 32) (s : State) : Outcome :=
  withPayload count s fun bytes =>
  whenDefined s <| whenClass .writer s <| whenAligned s.aligned0 s <|
  whenRoom (s.len + countOperand count) s <| finishUnit (appendBody bytes s)

/-- `EMIT` (42_write_path R104). -/
def execEmit (numBits : BitVec 8) (value : BitVec 32) (s : State) : Outcome :=
  whenDefined s <| whenNumBits (numBitsOperand numBits) s <| whenClass .writer s <|
  whenRoom (s.len + s.emitGrowth (numBitsOperand numBits)) s <|
  finishUnit (emitBits value (numBitsOperand numBits) s)

/-- `EMIT_BYTE` (42_write_path R106): no alignment check; overwrites. -/
def execEmitByte (value : BitVec 8) (s : State) : Outcome :=
  whenDefined s <| whenClass .writer s <| whenRoom (s.len + 1) s <| finishUnit (emitByteBody s value)

/-- `EMIT_WORD` (42_write_path R107): both bytes or none. -/
def execEmitWord (value : BitVec 16) (s : State) : Outcome :=
  whenDefined s <| whenClass .writer s <| whenRoom (s.len + 2) s <|
  finishUnit (emitBytesBody s (wordBytes value))

/-- `EMIT_DWORD` (42_write_path R108): all four bytes or none. -/
def execEmitDword (value : BitVec 32) (s : State) : Outcome :=
  whenDefined s <| whenClass .writer s <| whenRoom (s.len + 4) s <|
  finishUnit (emitBytesBody s (dwordBytes value))

end Sys2Proof.Machine
end

