-- ==== Sys2Proof/Machine/Dispatch.lean ====
section
/-! DEFINITION. One arm per command of the opcode map, in its order (30_encoding R65). -/

namespace Sys2Proof.Machine

def exec (i : Instr) (s : State) : Host.Outcome State Fault Refusal :=
  match i with
  | .createWriter => Sys2Proof.Machine.execCreateWriter s
  | .createReader count => Sys2Proof.Machine.execCreateReader count s
  | .buffer => Sys2Proof.Machine.execBuffer s
  | .rawview => Sys2Proof.Machine.execRawview s
  | .getByteIndex => Sys2Proof.Machine.execGetByteIndex s
  | .getBitOffset => Sys2Proof.Machine.execGetBitOffset s
  | .alignW => Sys2Proof.Machine.execAlignW s
  | .alignR => Sys2Proof.Machine.execAlignR s
  | .collectAll => Sys2Proof.Machine.execCollectAll s
  | .hasMore => Sys2Proof.Machine.execHasMore s
  | .appendBytes count => Sys2Proof.Machine.execAppendBytes count s
  | .emit numBits value => Sys2Proof.Machine.execEmit numBits value s
  | .emitByte value => Sys2Proof.Machine.execEmitByte value s
  | .emitWord value => Sys2Proof.Machine.execEmitWord value s
  | .emitDword value => Sys2Proof.Machine.execEmitDword value s
  | .deconcat count => Sys2Proof.Machine.execDeconcat count s
  | .deappend count => Sys2Proof.Machine.execDeappend count s
  | .collect numBits => Sys2Proof.Machine.execCollect numBits s
  | .collectByte => Sys2Proof.Machine.execCollectByte s
  | .collectWord => Sys2Proof.Machine.execCollectWord s
  | .collectDword => Sys2Proof.Machine.execCollectDword s

end Sys2Proof.Machine
end

