-- ==== Sys2Proof/Decode.lean ====
section
/-! DEFINITION. The opcode map's match and mask table, the decoder (total on 48-bit words, rejecting by name) and the
encoder (30_encoding R61 to R69). -/

namespace Sys2Proof

/-- `OP`, bits 47:40 of the command word (30_encoding R61). -/
def opField (w : CmdWord) : BitVec 8 := w.extractLsb' 40 8

/-- `NBITS`, bits 39:32 of the command word (30_encoding R61). -/
def nbitsField (w : CmdWord) : BitVec 8 := w.extractLsb' 32 8

/-- `ARG`, bits 31:0 of the command word (30_encoding R61). -/
def argField (w : CmdWord) : BitVec 32 := w.extractLsb' 0 32

/-- `CMDW = (OP << 40) | (NBITS << 32) | ARG` (30_encoding R61). -/
def packWord (op nbits : BitVec 8) (arg : BitVec 32) : CmdWord :=
  (op.zeroExtend 48 <<< 40) ||| (nbits.zeroExtend 48 <<< 32) ||| arg.zeroExtend 48

/-- The row's match (30_encoding R65, second table). -/
def Mnemonic.pattern : Mnemonic → CmdWord
  | .createWriter => 0x010000000000#48
  | .createReader => 0x020000000000#48
  | .buffer       => 0x030000000000#48
  | .rawview      => 0x040000000000#48
  | .getByteIndex => 0x050000000000#48
  | .getBitOffset => 0x060000000000#48
  | .alignW       => 0x070000000000#48
  | .alignR       => 0x080000000000#48
  | .collectAll   => 0x090000000000#48
  | .hasMore      => 0x0A0000000000#48
  | .appendBytes  => 0x0B0000000000#48
  | .emit         => 0x0C0000000000#48
  | .emitByte     => 0x0D0000000000#48
  | .emitWord     => 0x0E0000000000#48
  | .emitDword    => 0x0F0000000000#48
  | .deconcat     => 0x100000000000#48
  | .deappend     => 0x110000000000#48
  | .collect      => 0x120000000000#48
  | .collectByte  => 0x130000000000#48
  | .collectWord  => 0x140000000000#48
  | .collectDword => 0x150000000000#48

/-- The row's mask (30_encoding R65, second table). -/
def Mnemonic.mask : Mnemonic → CmdWord
  | .createWriter => 0xFFFFFFFFFFFF#48
  | .createReader => 0xFFFF00000000#48
  | .buffer       => 0xFFFFFFFFFFFF#48
  | .rawview      => 0xFFFFFFFFFFFF#48
  | .getByteIndex => 0xFFFFFFFFFFFF#48
  | .getBitOffset => 0xFFFFFFFFFFFF#48
  | .alignW       => 0xFFFFFFFFFFFF#48
  | .alignR       => 0xFFFFFFFFFFFF#48
  | .collectAll   => 0xFFFFFFFFFFFF#48
  | .hasMore      => 0xFFFFFFFFFFFF#48
  | .appendBytes  => 0xFFFF00000000#48
  | .emit         => 0xFF0000000000#48
  | .emitByte     => 0xFFFFFFFFFF00#48
  | .emitWord     => 0xFFFFFFFF0000#48
  | .emitDword    => 0xFFFF00000000#48
  | .deconcat     => 0xFFFF00000000#48
  | .deappend     => 0xFFFF00000000#48
  | .collect      => 0xFF00FFFFFFFF#48
  | .collectByte  => 0xFFFFFFFFFFFF#48
  | .collectWord  => 0xFFFFFFFFFFFF#48
  | .collectDword => 0xFFFFFFFFFFFF#48

/-- A word selects a row when `(w & mask) == match` (30_encoding R65). -/
def Mnemonic.selects (m : Mnemonic) (w : CmdWord) : Bool := w &&& m.mask == m.pattern

/-- The command of a row with its operands read from the fields (30_encoding R63). -/
def Mnemonic.build (m : Mnemonic) (nbits : BitVec 8) (arg : BitVec 32) : Instr :=
  match m with
  | .createWriter => .createWriter
  | .createReader => .createReader arg
  | .buffer       => .buffer
  | .rawview      => .rawview
  | .getByteIndex => .getByteIndex
  | .getBitOffset => .getBitOffset
  | .alignW       => .alignW
  | .alignR       => .alignR
  | .collectAll   => .collectAll
  | .hasMore      => .hasMore
  | .appendBytes  => .appendBytes arg
  | .emit         => .emit nbits arg
  | .emitByte     => .emitByte (arg.extractLsb' 0 8)
  | .emitWord     => .emitWord (arg.extractLsb' 0 16)
  | .emitDword    => .emitDword arg
  | .deconcat     => .deconcat arg
  | .deappend     => .deappend arg
  | .collect      => .collect nbits
  | .collectByte  => .collectByte
  | .collectWord  => .collectWord
  | .collectDword => .collectDword

/-- Why a word is no command. Both reasons are reported to the host as `ILLEGAL_COMMAND` (60_exceptions R136). -/
inductive DecodeError where
  /-- `OP` is `0x00` or `0x16` to `0xFF` (30_encoding R66). -/
  | reservedOpcode (op : BitVec 8)
  /-- `OP` is defined, but a field that its form requires to be zero is not (30_encoding R67). -/
  | nonzeroReservedField (m : Mnemonic)
deriving DecidableEq, Repr

/-- `decode(w)`: the row with `(w & mask) == match`, its operands read from the fields, or the named reason why there is
none (30_encoding R69). -/
def decode (w : CmdWord) : Except DecodeError Instr :=
  match Mnemonic.all.find? (fun m => m.selects w) with
  | some m => .ok (m.build (nbitsField w) (argField w))
  | none =>
    match Mnemonic.all.find? (fun m => m.opcode == opField w) with
    | some m => .error (.nonzeroReservedField m)
    | none => .error (.reservedOpcode (opField w))

/-- `encode`: the row's match ORed with the command's operand fields (30_encoding R69, R73). -/
def encode (i : Instr) : CmdWord :=
  i.mnemonic.pattern ||| (i.nbits.zeroExtend 48 <<< 32) ||| i.arg.zeroExtend 48

/-- The command word made of the low `nbits` bits of `w`: bit 0 of `w` is bit 0 of the one 48-bit word, and every bit
above `nbits` is 0. -/
def wordOfNat (nbits w : Nat) : CmdWord := BitVec.ofNat 48 (w % 2 ^ nbits)

/-- The command that the decoder reads from a table word, or none where it refuses. -/
def decodeTableWord (nbits w : Nat) : Option Instr := (decode (wordOfNat nbits w)).toOption

end Sys2Proof
end

