-- ==== Sys2Proof/Machine/Port.lean ====
section
/-! DEFINITION. The command port: taking the host's next event, and placing a command there (30_encoding R60, R64,
R75; 70_reset R155, R159, R174). -/

namespace Sys2Proof.Machine

/-- The state in which an accepted command runs: the event is taken, the payload stands in the data-in channel. -/
def State.accept (s : State) (payload : List Byte) (rest : List HostEvent) : State :=
  { s with din := payload, host := rest }

/-- RESET (70_reset R155, R159): the architectural state of 10_state R36, no command in progress, no response pending;
a command that was executing is abandoned without a response (log entries 6 and 12). -/
def State.assertReset (s : State) (rest : List HostEvent) : State :=
  { s with mode := .idle, len := 0, byteIndex := 0, bitOffset := 0, store := [], din := [], rsp := none,
           poisoned := false, host := rest }

/-- A word that decodes to no command (60_exceptions R136): `ILLEGAL_COMMAND` in every `MODE`. -/
def rejectWord (s : State) : Outcome := whenDefined s (raise .illegalCommand s)

/-- What the port delivers in a step. -/
inductive Fetched where
  /-- the host presents nothing -/
  | idle
  /-- the host asserts reset -/
  | reset (t : State)
  /-- a command word that selects no row of the opcode map -/
  | illegal (e : DecodeError) (t : State)
  /-- a command with a payload that is not the one its word calls for -/
  | illFormed
  /-- a command, and the state in which it runs -/
  | run (i : Instr) (t : State)

/-- Take the host's next event: decode first, before anything else is examined (60_exceptions R136), then the pair's
form (30_encoding R64). -/
def fetch (s : State) : Fetched :=
  match s.host with
  | [] => .idle
  | .reset _ :: rest => .reset (s.assertReset rest)
  | .command c :: rest =>
    match decode c.word with
    | .error e => .illegal e (s.accept c.payload rest)
    | .ok i => if i.payloadWellFormed c.payload then .run i (s.accept c.payload rest) else .illFormed

/-- A table word as a command: with the payload its word calls for, all of it zero bytes (log entry 19). -/
def commandOfWord (w : CmdWord) : Command :=
  match decode w with
  | .ok i =>
    match i.mnemonic.form with
    | .p => ⟨w, List.replicate i.arg.toNat 0x00#8⟩
    | .z | .nv | .n | .v8 | .v16 | .v32 | .c => ⟨w, []⟩
  | .error _ => ⟨w, []⟩

/-- The host presents this command next (log entry 3). -/
def State.present (s : State) (c : Command) : State := { s with host := .command c :: s.host }

end Sys2Proof.Machine
end

