-- ==== Sys2Proof/Machine/Step.lean ====
section
/-! DEFINITION. One step: the host's next event, and the command it carries (00_scope R15). -/

namespace Sys2Proof.Machine

/-- One step is one event of the host: one command, or reset. With no event left the engine holds its state
(60_exceptions R150, log entry 16). -/
def step (s : State) : Host.Outcome State Fault Refusal :=
  match fetch s with
  | .idle => .next s
  | .reset t => .next t
  | .illegal _ t => rejectWord t
  | .illFormed => .refused .illFormedCommand
  | .run i t => exec i t

/-- The state in which the very next step runs the command of a table word (log entries 3 and 19). -/
def State.withFetchWord (s : State) (nbits w : Nat) : State := s.present (commandOfWord (wordOfNat nbits w))

end Sys2Proof.Machine
end

