-- ==== Sys2Proof/Machine/Assembler.lean ====
section
/-! DEFINITION. The textual form of command lists (30_encoding R73): one command per line, the mnemonic, its operands, a
bracketed payload, a comment. There are no pseudo-instructions, labels or directives (30_encoding R74). What R73 leaves
open about blanks and empty lines is in log entry 17. -/

namespace Sys2Proof

/-- Why a line is no command. -/
inductive AsmError where
  /-- the first word of the line is no mnemonic of the opcode map -/
  | unknownMnemonic
  /-- a word that stands for a number is none -/
  | badNumber
  /-- the operands are not the ones the mnemonic takes -/
  | badOperands
  /-- `num_bits > 255` -/
  | numBitsTooWide
  /-- a value too wide for its command -/
  | valueTooWide
  /-- a count, or the length of a payload, of `2^32` or more -/
  | countTooWide
  /-- a payload element that is no byte -/
  | byteTooWide
deriving DecidableEq, Repr

/-- The mnemonic in upper case (30_encoding R65, R73). -/
def Mnemonic.name : Mnemonic → List Char
  | .createWriter => ['C', 'R', 'E', 'A', 'T', 'E', '_', 'W', 'R', 'I', 'T', 'E', 'R']
  | .createReader => ['C', 'R', 'E', 'A', 'T', 'E', '_', 'R', 'E', 'A', 'D', 'E', 'R']
  | .buffer       => ['B', 'U', 'F', 'F', 'E', 'R']
  | .rawview      => ['R', 'A', 'W', 'V', 'I', 'E', 'W']
  | .getByteIndex => ['G', 'E', 'T', '_', 'B', 'Y', 'T', 'E', '_', 'I', 'N', 'D', 'E', 'X']
  | .getBitOffset => ['G', 'E', 'T', '_', 'B', 'I', 'T', '_', 'O', 'F', 'F', 'S', 'E', 'T']
  | .alignW       => ['A', 'L', 'I', 'G', 'N', '_', 'W']
  | .alignR       => ['A', 'L', 'I', 'G', 'N', '_', 'R']
  | .collectAll   => ['C', 'O', 'L', 'L', 'E', 'C', 'T', '_', 'A', 'L', 'L']
  | .hasMore      => ['H', 'A', 'S', '_', 'M', 'O', 'R', 'E']
  | .appendBytes  => ['A', 'P', 'P', 'E', 'N', 'D', '_', 'B', 'Y', 'T', 'E', 'S']
  | .emit         => ['E', 'M', 'I', 'T']
  | .emitByte     => ['E', 'M', 'I', 'T', '_', 'B', 'Y', 'T', 'E']
  | .emitWord     => ['E', 'M', 'I', 'T', '_', 'W', 'O', 'R', 'D']
  | .emitDword    => ['E', 'M', 'I', 'T', '_', 'D', 'W', 'O', 'R', 'D']
  | .deconcat     => ['D', 'E', 'C', 'O', 'N', 'C', 'A', 'T']
  | .deappend     => ['D', 'E', 'A', 'P', 'P', 'E', 'N', 'D']
  | .collect      => ['C', 'O', 'L', 'L', 'E', 'C', 'T']
  | .collectByte  => ['C', 'O', 'L', 'L', 'E', 'C', 'T', '_', 'B', 'Y', 'T', 'E']
  | .collectWord  => ['C', 'O', 'L', 'L', 'E', 'C', 'T', '_', 'W', 'O', 'R', 'D']
  | .collectDword => ['C', 'O', 'L', 'L', 'E', 'C', 'T', '_', 'D', 'W', 'O', 'R', 'D']

/-! ### From operands to a command -/

/-- A number that must stay below a bound. -/
def asmBounded (bound : Nat) (e : AsmError) (n : Nat) : Except AsmError Nat := if n < bound then .ok n else .error e

/-- A command without a payload. -/
def asmPlain (m : Mnemonic) (nbits arg : Nat) : Command :=
  ⟨encode (m.build (BitVec.ofNat 8 nbits) (BitVec.ofNat 32 arg)), []⟩

/-- No operand. -/
def asmNone (m : Mnemonic) : List Nat → Except AsmError Command
  | [] => .ok (asmPlain m 0 0)
  | _ :: _ => .error .badOperands

/-- One operand below a bound, given to the word by `f`. -/
def asmOne (bound : Nat) (e : AsmError) (f : Nat → Command) : List Nat → Except AsmError Command
  | [n] => (asmBounded bound e n).map f
  | [] | _ :: _ :: _ => .error .badOperands

/-- `EMIT value, num_bits`: the value first (30_encoding R73). -/
def asmEmit (m : Mnemonic) : List Nat → Except AsmError Command
  | [v, n] =>
    (asmBounded (2 ^ 8) .numBitsTooWide n).bind fun n =>
      (asmBounded (2 ^ 32) .valueTooWide v).map fun v => asmPlain m n v
  | [] | [_] | _ :: _ :: _ :: _ => .error .badOperands

/-- A bracketed list of byte values: the payload, and its length as `ARG`. -/
def asmPayload (m : Mnemonic) (bytes : List Nat) : Except AsmError Command :=
  if bytes.any (fun b => decide (2 ^ 8 ≤ b)) then .error .byteTooWide
  else (asmBounded (2 ^ 32) .countTooWide bytes.length).map fun k =>
    ⟨encode (m.build 0#8 (BitVec.ofNat 32 k)), bytes.map (BitVec.ofNat 8)⟩

/-- The command of a mnemonic with its operands, or with a payload (30_encoding R73). -/
def assembleCommand (m : Mnemonic) (operands : List Nat) (payload : Option (List Nat)) : Except AsmError Command :=
  match payload with
  | none =>
    match m.form with
    | .z => asmNone m operands
    | .nv => asmEmit m operands
    | .n => asmOne (2 ^ 8) .numBitsTooWide (fun n => asmPlain m n 0) operands
    | .v8 => asmOne (2 ^ 8) .valueTooWide (fun v => asmPlain m 0 v) operands
    | .v16 => asmOne (2 ^ 16) .valueTooWide (fun v => asmPlain m 0 v) operands
    | .v32 => asmOne (2 ^ 32) .valueTooWide (fun v => asmPlain m 0 v) operands
    | .c => asmOne (2 ^ 32) .countTooWide (fun n => asmPlain m 0 n) operands
    | .p => .error .badOperands
  | some bytes =>
    match m.form, operands with
    | .p, [] => asmPayload m bytes
    | .p, _ :: _ => .error .badOperands
    | .z, _ | .nv, _ | .n, _ | .v8, _ | .v16, _ | .v32, _ | .c, _ => .error .badOperands

/-! ### From text to operands -/

/-- The pieces of a line. -/
inductive AsmToken where
  | word (cs : List Char)
  | comma
  | openBracket
  | closeBracket
deriving DecidableEq, Repr

/-- A finished word in front of the tokens that follow; `cs` is the word read so far, last character first. -/
def asmFlush (cs : List Char) (rest : List AsmToken) : List AsmToken :=
  if cs.isEmpty then rest else .word cs.reverse :: rest

/-- A line cut into pieces; `;` starts a comment. -/
def asmTokens : List Char → List Char → List AsmToken
  | [], cs => asmFlush cs []
  | c :: rest, cs =>
    if c = ';' then asmFlush cs []
    else if c = ' ' || c = '\t' || c = '\r' then asmFlush cs (asmTokens rest [])
    else if c = ',' then asmFlush cs (.comma :: asmTokens rest [])
    else if c = '[' then asmFlush cs (.openBracket :: asmTokens rest [])
    else if c = ']' then asmFlush cs (.closeBracket :: asmTokens rest [])
    else asmTokens rest (c :: cs)

/-- The value of a digit, of either case. -/
def asmDigit (c : Char) : Option Nat :=
  if '0'.toNat ≤ c.toNat && c.toNat ≤ '9'.toNat then some (c.toNat - '0'.toNat)
  else if 'a'.toNat ≤ c.toNat && c.toNat ≤ 'f'.toNat then some (c.toNat - 'a'.toNat + 10)
  else if 'A'.toNat ≤ c.toNat && c.toNat ≤ 'F'.toNat then some (c.toNat - 'A'.toNat + 10)
  else none

/-- The value of a run of digits of a base, after the digits already read. -/
def asmDigits (base : Nat) : List Char → Nat → Option Nat
  | [], n => some n
  | c :: rest, n =>
    (asmDigit c).bind fun d => if d < base then asmDigits base rest (base * n + d) else none

/-- A number: decimal, `0x` hexadecimal or `0b` binary. -/
def asmNumber : List Char → Except AsmError Nat
  | '0' :: 'x' :: d :: rest => ((asmDigits 16 (d :: rest) 0).map Except.ok).getD (.error .badNumber)
  | '0' :: 'b' :: d :: rest => ((asmDigits 2 (d :: rest) 0).map Except.ok).getD (.error .badNumber)
  | d :: rest => ((asmDigits 10 (d :: rest) 0).map Except.ok).getD (.error .badNumber)
  | [] => .error .badNumber

/-- Numbers separated by commas, at least one. -/
def asmNumbers : List AsmToken → Except AsmError (List Nat)
  | [.word w] => (asmNumber w).map fun n => [n]
  | .word w :: .comma :: rest => (asmNumber w).bind fun n => (asmNumbers rest).map fun ns => n :: ns
  | [] | .comma :: _ | .openBracket :: _ | .closeBracket :: _
  | .word _ :: .word _ :: _ | .word _ :: .openBracket :: _ | .word _ :: .closeBracket :: _ => .error .badOperands

/-- The pieces before the closing bracket, where it is the last piece. -/
def asmBracketed : List AsmToken → Option (List AsmToken)
  | [] => none
  | [t] => if t = .closeBracket then some [] else none
  | t :: u :: rest => (asmBracketed (u :: rest)).map fun ts => t :: ts

/-- Numbers separated by commas, or nothing. -/
def asmNumbersOrNone (ts : List AsmToken) : Except AsmError (List Nat) := if ts = [] then .ok [] else asmNumbers ts

/-- The operands of a mnemonic: numbers, or a bracketed payload. -/
def asmOperands (m : Mnemonic) : List AsmToken → Except AsmError Command
  | .openBracket :: rest =>
    match asmBracketed rest with
    | some ts => (asmNumbersOrNone ts).bind fun bytes => assembleCommand m [] (some bytes)
    | none => .error .badOperands
  | [] => assembleCommand m [] none
  | .word w :: rest => (asmNumbers (.word w :: rest)).bind fun ns => assembleCommand m ns none
  | .comma :: _ | .closeBracket :: _ => .error .badOperands

/-- One line: a command, or nothing on a line that is empty or a comment. -/
def assembleLine (line : List Char) : Except AsmError (Option Command) :=
  match asmTokens line [] with
  | [] => .ok none
  | .word w :: rest =>
    match Mnemonic.all.find? (fun m => m.name == w) with
    | some m => (asmOperands m rest).map some
    | none => .error .unknownMnemonic
  | .comma :: _ | .openBracket :: _ | .closeBracket :: _ => .error .unknownMnemonic

/-- The lines of a text; `cs` is the line read so far, last character first. -/
def asmLines : List Char → List Char → List (List Char)
  | [], cs => [cs.reverse]
  | c :: rest, cs => if c = '\n' then cs.reverse :: asmLines rest [] else asmLines rest (c :: cs)

/-- The commands of a list of lines. R73 says only that an assembler rejects; that one rejected line rejects the whole list,
with the first such line's error and no commands, is a DESIGN CHOICE (log entry 17). -/
def assembleLines : List (List Char) → Except AsmError (List Command)
  | [] => .ok []
  | line :: rest =>
    (assembleLine line).bind fun c => (assembleLines rest).map fun cs =>
      match c with
      | some c => c :: cs
      | none => cs

/-- A command list in text (30_encoding R73). -/
def assemble (text : List Char) : Except AsmError (List Command) := assembleLines (asmLines text [])

end Sys2Proof
end

