-- ==== Sys2Proof/Safety.lean ====
section
/-! DEFINITION. The terms that claims about the machine use: the stream position, the invariants of 10_state, what a
well-formed response is, frames, when each fault condition holds, and a list of byte commands. -/

namespace Sys2Proof.Machine

/-! ### The stream -/

/-- `POS = 8 * BYTE_INDEX + BIT_OFFSET` (10_state R35). -/
def State.pos (s : State) : Nat := 8 * s.byteIndex + s.bitOffset.val

/-- Stream bit `k`: bit `7 - (k mod 8)` of `STORE[k div 8]` (20_memory R42). -/
def State.streamBit (s : State) (k : Nat) : Bool := (Store.read s.store (k / 8)).getLsbD (7 - k % 8)

/-- The `n` bytes of the store from index `a` on. -/
def State.bytesFrom (s : State) (a n : Nat) : List Byte := (List.range n).map fun i => Store.read s.store (a + i)

/-! ### Invariants -/

/-- In `IDLE` no buffer exists: everything is 0 (10_state R36). -/
abbrev State.IdleInv (s : State) : Prop := s.len = 0 ∧ s.byteIndex = 0 ∧ s.bitOffset.val = 0

/-- The writer invariant (10_state R32): (a) `LEN == BYTE_INDEX + 1`; (b) `BIT_OFFSET <= 7`; (c) the bits
`7 - BIT_OFFSET` down to 0 of `STORE[BYTE_INDEX]` are zero. -/
abbrev State.WriterInv (s : State) : Prop :=
  s.len = s.byteIndex + 1 ∧ s.bitOffset.val ≤ 7 ∧
  ∀ j < 8 - s.bitOffset.val, (Store.read s.store s.byteIndex).getLsbD j = false

/-- The reader invariant (10_state R33 (a) to (c)). -/
abbrev State.ReaderInv (s : State) : Prop :=
  s.byteIndex ≤ s.len ∧ s.bitOffset.val ≤ 7 ∧
  (s.bitOffset.val ≠ 0 → s.byteIndex < s.len)

/-- What holds of the cursor in each `MODE`, in a run that is defined. -/
abbrev State.ModeInv (s : State) : Prop :=
  (s.mode = .idle → s.IdleInv) ∧ (s.mode = .writer → s.WriterInv) ∧ (s.mode = .reader → s.ReaderInv)

/-- The invariant of the machine: a well-formed capacity (00_scope R11) that holds the valid bytes (10_state R23), a store
in canonical form with no byte outside the capacity (10_state R22), and the cursor invariants unless the run has met the
undefined case, which only a reader meets (10_state R33, 43_read_path R114). -/
abbrev State.Inv (s : State) : Prop :=
  s.cap.wellFormed = true ∧ capacityAdmits s.cap s.len = true ∧ Store.wf s.store = true ∧
  (∀ c ∈ s.store, capacityAdmits s.cap (c.1 + 1) = true) ∧
  (s.poisoned = true → s.mode = .reader) ∧ (s.poisoned = false → s.ModeInv)

/-- A response is well formed in the state it leaves (30_encoding R71, 60_exceptions R141, R142): at most `LEN` bytes and
zero diagnostics on `OK`; no result, no bytes and the register values on a fault, where their fields can hold them
(log entry 2). -/
abbrev Response.WellFormedIn (r : Response) (s : State) : Prop :=
  if r.status = .ok then
    r.dout.length ≤ s.len ∧ r.diagLen = 0#32 ∧ r.diagByteIndex = 0#32 ∧ r.diagBitOffset = 0#4
  else r.result = 0#32 ∧ r.dout = [] ∧ (s.len < 2 ^ 32 → r.diagLen.toNat = s.len) ∧
    (s.byteIndex < 2 ^ 32 → r.diagByteIndex.toNat = s.byteIndex) ∧ r.diagBitOffset.toNat = s.bitOffset.val

/-- The response that stands in the response channel is well formed, in a run that is defined. -/
abbrev State.RspInv (s : State) : Prop :=
  s.poisoned = false → ∀ r ∈ s.rsp, r.WellFormedIn s

/-! ### Frames -/

/-- Everything but `LEN`, the cursor, the store and the response is as it was. -/
abbrev State.SameBeside (s t : State) : Prop :=
  t.mode = s.mode ∧ t.cap = s.cap ∧ t.host = s.host ∧ t.din = s.din ∧ t.poisoned = s.poisoned ∧
  t.freeCount = s.freeCount

/-- Only the response differs: a command that faults, or that only reads (60_exceptions R141, 20_memory R46). -/
abbrev State.SameButRsp (s t : State) : Prop :=
  t.engine = s.engine ∧ t.cap = s.cap ∧ t.host = s.host ∧ t.din = s.din ∧ t.poisoned = s.poisoned ∧
  t.freeCount = s.freeCount

/-- The command ended in a fault of this status: `ILLEGAL_COMMAND` and so on are responses, and nothing else changes
(60_exceptions R141, R142). -/
abbrev FaultsWith (o : Outcome) (st : Status) (s : State) : Prop :=
  ∃ t, o = .next t ∧ t.rsp = some (faultResponse st s) ∧ s.SameButRsp t

/-- Two states that only differ in store bytes at and above `LEN`, which hold unspecified values (20_memory R56). -/
abbrev State.SameValid (s t : State) : Prop :=
  t.mode = s.mode ∧ t.len = s.len ∧ t.byteIndex = s.byteIndex ∧ t.bitOffset = s.bitOffset ∧ t.cap = s.cap ∧
  t.host = s.host ∧ t.din = s.din ∧ t.rsp = s.rsp ∧ t.poisoned = s.poisoned ∧ t.freeCount = s.freeCount ∧
  ∀ a < s.len, Store.read t.store a = Store.read s.store a

/-- The store can grow by `g` bytes: `LEN + g <= CAP`, or `CAP` is unbounded (20_memory R52, 00_scope R11). -/
abbrev State.HasRoom (s : State) (g : Nat) : Prop := capacityAdmits s.cap (s.len + g) = true

/-! ### When each fault condition holds (60_exceptions R132 to R138), whatever the others -/

/-- `NBITS` outside 1 to 32 on `EMIT` or `COLLECT` (60_exceptions R132). -/
def invalidParameterCond : Instr → Bool
  | .emit n _ | .collect n => !numBitsValid n.toNat
  | .createWriter | .createReader _ | .buffer | .rawview | .getByteIndex | .getBitOffset | .alignW | .alignR
  | .collectAll | .hasMore | .appendBytes _ | .emitByte _ | .emitWord _ | .emitDword _ | .deconcat _ | .deappend _
  | .collectByte | .collectWord | .collectDword => false

/-- The class is not the one `MODE` gives (60_exceptions R137). -/
def wrongModeCond (i : Instr) (s : State) : Bool := !classAdmits i.mnemonic.capClass s.mode

/-- A byte-level command that checks alignment met a misaligned cursor (60_exceptions R133). -/
def alignmentCond (i : Instr) (s : State) : Bool :=
  match i with
  | .collectByte | .collectWord | .collectDword => !(s.bitOffset.val == 0 || s.bitOffset.val == 8)
  | .deconcat _ | .deappend _ | .appendBytes _ => !(s.bitOffset.val == 0)
  | .createWriter | .createReader _ | .buffer | .rawview | .getByteIndex | .getBitOffset | .alignW | .alignR
  | .collectAll | .hasMore | .emit _ _ | .emitByte _ | .emitWord _ | .emitDword _ | .collect _ => false

/-- A checked read at or beyond the end of the store (60_exceptions R134). -/
def overrunCond (i : Instr) (s : State) : Bool :=
  match i with
  | .collectByte => decide (s.len ≤ s.byteIndex)
  | .collectWord => decide (s.len < s.byteIndex + 2)
  | .collectDword => decide (s.len < s.byteIndex + 4)
  | .collect n => decide (8 * s.len < s.pos + n.toNat)
  | .createWriter | .createReader _ | .buffer | .rawview | .getByteIndex | .getBitOffset | .alignW | .alignR
  | .collectAll | .hasMore | .appendBytes _ | .emit _ _ | .emitByte _ | .emitWord _ | .emitDword _ | .deconcat _
  | .deappend _ => false

/-- The number of bytes the store must hold for the command to run (20_memory R52): none asked where it is 0. -/
def neededLen (i : Instr) (s : State) : Nat :=
  match i with
  | .createReader k => k.toNat
  | .alignW => if s.bitOffset.val = 0 then 0 else s.len + 1
  | .appendBytes k => s.len + k.toNat
  | .emit n _ => s.len + (s.bitOffset.val + n.toNat) / 8
  | .emitByte _ => s.len + 1
  | .emitWord _ => s.len + 2
  | .emitDword _ => s.len + 4
  | .createWriter | .buffer | .rawview | .getByteIndex | .getBitOffset | .alignR | .collectAll | .hasMore
  | .deconcat _ | .deappend _ | .collect _ | .collectByte | .collectWord | .collectDword => 0

/-- The command would make `LEN > CAP` (60_exceptions R138). -/
def capacityCond (i : Instr) (s : State) : Bool := !capacityAdmits s.cap (neededLen i s)

/-- The undefined case: a raw extract of more bytes than remain (60_exceptions R135). -/
def undefinedCond (i : Instr) (s : State) : Bool :=
  match i with
  | .deconcat k | .deappend k => decide (s.len < s.byteIndex + k.toNat)
  | .createWriter | .createReader _ | .buffer | .rawview | .getByteIndex | .getBitOffset | .alignW | .alignR
  | .collectAll | .hasMore | .appendBytes _ | .emit _ _ | .emitByte _ | .emitWord _ | .emitDword _ | .collect _
  | .collectByte | .collectWord | .collectDword => false

/-- The first fault in the order of 60_exceptions R140, after decoding; `ok` where no condition holds. -/
def firstStatus (i : Instr) (s : State) : Status :=
  if invalidParameterCond i then .invalidParameter
  else if wrongModeCond i s then .wrongMode
  else if alignmentCond i s then .alignmentViolation
  else if overrunCond i s then .overrun
  else if capacityCond i s then .capacityExceeded
  else .ok

/-! ### A list of byte commands -/

/-- One `EMIT_BYTE` command for each byte in turn, as a host would issue them (42_write_path R109 (a)). -/
def emitByteCommands : List Byte → State → Outcome
  | [], s => .next s
  | b :: rest, s =>
    match exec (.emitByte b) s with
    | .next t => emitByteCommands rest t
    | .fault f => .fault f
    | .refused r => .refused r

end Sys2Proof.Machine
end

