-- ==== Sys2Proof/Certificates/Slice0/Obligations.lean ====
section
/-! DEFINITION. The statements for the provers. Each docstring names the rule it formalises. A state whose run has met the
undefined raw extract (`poisoned`, log entry 7) has no defined response until a `CREATE_*` completes or reset
(43_read_path R114 (b)), so statements about a command's effect ask for `s.poisoned = false`; statements whose rules hold
of reachable states ask for the invariant `s.Inv`, which `EveryStepKeepsTheInvariant` and `ResetSatisfiesTheInvariant`
state by themselves. -/

open Sys2Proof Sys2Proof.Machine

/-! ### Encoding -/

/-- The sample words of 95_test_vectors V30, one for every row of the opcode map and two for `EMIT`, and illegal words of
V60d. -/
def Obligations.SampleWordsDecodeAsListed : Prop :=
  decode 0x010000000000#48 = .ok .createWriter ∧
  decode 0x020000000003#48 = .ok (.createReader 3#32) ∧
  decode 0x030000000000#48 = .ok .buffer ∧
  decode 0x040000000000#48 = .ok .rawview ∧
  decode 0x050000000000#48 = .ok .getByteIndex ∧
  decode 0x060000000000#48 = .ok .getBitOffset ∧
  decode 0x070000000000#48 = .ok .alignW ∧
  decode 0x080000000000#48 = .ok .alignR ∧
  decode 0x090000000000#48 = .ok .collectAll ∧
  decode 0x0A0000000000#48 = .ok .hasMore ∧
  decode 0x0B0000000002#48 = .ok (.appendBytes 2#32) ∧
  decode 0x0C0300000005#48 = .ok (.emit 3#8 5#32) ∧
  decode 0x0C20DEADBEEF#48 = .ok (.emit 32#8 0xDEADBEEF#32) ∧
  decode 0x0D00000000AA#48 = .ok (.emitByte 0xAA#8) ∧
  decode 0x0E0000001234#48 = .ok (.emitWord 0x1234#16) ∧
  decode 0x0F0012345678#48 = .ok (.emitDword 0x12345678#32) ∧
  decode 0x100000000004#48 = .ok (.deconcat 4#32) ∧
  decode 0x1100FFFFFFFF#48 = .ok (.deappend 0xFFFFFFFF#32) ∧
  decode 0x120900000000#48 = .ok (.collect 9#8) ∧
  decode 0x130000000000#48 = .ok .collectByte ∧
  decode 0x140000000000#48 = .ok .collectWord ∧
  decode 0x150000000000#48 = .ok .collectDword ∧
  decode 0x000000000000#48 = .error (.reservedOpcode 0x00#8) ∧
  decode 0x160000000000#48 = .error (.reservedOpcode 0x16#8) ∧
  decode 0x0D0000000100#48 = .error (.nonzeroReservedField .emitByte) ∧
  decode 0x120300000001#48 = .error (.nonzeroReservedField .collect)

/-- 30_encoding R69: decoding is the match and mask table with the operands read from the fields, encoding is the match
ORed with the operand fields, and each inverts the other. -/
def Obligations.DecodeIsTheTableAndInvertsEncode : Prop :=
  (∀ (w : CmdWord) (i : Instr), decode w = .ok i ↔
    ∃ m : Mnemonic, w &&& m.mask = m.pattern ∧ i = m.build (nbitsField w) (argField w)) ∧
  (∀ w : CmdWord, (∃ e, decode w = .error e) ↔ ∀ m : Mnemonic, w &&& m.mask ≠ m.pattern) ∧
  (∀ i : Instr, encode i = i.mnemonic.pattern ||| packWord 0#8 i.nbits i.arg) ∧
  (∀ i : Instr, decode (encode i) = .ok i) ∧
  (∀ (w : CmdWord) (i : Instr), decode w = .ok i → encode i = w)

/-- 30_encoding R65: at most one row of the opcode map matches a word, and a row's match has the row's `OP`. -/
def Obligations.AtMostOneRowMatchesAWord : Prop :=
  (∀ (w : CmdWord) (m m' : Mnemonic), w &&& m.mask = m.pattern → w &&& m'.mask = m'.pattern → m = m') ∧
  (∀ m : Mnemonic, opField m.pattern = m.opcode ∧ m.pattern &&& m.mask = m.pattern) ∧
  (∀ m m' : Mnemonic, m.opcode = m'.opcode → m = m')

/-- 30_encoding R66: a reserved opcode selects no command, whatever the other fields hold, and the word raises
`ILLEGAL_COMMAND` and changes no state. That this holds also with a payload beside the word, which no rule gives a meaning,
is the model's choice (log entry 10). -/
def Obligations.ReservedOpcodesAreIllegal : Prop :=
  ∀ w : CmdWord, opField w = 0x00#8 ∨ 0x16 ≤ (opField w).toNat →
    decode w = .error (.reservedOpcode (opField w)) ∧
    ∀ (s : State) (payload : List Byte) (rest : List HostEvent), s.poisoned = false →
      s.host = .command ⟨w, payload⟩ :: rest →
      FaultsWith (step s) .illegalCommand (s.accept payload rest)

/-- 30_encoding R67: a defined opcode with a nonzero must-be-zero field raises `ILLEGAL_COMMAND` and changes no state;
each legal command has exactly one word; every word with `OP = 0x0C` is legal, and `EMIT` ignores the bits of `ARG` above
`num_bits`. That the first clause holds also with a payload beside the word is the model's choice (log entry 10). -/
def Obligations.NonzeroReservedFieldsAreIllegal : Prop :=
  (∀ (m : Mnemonic) (w : CmdWord), opField w = m.opcode →
    m.form.fieldsWellFormed (nbitsField w) (argField w) = false →
    decode w = .error (.nonzeroReservedField m) ∧
    ∀ (s : State) (payload : List Byte) (rest : List HostEvent), s.poisoned = false →
      s.host = .command ⟨w, payload⟩ :: rest →
      FaultsWith (step s) .illegalCommand (s.accept payload rest)) ∧
  (∀ (w w' : CmdWord) (i : Instr), decode w = .ok i → decode w' = .ok i → w = w') ∧
  (∀ w : CmdWord, opField w = 0x0C#8 → decode w = .ok (.emit (nbitsField w) (argField w))) ∧
  (∀ (n : BitVec 8) (v v' : BitVec 32) (s : State), (∀ i < n.toNat, v.getLsbD i = v'.getLsbD i) →
    exec (.emit n v) s = exec (.emit n v') s)

/-- 30_encoding R63: where each operand stands in the word, unsigned and used as it stands. -/
def Obligations.OperandsAreReadFromTheirFields : Prop :=
  (∀ (n : BitVec 8) (v : BitVec 32), decode (packWord 0x0C#8 n v) = .ok (.emit n v)) ∧
  (∀ n : BitVec 8, decode (packWord 0x12#8 n 0#32) = .ok (.collect n)) ∧
  (∀ v : BitVec 8, decode (packWord 0x0D#8 0#8 (v.zeroExtend 32)) = .ok (.emitByte v)) ∧
  (∀ v : BitVec 16, decode (packWord 0x0E#8 0#8 (v.zeroExtend 32)) = .ok (.emitWord v)) ∧
  (∀ v : BitVec 32, decode (packWord 0x0F#8 0#8 v) = .ok (.emitDword v)) ∧
  (∀ k : BitVec 32, decode (packWord 0x02#8 0#8 k) = .ok (.createReader k) ∧
    decode (packWord 0x0B#8 0#8 k) = .ok (.appendBytes k) ∧
    decode (packWord 0x10#8 0#8 k) = .ok (.deconcat k) ∧
    decode (packWord 0x11#8 0#8 k) = .ok (.deappend k))

/-- 30_encoding R73: a command that the assembler accepts decodes to its mnemonic and has the payload it calls for; and
for every row of the syntax table, which operands and payload it takes, what is too wide, and the word they give. -/
def Obligations.AssembledCommandsFollowTheSyntax : Prop :=
  (∀ (m : Mnemonic) (operands : List Nat) (payload : Option (List Nat)) (c : Command),
    assembleCommand m operands payload = .ok c →
    ∃ i, decode c.word = .ok i ∧ i.mnemonic = m ∧ i.payloadWellFormed c.payload = true) ∧
  (∀ (m : Mnemonic) (w : CmdWord) (operands : List Nat) (payload : Option (List Nat)) (c : Command),
    (m, w) ∈ [(Mnemonic.createWriter, 0x010000000000#48), (.buffer, 0x030000000000#48), (.rawview, 0x040000000000#48),
      (.getByteIndex, 0x050000000000#48), (.getBitOffset, 0x060000000000#48), (.alignW, 0x070000000000#48),
      (.alignR, 0x080000000000#48), (.collectAll, 0x090000000000#48), (.hasMore, 0x0A0000000000#48),
      (.collectByte, 0x130000000000#48), (.collectWord, 0x140000000000#48), (.collectDword, 0x150000000000#48)] →
    (assembleCommand m operands payload = .ok c ↔ operands = [] ∧ payload = none ∧ c = ⟨w, []⟩)) ∧
  (∀ (m : Mnemonic) (op : BitVec 8) (operands : List Nat) (payload : Option (List Nat)) (c : Command),
    (m, op) ∈ [(Mnemonic.createReader, 0x02#8), (.appendBytes, 0x0B#8)] →
    (assembleCommand m operands payload = .ok c ↔ ∃ bytes, operands = [] ∧ payload = some bytes ∧
      (∀ b ∈ bytes, b < 2 ^ 8) ∧ bytes.length < 2 ^ 32 ∧
      c = ⟨packWord op 0#8 (BitVec.ofNat 32 bytes.length), bytes.map (BitVec.ofNat 8)⟩)) ∧
  (∀ (operands : List Nat) (payload : Option (List Nat)) (c : Command),
    assembleCommand .emit operands payload = .ok c ↔ ∃ v n, operands = [v, n] ∧ payload = none ∧
      n ≤ 255 ∧ v < 2 ^ 32 ∧ c = ⟨packWord 0x0C#8 (BitVec.ofNat 8 n) (BitVec.ofNat 32 v), []⟩) ∧
  (∀ (operands : List Nat) (payload : Option (List Nat)) (c : Command),
    assembleCommand .collect operands payload = .ok c ↔ ∃ n, operands = [n] ∧ payload = none ∧
      n ≤ 255 ∧ c = ⟨packWord 0x12#8 (BitVec.ofNat 8 n) 0#32, []⟩) ∧
  (∀ (m : Mnemonic) (op : BitVec 8) (width : Nat) (operands : List Nat) (payload : Option (List Nat)) (c : Command),
    (m, op, width) ∈ [(Mnemonic.emitByte, 0x0D#8, 8), (.emitWord, 0x0E#8, 16), (.emitDword, 0x0F#8, 32),
      (.deconcat, 0x10#8, 32), (.deappend, 0x11#8, 32)] →
    (assembleCommand m operands payload = .ok c ↔ ∃ v, operands = [v] ∧ payload = none ∧
      v < 2 ^ width ∧ c = ⟨packWord op 0#8 (BitVec.ofNat 32 v), []⟩))

/-! ### The step -/

/-- 00_scope R15, 30_encoding R60: a step at a well-formed command pair is the decoded command, run in the state in which
the event is taken and the payload stands in the data-in channel. -/
def Obligations.StepRunsTheDecodedCommand : Prop :=
  ∀ (s : State) (w : CmdWord) (payload : List Byte) (rest : List HostEvent) (i : Instr),
    s.host = .command ⟨w, payload⟩ :: rest → decode w = .ok i → i.payloadWellFormed payload = true →
    step s = exec i (s.accept payload rest)

/-- 30_encoding R64, 93 U14: a pair whose payload is not the one its word calls for has no meaning. That the model says so
by a refusal is its own choice (log entry 11). -/
def Obligations.IllFormedPairsAreRefused : Prop :=
  ∀ (s : State) (w : CmdWord) (payload : List Byte) (rest : List HostEvent) (i : Instr),
    s.host = .command ⟨w, payload⟩ :: rest → decode w = .ok i →
    (if i.mnemonic.form = .p then payload.length ≠ i.arg.toNat else payload ≠ []) →
    step s = .refused .illFormedCommand

/-- 70_reset R155, R159: reset, also during a command, gives `IDLE` with `LEN`, `BYTE_INDEX` and `BIT_OFFSET` 0, no
command in progress and no response; and no step changes the architectural state without a command or reset. -/
def Obligations.ResetGivesTheResetState : Prop :=
  (∀ (s : State) (abandoned : Option Command) (rest : List HostEvent), s.host = .reset abandoned :: rest →
    ∃ t, step s = .next t ∧ t.mode = .idle ∧ t.len = 0 ∧ t.byteIndex = 0 ∧ t.bitOffset = 0 ∧
      t.din = [] ∧ t.rsp = none ∧ t.poisoned = false ∧ t.host = rest ∧ t.cap = s.cap) ∧
  (∀ s t : State, s.host = [] → step s = .next t → t.engine = s.engine)

/-- 10_state R36, R32, R33: the reset state, with any well-formed capacity, satisfies the invariants. The capacity of
`State.reset` and the store's contents are the model's choice (log entries 1 and 6). -/
def Obligations.ResetSatisfiesTheInvariant : Prop :=
  (∀ cap : Capacity, cap.wellFormed = true →
    (State.resetWith cap).Inv ∧ (State.resetWith cap).RspInv ∧ (State.resetWith cap).mode = .idle) ∧
  State.reset.Inv ∧ State.reset.RspInv

/-- 10_state R32, R33, R34, R36, 00_scope R11: every step from a state of the invariant that goes on leads to a state of
the invariant. -/
def Obligations.EveryStepKeepsTheInvariant : Prop :=
  ∀ s t : State, s.Inv → step s = .next t → t.Inv

/-- 30_encoding R70, R71, 60_exceptions R141, R142: the response that stands after a step is well formed. -/
def Obligations.EveryStepLeavesAWellFormedResponse : Prop :=
  ∀ s t : State, s.RspInv → step s = .next t → t.RspInv

/-- 30_encoding R70, 60_exceptions R143, 00_scope R15: from a state of the invariant no step stops the machine with a
fault, and the only refusal is that of an ill-formed pair (log entry 11). That a run also goes on through the undefined
raw extract, and at an illegal word with a payload beside it, is the model's choice (log entries 7 and 10). -/
def Obligations.NoStepFaultsFromTheInvariant : Prop :=
  ∀ s : State, s.Inv →
    (∀ f, step s ≠ .fault f) ∧
    (∀ r, step s = .refused r → r = .illFormedCommand ∧ ∃ c rest i, s.host = .command c :: rest ∧
      decode c.word = .ok i ∧ i.payloadWellFormed c.payload = false)

/-- 30_encoding R70, R75: a command takes one event and leaves exactly one response; every step takes at most one event
and none changes the capacity (00_scope R11). -/
def Obligations.EveryCommandGetsOneResponse : Prop :=
  ∀ s t : State, step s = .next t →
    t.host = s.host.tail ∧ t.cap = s.cap ∧
    (∀ c rest, s.host = .command c :: rest → ∃ r, t.rsp = some r) ∧
    (∀ a rest, s.host = .reset a :: rest → t.rsp = none)

/-- 20_memory R56, 70_reset R156: bytes of the store at and above `LEN` never reach the host. Of two states that differ in
nothing else, where one step is defined it is defined from the other too, with the same response, and leads to states
that again differ in nothing else. The undefined raw extract, the single escape R56 names, is left out. -/
def Obligations.StaleBytesAreNeverObserved : Prop :=
  ∀ s s' t : State, s.Inv → s'.Inv → s.poisoned = false → s.SameValid s' → step s = .next t → t.poisoned = false →
    ∃ t', step s' = .next t' ∧ t.SameValid t' ∧ t'.rsp = t.rsp

/-- 00_scope R11, 20_memory R52, 92 D7: with `CAP` unbounded `CAPACITY_EXCEEDED` never occurs, and a command whose other
checks pass completes and leaves the `LEN` it needs, however large, `2^32` and more among it. -/
def Obligations.UnboundedStoreAlwaysGrows : Prop :=
  (∀ (i : Instr) (s : State), s.Inv → s.poisoned = false → i.payloadWellFormed s.din = true → s.cap = .unbounded →
    firstStatus i s ≠ .capacityExceeded ∧
    (firstStatus i s = .ok → undefinedCond i s = false →
      ∃ t v d, exec i s = .next t ∧ t.rsp = some (Response.okay v d) ∧ (neededLen i s ≠ 0 → t.len = neededLen i s))) ∧
  (∀ (i : Instr) (s t : State) (r : Response), s.cap = .unbounded → exec i s = .next t → t.poisoned = false →
    t.rsp = some r → r.status ≠ .capacityExceeded)

/-! ### Faults -/

/-- 60_exceptions R132 to R138, R140: after decoding, a command reports the first fault condition that holds, in the
order of R140, and `OK` when none holds; a word that does not decode reports `ILLEGAL_COMMAND` before anything else, also
with a payload beside it, which is the model's choice (log entry 10). -/
def Obligations.FirstFaultInPriorityOrder : Prop :=
  (∀ (i : Instr) (s : State), s.Inv → s.poisoned = false → i.payloadWellFormed s.din = true →
    (firstStatus i s = .ok → undefinedCond i s = false) →
    ∃ t r, exec i s = .next t ∧ t.rsp = some r ∧ r.status = firstStatus i s) ∧
  (∀ (s : State) (c : Command) (rest : List HostEvent) (e : DecodeError), s.poisoned = false →
    s.host = .command c :: rest → decode c.word = .error e →
    FaultsWith (step s) .illegalCommand (s.accept c.payload rest)) ∧
  (∀ (i : Instr) (s : State), ¬(overrunCond i s = true ∧ capacityCond i s = true))

/-- 60_exceptions R141, R142: a command that faults changes nothing but the response, which carries the code, no result,
no bytes and the register values; in `IDLE` the triple is (0, 0, 0); on `OK` it is zero. So also for the command as the
host issued it, a malformed word among them: after the fault the engine is ready for the next event. Of a register above
the 32 bits of its field nothing is said (log entry 2). -/
def Obligations.FaultsLeaveNoTrace : Prop :=
  (∀ (i : Instr) (s t : State) (r : Response), exec i s = .next t → t.poisoned = false → t.rsp = some r →
    (r.status ≠ .ok → s.SameButRsp t ∧ r = faultResponse r.status s ∧ r.result = 0#32 ∧ r.dout = [] ∧
      (s.len < 2 ^ 32 → r.diagLen.toNat = s.len) ∧ (s.byteIndex < 2 ^ 32 → r.diagByteIndex.toNat = s.byteIndex) ∧
      r.diagBitOffset.toNat = s.bitOffset.val) ∧
    (r.status ≠ .ok → s.Inv → s.mode = .idle →
      r.diagLen = 0#32 ∧ r.diagByteIndex = 0#32 ∧ r.diagBitOffset = 0#4) ∧
    (r.status = .ok → r.diagLen = 0#32 ∧ r.diagByteIndex = 0#32 ∧ r.diagBitOffset = 0#4)) ∧
  (∀ (s t : State) (c : Command) (rest : List HostEvent) (r : Response), s.host = .command c :: rest →
    step s = .next t → t.poisoned = false → t.rsp = some r → r.status ≠ .ok →
    (s.accept c.payload rest).SameButRsp t ∧ r = faultResponse r.status s)

/-- 60_exceptions R132: `EMIT` and `COLLECT` with `NBITS` 0 or 33 to 255 raise `INVALID_PARAMETER` in every `MODE` and
change nothing, and no other command raises it. -/
def Obligations.InvalidParameterIsRaisedForBadBitCounts : Prop :=
  (∀ (n : BitVec 8) (v : BitVec 32) (s : State), s.poisoned = false → n.toNat = 0 ∨ 33 ≤ n.toNat →
    FaultsWith (exec (.emit n v) s) .invalidParameter s ∧ FaultsWith (exec (.collect n) s) .invalidParameter s) ∧
  (∀ (i : Instr) (s t : State) (r : Response), exec i s = .next t → t.poisoned = false → t.rsp = some r →
    r.status = .invalidParameter →
    ∃ (n : BitVec 8) (v : BitVec 32), (i = .emit n v ∨ i = .collect n) ∧ (n.toNat = 0 ∨ 33 ≤ n.toNat))

/-- 60_exceptions R137: `WRONG_MODE` is raised exactly for a writer-class command outside `WRITER`, a reader-class command
outside `READER`, and a command of both classes in `IDLE` (after the one check that comes before it, R140); commands of
class `any` never raise it. -/
def Obligations.WrongModeIsRaisedByClass : Prop :=
  (∀ (i : Instr) (s : State), s.poisoned = false → i.payloadWellFormed s.din = true → invalidParameterCond i = false →
    (i.mnemonic.capClass = .writer ∧ s.mode ≠ .writer) ∨ (i.mnemonic.capClass = .reader ∧ s.mode ≠ .reader) ∨
      (i.mnemonic.capClass = .both ∧ s.mode = .idle) →
    FaultsWith (exec i s) .wrongMode s) ∧
  (∀ (i : Instr) (s t : State) (r : Response), exec i s = .next t → t.poisoned = false → t.rsp = some r →
    r.status = .wrongMode →
    (i.mnemonic.capClass = .writer ∧ s.mode ≠ .writer) ∨ (i.mnemonic.capClass = .reader ∧ s.mode ≠ .reader) ∨
      (i.mnemonic.capClass = .both ∧ s.mode = .idle))

/-- 60_exceptions R133: `ALIGNMENT_VIOLATION` is raised by the byte-level reads when `BIT_OFFSET` is neither 0 nor 8, by
the raw extracts and `APPEND_BYTES` when it is not 0, and by nothing else: not by `EMIT_BYTE`, `EMIT_WORD` and
`EMIT_DWORD`. -/
def Obligations.AlignmentViolationIsRaisedByTheListed : Prop :=
  (∀ (i : Instr) (s : State), i ∈ [Instr.collectByte, .collectWord, .collectDword] → s.poisoned = false →
    s.mode = .reader → s.bitOffset.val ≠ 0 → s.bitOffset.val ≠ 8 → FaultsWith (exec i s) .alignmentViolation s) ∧
  (∀ (k : BitVec 32) (s : State), s.poisoned = false → s.mode = .reader → s.bitOffset.val ≠ 0 →
    FaultsWith (exec (.deconcat k) s) .alignmentViolation s ∧
    FaultsWith (exec (.deappend k) s) .alignmentViolation s) ∧
  (∀ (k : BitVec 32) (s : State), s.poisoned = false → s.mode = .writer → s.din.length = k.toNat → s.bitOffset.val ≠ 0 →
    FaultsWith (exec (.appendBytes k) s) .alignmentViolation s) ∧
  (∀ (i : Instr) (s t : State) (r : Response), exec i s = .next t → t.poisoned = false → t.rsp = some r →
    r.status = .alignmentViolation →
    (i ∈ [Instr.collectByte, .collectWord, .collectDword] ∧ s.bitOffset.val ≠ 0 ∧ s.bitOffset.val ≠ 8) ∨
    ((∃ k, i = .deconcat k ∨ i = .deappend k ∨ i = .appendBytes k) ∧ s.bitOffset.val ≠ 0))

/-- 60_exceptions R134: `OVERRUN` is raised by the four checked reads when fewer bytes or bits remain than they read, and
by nothing else: by no writer-class command, not by `ALIGN_R`, `COLLECT_ALL`, `DECONCAT` or `DEAPPEND`. -/
def Obligations.OverrunIsRaisedByTheCheckedReads : Prop :=
  (∀ s : State, s.poisoned = false → s.mode = .reader → s.bitOffset.val = 0 ∨ s.bitOffset.val = 8 →
    (s.len ≤ s.byteIndex → FaultsWith (exec .collectByte s) .overrun s) ∧
    (s.len < s.byteIndex + 2 → FaultsWith (exec .collectWord s) .overrun s) ∧
    (s.len < s.byteIndex + 4 → FaultsWith (exec .collectDword s) .overrun s)) ∧
  (∀ (n : BitVec 8) (s : State), s.poisoned = false → s.mode = .reader → 1 ≤ n.toNat → n.toNat ≤ 32 →
    8 * s.len < s.pos + n.toNat → FaultsWith (exec (.collect n) s) .overrun s) ∧
  (∀ (i : Instr) (s t : State) (r : Response), exec i s = .next t → t.poisoned = false → t.rsp = some r →
    r.status = .overrun →
    (i = .collectByte ∧ s.len ≤ s.byteIndex) ∨ (i = .collectWord ∧ s.len < s.byteIndex + 2) ∨
    (i = .collectDword ∧ s.len < s.byteIndex + 4) ∨
    (∃ n, i = .collect n ∧ 8 * s.len < s.pos + n.toNat))

/-- 60_exceptions R138, 20_memory R52: `CAPACITY_EXCEEDED` is raised by the growing commands and `CREATE_READER` when the
whole command would make `LEN > CAP` (after the checks that come before it, R140), before any write; by nothing else, and
never when `CAP` is unbounded. -/
def Obligations.CapacityExceededIsRaisedForTheWholeCommand : Prop :=
  (∀ (i : Instr) (s : State), s.Inv → s.poisoned = false → i.payloadWellFormed s.din = true →
    invalidParameterCond i = false → wrongModeCond i s = false → alignmentCond i s = false →
    capacityCond i s = true → FaultsWith (exec i s) .capacityExceeded s) ∧
  (∀ (i : Instr) (s t : State) (r : Response), s.Inv → exec i s = .next t → t.poisoned = false → t.rsp = some r →
    r.status = .capacityExceeded →
    capacityCond i s = true ∧ s.cap ≠ .unbounded ∧
    ((∃ k, i = .createReader k ∨ i = .appendBytes k) ∨ i = .alignW ∨ (∃ n v, i = .emit n v) ∨
      (∃ v, i = .emitByte v) ∨ (∃ v, i = .emitWord v) ∨ (∃ v, i = .emitDword v)))

/-- 60_exceptions R143: after a fault any command executes exactly as if the faulting command had never been issued. -/
def Obligations.CommandAfterAFaultRunsAsIfAlone : Prop :=
  ∀ (i j : Instr) (s t : State) (r : Response), exec i s = .next t → t.poisoned = false → t.rsp = some r →
    r.status ≠ .ok → exec j t = exec j s

/-- 70_reset R157: in `IDLE` the two constructions execute normally; every other well-formed command faults, `EMIT` and
`COLLECT` with `NBITS` outside 1 to 32 with `INVALID_PARAMETER`, everything else with `WRONG_MODE`; a malformed word
faults with `ILLEGAL_COMMAND`; none changes state, and the `DIAG_*` triple is (0, 0, 0). That a malformed word does so also
with a payload beside it is the model's choice (log entry 10). -/
def Obligations.IdleAdmitsOnlyConstruction : Prop :=
  ∀ s : State, s.Inv → s.mode = .idle →
    (∃ t, exec .createWriter s = .next t ∧ t.mode = .writer ∧ t.rsp = some (Response.okay 0#32 [])) ∧
    (∀ k, s.din.length = k.toNat → capacityAdmits s.cap k.toNat = true →
      ∃ t, exec (.createReader k) s = .next t ∧ t.mode = .reader ∧ t.rsp = some (Response.okay 0#32 [])) ∧
    (∀ i : Instr, i.mnemonic.capClass ≠ .any → i.payloadWellFormed s.din = true →
      ∃ t, exec i s = .next t ∧ s.SameButRsp t ∧
        t.rsp = some ⟨if invalidParameterCond i = true then .invalidParameter else .wrongMode,
          0#32, [], 0#32, 0#32, 0#4⟩) ∧
    (∀ (c : Command) (rest : List HostEvent) (e : DecodeError), s.host = .command c :: rest → decode c.word = .error e →
      ∃ t, step s = .next t ∧ t.engine = s.engine ∧ t.rsp = some ⟨.illegalCommand, 0#32, [], 0#32, 0#32, 0#4⟩)

/-- 60_exceptions R131: the status codes; 0x04 and 0x08 to 0xFF are never returned. -/
def Obligations.StatusCodesAreTheListed : Prop :=
  ∀ st : Status, (st.code = 0x00#8 ↔ st = .ok) ∧ (st.code = 0x01#8 ↔ st = .invalidParameter) ∧
    (st.code = 0x02#8 ↔ st = .alignmentViolation) ∧ (st.code = 0x03#8 ↔ st = .overrun) ∧
    (st.code = 0x05#8 ↔ st = .illegalCommand) ∧ (st.code = 0x06#8 ↔ st = .wrongMode) ∧
    (st.code = 0x07#8 ↔ st = .capacityExceeded) ∧ st.code ≠ 0x04#8 ∧ st.code.toNat < 8

/-! ### Construction, views and accessors -/

/-- 40_construct_and_view R86: `CREATE_WRITER` runs in every `MODE`, also in an undefined run, and leaves a fresh writer;
its `BUFFER` is empty and its `RAWVIEW` is the one staging byte. That bytes outside the valid part keep their value is the
model's choice (log entry 6). -/
def Obligations.CreateWriterStartsAFreshWriter : Prop :=
  ∀ s : State, s.cap.wellFormed = true → Store.wf s.store = true →
    ∃ t, exec .createWriter s = .next t ∧ t.mode = .writer ∧ t.len = 1 ∧ t.byteIndex = 0 ∧ t.bitOffset = 0 ∧
      (∀ a, Store.read t.store a = if a = 0 then 0x00#8 else Store.read s.store a) ∧
      t.rsp = some (Response.okay 0#32 []) ∧ t.poisoned = false ∧
      t.cap = s.cap ∧ t.host = s.host ∧ t.din = s.din ∧ t.freeCount = s.freeCount ∧
      (∃ u, exec .buffer t = .next u ∧ u.rsp = some (Response.okay 0#32 [])) ∧
      (∃ u, exec .rawview t = .next u ∧ u.rsp = some (Response.okay 1#32 [0x00#8]))

/-- 40_construct_and_view R87: `CREATE_READER` runs in every `MODE`, also in an undefined run, and leaves a fresh reader
over a copy of the payload; a payload longer than `CAP` faults and leaves the previous buffer untouched. That bytes outside
the valid part keep their value is the model's choice (log entry 6). -/
def Obligations.CreateReaderLoadsThePayload : Prop :=
  ∀ (k : BitVec 32) (s : State), s.din.length = k.toNat → Store.wf s.store = true →
    (capacityAdmits s.cap k.toNat = true →
      ∃ t, exec (.createReader k) s = .next t ∧ t.mode = .reader ∧ t.len = k.toNat ∧ t.byteIndex = 0 ∧ t.bitOffset = 0 ∧
        (∀ a, Store.read t.store a = if a < k.toNat then s.din.getD a 0x00#8 else Store.read s.store a) ∧
        t.rsp = some (Response.okay 0#32 []) ∧ t.poisoned = false ∧
        t.cap = s.cap ∧ t.host = s.host ∧ t.din = s.din ∧ t.freeCount = s.freeCount) ∧
    (capacityAdmits s.cap k.toNat = false → s.poisoned = false →
      FaultsWith (exec (.createReader k) s) .capacityExceeded s)

/-- 40_construct_and_view R88: the committed-content view leaves out the staging byte exactly at a byte boundary, and
changes nothing. `RESULT` is the number of bytes, where its 32 bits can hold it (log entry 2). -/
def Obligations.BufferReturnsTheCommittedView : Prop :=
  ∀ s : State, s.Inv → s.poisoned = false → s.mode = .writer →
    ∃ t v d, exec .buffer s = .next t ∧ s.SameButRsp t ∧ t.rsp = some (Response.okay v d) ∧
      d = (if s.bitOffset = 0 then s.bytesFrom 0 (s.len - 1) else s.bytesFrom 0 s.len) ∧
      (d.length < 2 ^ 32 → v.toNat = d.length)

/-- 40_construct_and_view R89: the raw view is all `LEN` bytes in either `MODE`, and changes nothing. `RESULT` is `LEN`, where
its 32 bits can hold it (log entry 2). -/
def Obligations.RawviewReturnsAllValidBytes : Prop :=
  ∀ s : State, s.Inv → s.poisoned = false → s.mode ≠ .idle →
    ∃ t v, exec .rawview s = .next t ∧ s.SameButRsp t ∧ t.rsp = some (Response.okay v (s.bytesFrom 0 s.len)) ∧
      (s.len < 2 ^ 32 → v.toNat = s.len)

/-- 40_construct_and_view R90, R91: the position accessors return `BYTE_INDEX`, where the 32 bits of `RESULT` can hold it
(log entry 2), and `BIT_OFFSET`, at most 7, and change nothing. -/
def Obligations.AccessorsReturnTheCursor : Prop :=
  ∀ s : State, s.Inv → s.poisoned = false → s.mode ≠ .idle →
    (∃ t r, exec .getByteIndex s = .next t ∧ s.SameButRsp t ∧ t.rsp = some (Response.okay r []) ∧
      (s.byteIndex < 2 ^ 32 → r.toNat = s.byteIndex)) ∧
    (∃ t r, exec .getBitOffset s = .next t ∧ s.SameButRsp t ∧ t.rsp = some (Response.okay r []) ∧
      r.toNat = s.bitOffset.val ∧ r.toNat ≤ 7)

/-- 20_memory R46: the views, the accessors and `HAS_MORE` change nothing but the response, and are idempotent. -/
def Obligations.ReadOutsChangeNothing : Prop :=
  ∀ (i : Instr) (s t : State), i ∈ [Instr.buffer, .rawview, .getByteIndex, .getBitOffset, .hasMore] →
    s.poisoned = false → exec i s = .next t → s.SameButRsp t ∧ exec i t = .next t

/-! ### Alignment, drain, has-more -/

/-- 41_align_and_drain R95: `ALIGN_W` does nothing at a byte boundary; off it, it moves to the next byte and appends a
zero staging byte, every other byte kept (those outside the valid part by log entry 6); on a full store it faults. -/
def Obligations.AlignWAdvancesToAFreshByte : Prop :=
  ∀ s : State, s.Inv → s.poisoned = false → s.mode = .writer →
    (s.bitOffset = 0 →
      ∃ t, exec .alignW s = .next t ∧ s.SameButRsp t ∧ t.rsp = some (Response.okay 0#32 [])) ∧
    (s.bitOffset ≠ 0 → s.HasRoom 1 →
      ∃ t, exec .alignW s = .next t ∧ s.SameBeside t ∧ t.rsp = some (Response.okay 0#32 []) ∧
        t.len = s.len + 1 ∧ t.byteIndex = s.byteIndex + 1 ∧ t.bitOffset = 0 ∧
        (∀ a, Store.read t.store a = if a = s.len then 0x00#8 else Store.read s.store a) ∧
        t.pos = 8 * ((s.pos + 7) / 8)) ∧
    (s.bitOffset ≠ 0 → capacityAdmits s.cap (s.len + 1) = false →
      FaultsWith (exec .alignW s) .capacityExceeded s)

/-- 41_align_and_drain R96: `ALIGN_R` does nothing at a byte boundary; off it, it moves to the next byte, growing
nothing. -/
def Obligations.AlignRAdvancesWithoutGrowing : Prop :=
  ∀ s : State, s.Inv → s.poisoned = false → s.mode = .reader →
    ∃ t, exec .alignR s = .next t ∧ s.SameBeside t ∧ t.rsp = some (Response.okay 0#32 []) ∧
      t.len = s.len ∧ t.store = s.store ∧ t.bitOffset = 0 ∧
      t.byteIndex = (if s.bitOffset = 0 then s.byteIndex else s.byteIndex + 1) ∧
      t.byteIndex ≤ t.len

/-- 41_align_and_drain R97: `COLLECT_ALL` aligns, returns the bytes from there to the end, and moves no further, so that
it returns the same bytes again. `RESULT` is their number, where its 32 bits can hold it (log entry 2). -/
def Obligations.CollectAllReturnsTheRest : Prop :=
  ∀ s : State, s.Inv → s.poisoned = false → s.mode = .reader →
    ∃ t v, exec .collectAll s = .next t ∧ s.SameBeside t ∧
      t.len = s.len ∧ t.store = s.store ∧ t.bitOffset = 0 ∧
      t.byteIndex = (if s.bitOffset = 0 then s.byteIndex else s.byteIndex + 1) ∧
      t.rsp = some (Response.okay v (s.bytesFrom t.byteIndex (s.len - t.byteIndex))) ∧
      (s.len - t.byteIndex < 2 ^ 32 → v.toNat = s.len - t.byteIndex) ∧
      exec .collectAll t = .next t

/-- 41_align_and_drain R98: `HAS_MORE` answers `BYTE_INDEX + 1 < LEN` and changes nothing; a writer always gets 0. -/
def Obligations.HasMoreAssumesATrailingSentinel : Prop :=
  ∀ s : State, s.Inv → s.poisoned = false → s.mode ≠ .idle →
    ∃ t, exec .hasMore s = .next t ∧ s.SameButRsp t ∧
      t.rsp = some (Response.okay (if s.byteIndex + 1 < s.len then 1#32 else 0#32) []) ∧
      (s.mode = .writer → t.rsp = some (Response.okay 0#32 []))

/-! ### The write path -/

/-- 42_write_path R103: `APPEND_BYTES` puts the payload in place of the staging byte and a fresh zero byte behind it;
misaligned it faults, whatever the payload; without room it faults. Bytes outside the valid part: log entry 6. -/
def Obligations.AppendBytesAddsThePayload : Prop :=
  ∀ (k : BitVec 32) (s : State), s.Inv → s.poisoned = false → s.mode = .writer → s.din.length = k.toNat →
    (s.bitOffset = 0 → s.HasRoom k.toNat →
      ∃ t, exec (.appendBytes k) s = .next t ∧ s.SameBeside t ∧ t.rsp = some (Response.okay 0#32 []) ∧
        t.len = s.len + k.toNat ∧ t.byteIndex = s.byteIndex + k.toNat ∧ t.bitOffset = 0 ∧
        (∀ a, Store.read t.store a =
          if s.byteIndex ≤ a ∧ a < s.byteIndex + k.toNat then s.din.getD (a - s.byteIndex) 0x00#8
          else if a = s.byteIndex + k.toNat then 0x00#8 else Store.read s.store a)) ∧
    (s.bitOffset ≠ 0 → FaultsWith (exec (.appendBytes k) s) .alignmentViolation s) ∧
    (s.bitOffset = 0 → capacityAdmits s.cap (s.len + k.toNat) = false →
      FaultsWith (exec (.appendBytes k) s) .capacityExceeded s)

/-- 42_write_path R105: the closed form of `EMIT`, with its frame, and that two consecutive emits concatenate. That bytes
from the new `LEN` on keep their value is the model's choice (log entry 6). -/
def Obligations.EmitPacksTheLowBitsMsbFirst : Prop :=
  (∀ (n : BitVec 8) (v : BitVec 32) (s : State), s.Inv → s.poisoned = false → s.mode = .writer →
    1 ≤ n.toNat → n.toNat ≤ 32 → s.HasRoom ((s.bitOffset.val + n.toNat) / 8) →
    ∃ t, exec (.emit n v) s = .next t ∧ s.SameBeside t ∧ t.rsp = some (Response.okay 0#32 []) ∧
      (∀ j < n.toNat, t.streamBit (s.pos + j) = (v.toNat % 2 ^ n.toNat).testBit (n.toNat - 1 - j)) ∧
      (∀ p < s.pos, t.streamBit p = s.streamBit p) ∧
      t.pos = s.pos + n.toNat ∧ t.byteIndex = (s.pos + n.toNat) / 8 ∧
      t.bitOffset.val = (s.pos + n.toNat) % 8 ∧ t.len = t.byteIndex + 1 ∧
      (∀ p, s.pos + n.toNat ≤ p → p < 8 * t.len → t.streamBit p = false) ∧
      (∀ a, t.len ≤ a → Store.read t.store a = Store.read s.store a)) ∧
  (∀ (n1 n2 : BitVec 8) (v1 v2 : BitVec 32) (s t u : State), s.Inv → s.poisoned = false → s.mode = .writer →
    1 ≤ n1.toNat → 1 ≤ n2.toNat → n1.toNat + n2.toNat ≤ 32 →
    exec (.emit n1 v1) s = .next t → t.rsp = some (Response.okay 0#32 []) →
    exec (.emit n2 v2) t = .next u → u.rsp = some (Response.okay 0#32 []) →
    exec (.emit (n1 + n2)
      (BitVec.ofNat 32 (((v1.toNat % 2 ^ n1.toNat) <<< n2.toNat) ||| (v2.toNat % 2 ^ n2.toNat)))) s = .next u)

/-- 42_write_path R104, 60_exceptions R132, R138: when `EMIT` faults, and with what: `NBITS` outside 1 to 32 in every
`MODE`, then the `MODE`, then the capacity for the whole command. -/
def Obligations.EmitFaultsBeforeAnyWrite : Prop :=
  ∀ (n : BitVec 8) (v : BitVec 32) (s : State), s.poisoned = false →
    (n.toNat = 0 ∨ 33 ≤ n.toNat → FaultsWith (exec (.emit n v) s) .invalidParameter s) ∧
    (1 ≤ n.toNat → n.toNat ≤ 32 → s.mode ≠ .writer → FaultsWith (exec (.emit n v) s) .wrongMode s) ∧
    (1 ≤ n.toNat → n.toNat ≤ 32 → s.mode = .writer → s.bitOffset.val ≤ 7 →
      capacityAdmits s.cap (s.len + (s.bitOffset.val + n.toNat) / 8) = false →
      FaultsWith (exec (.emit n v) s) .capacityExceeded s)

/-- 42_write_path R106: `EMIT_BYTE` overwrites the byte at the cursor whatever the bit offset, grows by a zero byte, and
leaves the cursor aligned on it; every other byte is kept (those outside the valid part by log entry 6); without room it
faults. -/
def Obligations.EmitByteOverwritesAndGrows : Prop :=
  ∀ (v : BitVec 8) (s : State), s.Inv → s.poisoned = false → s.mode = .writer →
    (s.HasRoom 1 →
      ∃ t, exec (.emitByte v) s = .next t ∧ s.SameBeside t ∧ t.rsp = some (Response.okay 0#32 []) ∧
        t.len = s.len + 1 ∧ t.byteIndex = s.byteIndex + 1 ∧ t.bitOffset = 0 ∧
        (∀ a, Store.read t.store a =
          if a = s.byteIndex then v
          else if a = s.byteIndex + 1 then 0x00#8 else Store.read s.store a)) ∧
    (capacityAdmits s.cap (s.len + 1) = false → FaultsWith (exec (.emitByte v) s) .capacityExceeded s)

/-- 42_write_path R107: `EMIT_WORD` writes the two bytes, most significant first, or none. Bytes outside the valid part: log
entry 6. -/
def Obligations.EmitWordWritesBigEndian : Prop :=
  ∀ (v : BitVec 16) (s : State), s.Inv → s.poisoned = false → s.mode = .writer →
    (s.HasRoom 2 →
      ∃ t, exec (.emitWord v) s = .next t ∧ s.SameBeside t ∧ t.rsp = some (Response.okay 0#32 []) ∧
        t.len = s.len + 2 ∧ t.byteIndex = s.byteIndex + 2 ∧ t.bitOffset = 0 ∧
        (∀ a, (Store.read t.store a).toNat =
          if a = s.byteIndex then v.toNat / 2 ^ 8
          else if a = s.byteIndex + 1 then v.toNat % 2 ^ 8
          else if a = s.byteIndex + 2 then 0 else (Store.read s.store a).toNat)) ∧
    (capacityAdmits s.cap (s.len + 2) = false → FaultsWith (exec (.emitWord v) s) .capacityExceeded s)

/-- 42_write_path R108: `EMIT_DWORD` writes the four bytes, most significant first, or none. Bytes outside the valid part:
log entry 6. -/
def Obligations.EmitDwordWritesBigEndian : Prop :=
  ∀ (v : BitVec 32) (s : State), s.Inv → s.poisoned = false → s.mode = .writer →
    (s.HasRoom 4 →
      ∃ t, exec (.emitDword v) s = .next t ∧ s.SameBeside t ∧ t.rsp = some (Response.okay 0#32 []) ∧
        t.len = s.len + 4 ∧ t.byteIndex = s.byteIndex + 4 ∧ t.bitOffset = 0 ∧
        (∀ a, (Store.read t.store a).toNat =
          if a = s.byteIndex then v.toNat / 2 ^ 24
          else if a = s.byteIndex + 1 then v.toNat / 2 ^ 16 % 2 ^ 8
          else if a = s.byteIndex + 2 then v.toNat / 2 ^ 8 % 2 ^ 8
          else if a = s.byteIndex + 3 then v.toNat % 2 ^ 8
          else if a = s.byteIndex + 4 then 0 else (Store.read s.store a).toNat)) ∧
    (capacityAdmits s.cap (s.len + 4) = false → FaultsWith (exec (.emitDword v) s) .capacityExceeded s)

/-- 42_write_path R109: the relations between the write commands: (a) what coincides at a byte boundary, (b) that it
differs off one, with the spec's example, (c) that the wide commands are compositions of the byte command. -/
def Obligations.WriteCommandsRelateAsListed : Prop :=
  (∀ s : State, s.Inv → s.poisoned = false → s.mode = .writer → s.bitOffset = 0 →
    (∀ x : BitVec 8, exec (.emitByte x) s = exec (.emit 8#8 (x.zeroExtend 32)) s) ∧
    (∀ x : BitVec 16, exec (.emitWord x) s = exec (.emit 16#8 (x.zeroExtend 32)) s) ∧
    (∀ x : BitVec 32, exec (.emitDword x) s = exec (.emit 32#8 x) s) ∧
    (∀ k : BitVec 32, s.din.length = k.toNat → s.HasRoom k.toNat →
      ∃ t u, exec (.appendBytes k) s = .next t ∧ emitByteCommands s.din s = .next u ∧ t.engine = u.engine)) ∧
  (∀ (s t u : State) (x : BitVec 8), s.Inv → s.poisoned = false → s.mode = .writer → s.bitOffset ≠ 0 → s.HasRoom 1 →
    exec (.emit 8#8 (x.zeroExtend 32)) s = .next t → exec (.emitByte x) s = .next u →
    t.bitOffset = s.bitOffset ∧ u.bitOffset = 0 ∧ t.engine ≠ u.engine) ∧
  (∀ s t u : State, s.Inv → s.mode = .writer → s.poisoned = false → s.pos = 3 →
    Store.read s.store 0 = 0xA0#8 → s.HasRoom 1 →
    exec (.emit 8#8 0x0F#32) s = .next t → exec (.emitByte 0x0F#8) s = .next u →
    t.bytesFrom 0 2 = [0xA1#8, 0xE0#8] ∧ t.bitOffset.val = 3 ∧ u.bytesFrom 0 2 = [0x0F#8, 0x00#8] ∧ u.bitOffset = 0) ∧
  (∀ (s t u : State) (x : BitVec 16), s.Inv → s.poisoned = false → s.mode = .writer → s.HasRoom 2 →
    exec (.emitByte (x.extractLsb' 8 8)) s = .next t → exec (.emitByte (x.extractLsb' 0 8)) t = .next u →
    exec (.emitWord x) s = .next u) ∧
  (∀ (s t u : State) (x : BitVec 32), s.Inv → s.poisoned = false → s.mode = .writer → s.HasRoom 4 →
    exec (.emitWord (x.extractLsb' 16 16)) s = .next t → exec (.emitWord (x.extractLsb' 0 16)) t = .next u →
    exec (.emitDword x) s = .next u)

/-- 70_reset R172, 20_memory R52: with a finite capacity of `c` bytes, `EMIT` of `n` bits completes exactly when the bytes
up to the new position and one staging byte fit. -/
def Obligations.EmitNeedsRoomForTheStagingByte : Prop :=
  ∀ (n : BitVec 8) (v : BitVec 32) (c : BitVec 32) (s : State), s.Inv → s.poisoned = false → s.mode = .writer →
    s.cap = .bytes c → 1 ≤ n.toNat → n.toNat ≤ 32 →
    ((∃ t, exec (.emit n v) s = .next t ∧ t.rsp = some (Response.okay 0#32 [])) ↔ (s.pos + n.toNat) / 8 + 1 ≤ c.toNat)

/-! ### The read path -/

/-- 43_read_path R114, R115, R116: inside their domain the raw extracts return the next bytes and move past them;
misaligned they fault, whatever the count; `DECONCAT` and `DEAPPEND` are the same function of the state. -/
def Obligations.RawExtractsReturnTheNextBytes : Prop :=
  ∀ (k : BitVec 32) (s : State),
    (s.Inv → s.poisoned = false → s.mode = .reader → s.bitOffset = 0 →
      s.byteIndex + k.toNat ≤ s.len →
      ∃ t, exec (.deappend k) s = .next t ∧ exec (.deconcat k) s = .next t ∧ s.SameBeside t ∧
        t.rsp = some (Response.okay k (s.bytesFrom s.byteIndex k.toNat)) ∧
        t.len = s.len ∧ t.store = s.store ∧ t.bitOffset = 0 ∧ t.byteIndex = s.byteIndex + k.toNat) ∧
    (s.poisoned = false → s.mode = .reader → s.bitOffset ≠ 0 →
      FaultsWith (exec (.deappend k) s) .alignmentViolation s ∧
      FaultsWith (exec (.deconcat k) s) .alignmentViolation s) ∧
    exec (.deconcat k) s = exec (.deappend k) s

/-- 43_read_path R114 (b), 93 U1: past the end the raw extracts write neither `MODE`, `LEN` nor `STORE`, and mark the run.
That the run then goes on with free values is the model's choice among those U1 allows (log entry 7). -/
def Obligations.RawExtractPastTheEndMarksTheRun : Prop :=
  ∀ (k : BitVec 32) (s : State), s.poisoned = false → s.mode = .reader → s.bitOffset = 0 →
    s.len < s.byteIndex + k.toNat →
    ∃ t, exec (.deappend k) s = .next t ∧ exec (.deconcat k) s = .next t ∧ t.poisoned = true ∧
      t.mode = s.mode ∧ t.len = s.len ∧ t.store = s.store ∧ t.cap = s.cap ∧ t.host = s.host ∧ t.din = s.din

/-- 93 U1, 70_reset R173: a marked run stays marked, its `MODE`, `LEN` and `STORE` unwritten, until `CREATE_WRITER`,
`CREATE_READER` or reset; the model's choice of log entries 7 and 15. -/
def Obligations.MarkedRunLastsUntilCreation : Prop :=
  (∀ (i : Instr) (s t : State), s.poisoned = true → exec i s = .next t → t.poisoned = true →
    t.mode = s.mode ∧ t.len = s.len ∧ t.store = s.store ∧ t.cap = s.cap) ∧
  (∀ (i : Instr) (s t : State), s.poisoned = true → exec i s = .next t → t.poisoned = false →
    i.mnemonic.capClass = .any) ∧
  (∀ s t : State, s.Inv → s.poisoned = true → exec .createWriter s = .next t → t.poisoned = false ∧ t.Inv) ∧
  (∀ (k : BitVec 32) (s t : State), s.Inv → s.poisoned = true → capacityAdmits s.cap k.toNat = true →
    exec (.createReader k) s = .next t → t.poisoned = false ∧ t.Inv)

/-- 43_read_path R118: when `COLLECT` completes, its result as a sum of stream bits, its frame, and that two consecutive
collects concatenate. -/
def Obligations.CollectReadsTheNextBitsMsbFirst : Prop :=
  (∀ (n : BitVec 8) (s : State), s.Inv → s.poisoned = false →
    ((∃ t r, exec (.collect n) s = .next t ∧ t.rsp = some r ∧ r.status = .ok) ↔
      1 ≤ n.toNat ∧ n.toNat ≤ 32 ∧ s.mode = .reader ∧ s.pos + n.toNat ≤ 8 * s.len)) ∧
  (∀ (n : BitVec 8) (s : State), s.Inv → s.poisoned = false → s.mode = .reader →
    1 ≤ n.toNat → n.toNat ≤ 32 → s.pos + n.toNat ≤ 8 * s.len →
    ∃ t v, exec (.collect n) s = .next t ∧ s.SameBeside t ∧ t.rsp = some (Response.okay v []) ∧
      v.toNat = ∑ j ∈ Finset.range n.toNat, (s.streamBit (s.pos + j)).toNat * 2 ^ (n.toNat - 1 - j) ∧
      t.pos = s.pos + n.toNat ∧ t.byteIndex = (s.pos + n.toNat) / 8 ∧
      t.bitOffset.val = (s.pos + n.toNat) % 8 ∧ t.len = s.len ∧ t.store = s.store) ∧
  (∀ (n1 n2 : BitVec 8) (s t u : State) (r1 r2 : Value), s.Inv → s.poisoned = false → s.mode = .reader →
    1 ≤ n1.toNat → 1 ≤ n2.toNat → n1.toNat + n2.toNat ≤ 32 → s.pos + n1.toNat + n2.toNat ≤ 8 * s.len →
    exec (.collect n1) s = .next t → t.rsp = some (Response.okay r1 []) →
    exec (.collect n2) t = .next u → u.rsp = some (Response.okay r2 []) →
    exec (.collect (n1 + n2)) s = .next (u.setRsp (Response.okay ((r1 <<< n2.toNat) ||| r2) [])))

/-- 43_read_path R117, 60_exceptions R132, R134: when `COLLECT` faults, and with what: `NBITS` outside 1 to 32 in every
`MODE`, then the `MODE`, then too few bits, and then nothing moves. -/
def Obligations.CollectFaultsBeforeAnyRead : Prop :=
  ∀ (n : BitVec 8) (s : State), s.poisoned = false →
    (n.toNat = 0 ∨ 33 ≤ n.toNat → FaultsWith (exec (.collect n) s) .invalidParameter s) ∧
    (1 ≤ n.toNat → n.toNat ≤ 32 → s.mode ≠ .reader → FaultsWith (exec (.collect n) s) .wrongMode s) ∧
    (1 ≤ n.toNat → n.toNat ≤ 32 → s.mode = .reader → 8 * s.len < s.pos + n.toNat →
      FaultsWith (exec (.collect n) s) .overrun s)

/-- 43_read_path R119: `COLLECT_BYTE` returns the byte at the cursor and moves one byte, `BIT_OFFSET` not written;
misaligned it faults first, at the end it faults. -/
def Obligations.CollectByteReturnsTheByte : Prop :=
  ∀ s : State, s.Inv → s.poisoned = false → s.mode = .reader →
    (s.bitOffset = 0 → s.byteIndex < s.len →
      ∃ t v, exec .collectByte s = .next t ∧ s.SameBeside t ∧ t.rsp = some (Response.okay v []) ∧
        v.toNat = (Store.read s.store s.byteIndex).toNat ∧ t.len = s.len ∧ t.store = s.store ∧
        t.bitOffset = s.bitOffset ∧ t.byteIndex = s.byteIndex + 1) ∧
    (s.bitOffset ≠ 0 → FaultsWith (exec .collectByte s) .alignmentViolation s) ∧
    (s.bitOffset = 0 → s.len ≤ s.byteIndex → FaultsWith (exec .collectByte s) .overrun s)

/-- 43_read_path R120: `COLLECT_WORD` returns two bytes, most significant first, and moves two bytes, or reports the first
failure and moves nothing. -/
def Obligations.CollectWordIsBigEndianOrNothing : Prop :=
  ∀ s : State, s.Inv → s.poisoned = false → s.mode = .reader →
    (s.bitOffset = 0 → s.byteIndex + 2 ≤ s.len →
      ∃ t v, exec .collectWord s = .next t ∧ s.SameBeside t ∧ t.rsp = some (Response.okay v []) ∧
        v.toNat = (Store.read s.store s.byteIndex).toNat * 2 ^ 8 +
          (Store.read s.store (s.byteIndex + 1)).toNat ∧
        t.len = s.len ∧ t.store = s.store ∧ t.bitOffset = s.bitOffset ∧
        t.byteIndex = s.byteIndex + 2) ∧
    (s.bitOffset ≠ 0 → FaultsWith (exec .collectWord s) .alignmentViolation s) ∧
    (s.bitOffset = 0 → s.len < s.byteIndex + 2 → FaultsWith (exec .collectWord s) .overrun s)

/-- 43_read_path R121: `COLLECT_DWORD` returns four bytes, most significant first, and moves four bytes, or reports the
first failure and moves nothing. -/
def Obligations.CollectDwordIsBigEndianOrNothing : Prop :=
  ∀ s : State, s.Inv → s.poisoned = false → s.mode = .reader →
    (s.bitOffset = 0 → s.byteIndex + 4 ≤ s.len →
      ∃ t v, exec .collectDword s = .next t ∧ s.SameBeside t ∧ t.rsp = some (Response.okay v []) ∧
        v.toNat = (Store.read s.store s.byteIndex).toNat * 2 ^ 24 +
          (Store.read s.store (s.byteIndex + 1)).toNat * 2 ^ 16 +
          (Store.read s.store (s.byteIndex + 2)).toNat * 2 ^ 8 +
          (Store.read s.store (s.byteIndex + 3)).toNat ∧
        t.len = s.len ∧ t.store = s.store ∧ t.bitOffset = s.bitOffset ∧
        t.byteIndex = s.byteIndex + 4) ∧
    (s.bitOffset ≠ 0 → FaultsWith (exec .collectDword s) .alignmentViolation s) ∧
    (s.bitOffset = 0 → s.len < s.byteIndex + 4 → FaultsWith (exec .collectDword s) .overrun s)

/-- 43_read_path R122: the round trip. A writer emits; its `BUFFER` or `RAWVIEW` gives bytes; a reader over these bytes at
the writer's position collects the value back, for the bit-level and the byte-level commands. -/
def Obligations.RoundTripThroughEitherView : Prop :=
  ∀ (s t q r : State) (x : Instr) (b : Response), s.Inv → s.poisoned = false → s.mode = .writer →
    exec x s = .next t → t.rsp = some (Response.okay 0#32 []) →
    (exec .buffer t = .next q ∨ exec .rawview t = .next q) → q.rsp = some b →
    r.Inv → r.poisoned = false → r.mode = .reader → r.len = b.dout.length →
    r.bytesFrom 0 r.len = b.dout → r.pos = s.pos →
    (∀ n v, x = .emit n v → ∃ u y, exec (.collect n) r = .next u ∧ u.rsp = some (Response.okay y []) ∧
      y.toNat = v.toNat % 2 ^ n.toNat) ∧
    (∀ v, x = .emitByte v → s.bitOffset = 0 → ∃ u y, exec .collectByte r = .next u ∧
      u.rsp = some (Response.okay y []) ∧ y.toNat = v.toNat) ∧
    (∀ v, x = .emitWord v → s.bitOffset = 0 → ∃ u y, exec .collectWord r = .next u ∧
      u.rsp = some (Response.okay y []) ∧ y.toNat = v.toNat) ∧
    (∀ v, x = .emitDword v → s.bitOffset = 0 → ∃ u y, exec .collectDword r = .next u ∧
      u.rsp = some (Response.okay y []) ∧ y.toNat = v.toNat)

/-! ### Rules about every command -/

/-- 20_memory R53: the read path, the views and the accessors never grow and never write the store; `CREATE_READER` adds
no staging byte. -/
def Obligations.ReadPathNeverWritesTheStore : Prop :=
  (∀ (i : Instr) (s t : State), i.mnemonic.capClass = .reader ∨ i.mnemonic.capClass = .both → exec i s = .next t →
    t.store = s.store ∧ t.len = s.len) ∧
  (∀ (k : BitVec 32) (s t : State), capacityAdmits s.cap k.toNat = true → exec (.createReader k) s = .next t →
    t.len = k.toNat)

/-- 10_state R21, 60_exceptions R152: only the two constructions write `MODE`, each to its own. -/
def Obligations.OnlyConstructionWritesMode : Prop :=
  ∀ (i : Instr) (s t : State), exec i s = .next t →
    t.mode = s.mode ∨ (i = .createWriter ∧ t.mode = .writer) ∨ (∃ k, i = .createReader k ∧ t.mode = .reader)

/-- 40_construct_and_view R93: in a run that is defined, no command but the constructions moves the stream position
back. -/
def Obligations.StreamPositionNeverMovesBack : Prop :=
  ∀ (i : Instr) (s t : State), s.Inv → t.poisoned = false → i.mnemonic.capClass ≠ .any → exec i s = .next t →
    s.pos ≤ t.pos
end

