-- ==== Sys2Proof/Laws/State.lean ====
section
/-! SUPPORT. One lemma per field per update of the state, so that no proof unfolds a record update. -/

namespace Sys2Proof.Machine

@[simp] theorem State.setMode_mode (s : State) (m : Mode) : (s.setMode m).mode = m := rfl
@[simp] theorem State.setMode_len (s : State) (m : Mode) : (s.setMode m).len = s.len := rfl
@[simp] theorem State.setMode_byteIndex (s : State) (m : Mode) : (s.setMode m).byteIndex = s.byteIndex := rfl
@[simp] theorem State.setMode_bitOffset (s : State) (m : Mode) : (s.setMode m).bitOffset = s.bitOffset := rfl
@[simp] theorem State.setMode_store (s : State) (m : Mode) : (s.setMode m).store = s.store := rfl
@[simp] theorem State.setMode_cap (s : State) (m : Mode) : (s.setMode m).cap = s.cap := rfl
@[simp] theorem State.setMode_host (s : State) (m : Mode) : (s.setMode m).host = s.host := rfl
@[simp] theorem State.setMode_din (s : State) (m : Mode) : (s.setMode m).din = s.din := rfl
@[simp] theorem State.setMode_rsp (s : State) (m : Mode) : (s.setMode m).rsp = s.rsp := rfl
@[simp] theorem State.setMode_poisoned (s : State) (m : Mode) : (s.setMode m).poisoned = s.poisoned := rfl
@[simp] theorem State.setMode_freeCount (s : State) (m : Mode) : (s.setMode m).freeCount = s.freeCount := rfl

@[simp] theorem State.setLen_mode (s : State) (n : Nat) : (s.setLen n).mode = s.mode := rfl
@[simp] theorem State.setLen_len (s : State) (n : Nat) : (s.setLen n).len = n := rfl
@[simp] theorem State.setLen_byteIndex (s : State) (n : Nat) : (s.setLen n).byteIndex = s.byteIndex := rfl
@[simp] theorem State.setLen_bitOffset (s : State) (n : Nat) : (s.setLen n).bitOffset = s.bitOffset := rfl
@[simp] theorem State.setLen_store (s : State) (n : Nat) : (s.setLen n).store = s.store := rfl
@[simp] theorem State.setLen_cap (s : State) (n : Nat) : (s.setLen n).cap = s.cap := rfl
@[simp] theorem State.setLen_host (s : State) (n : Nat) : (s.setLen n).host = s.host := rfl
@[simp] theorem State.setLen_din (s : State) (n : Nat) : (s.setLen n).din = s.din := rfl
@[simp] theorem State.setLen_rsp (s : State) (n : Nat) : (s.setLen n).rsp = s.rsp := rfl
@[simp] theorem State.setLen_poisoned (s : State) (n : Nat) : (s.setLen n).poisoned = s.poisoned := rfl
@[simp] theorem State.setLen_freeCount (s : State) (n : Nat) : (s.setLen n).freeCount = s.freeCount := rfl

@[simp] theorem State.setByteIndex_mode (s : State) (n : Nat) : (s.setByteIndex n).mode = s.mode := rfl
@[simp] theorem State.setByteIndex_len (s : State) (n : Nat) : (s.setByteIndex n).len = s.len := rfl
@[simp] theorem State.setByteIndex_byteIndex (s : State) (n : Nat) : (s.setByteIndex n).byteIndex = n := rfl
@[simp] theorem State.setByteIndex_bitOffset (s : State) (n : Nat) : (s.setByteIndex n).bitOffset = s.bitOffset := rfl
@[simp] theorem State.setByteIndex_store (s : State) (n : Nat) : (s.setByteIndex n).store = s.store := rfl
@[simp] theorem State.setByteIndex_cap (s : State) (n : Nat) : (s.setByteIndex n).cap = s.cap := rfl
@[simp] theorem State.setByteIndex_host (s : State) (n : Nat) : (s.setByteIndex n).host = s.host := rfl
@[simp] theorem State.setByteIndex_din (s : State) (n : Nat) : (s.setByteIndex n).din = s.din := rfl
@[simp] theorem State.setByteIndex_rsp (s : State) (n : Nat) : (s.setByteIndex n).rsp = s.rsp := rfl
@[simp] theorem State.setByteIndex_poisoned (s : State) (n : Nat) : (s.setByteIndex n).poisoned = s.poisoned := rfl
@[simp] theorem State.setByteIndex_freeCount (s : State) (n : Nat) : (s.setByteIndex n).freeCount = s.freeCount := rfl

@[simp] theorem State.setBitOffset_mode (s : State) (b : BitOffset) : (s.setBitOffset b).mode = s.mode := rfl
@[simp] theorem State.setBitOffset_len (s : State) (b : BitOffset) : (s.setBitOffset b).len = s.len := rfl
@[simp] theorem State.setBitOffset_byteIndex (s : State) (b : BitOffset) : (s.setBitOffset b).byteIndex = s.byteIndex := rfl
@[simp] theorem State.setBitOffset_bitOffset (s : State) (b : BitOffset) : (s.setBitOffset b).bitOffset = b := rfl
@[simp] theorem State.setBitOffset_store (s : State) (b : BitOffset) : (s.setBitOffset b).store = s.store := rfl
@[simp] theorem State.setBitOffset_cap (s : State) (b : BitOffset) : (s.setBitOffset b).cap = s.cap := rfl
@[simp] theorem State.setBitOffset_host (s : State) (b : BitOffset) : (s.setBitOffset b).host = s.host := rfl
@[simp] theorem State.setBitOffset_din (s : State) (b : BitOffset) : (s.setBitOffset b).din = s.din := rfl
@[simp] theorem State.setBitOffset_rsp (s : State) (b : BitOffset) : (s.setBitOffset b).rsp = s.rsp := rfl
@[simp] theorem State.setBitOffset_poisoned (s : State) (b : BitOffset) : (s.setBitOffset b).poisoned = s.poisoned := rfl
@[simp] theorem State.setBitOffset_freeCount (s : State) (b : BitOffset) : (s.setBitOffset b).freeCount = s.freeCount := rfl

@[simp] theorem State.setStore_mode (s : State) (m : Store) : (s.setStore m).mode = s.mode := rfl
@[simp] theorem State.setStore_len (s : State) (m : Store) : (s.setStore m).len = s.len := rfl
@[simp] theorem State.setStore_byteIndex (s : State) (m : Store) : (s.setStore m).byteIndex = s.byteIndex := rfl
@[simp] theorem State.setStore_bitOffset (s : State) (m : Store) : (s.setStore m).bitOffset = s.bitOffset := rfl
@[simp] theorem State.setStore_store (s : State) (m : Store) : (s.setStore m).store = m := rfl
@[simp] theorem State.setStore_cap (s : State) (m : Store) : (s.setStore m).cap = s.cap := rfl
@[simp] theorem State.setStore_host (s : State) (m : Store) : (s.setStore m).host = s.host := rfl
@[simp] theorem State.setStore_din (s : State) (m : Store) : (s.setStore m).din = s.din := rfl
@[simp] theorem State.setStore_rsp (s : State) (m : Store) : (s.setStore m).rsp = s.rsp := rfl
@[simp] theorem State.setStore_poisoned (s : State) (m : Store) : (s.setStore m).poisoned = s.poisoned := rfl
@[simp] theorem State.setStore_freeCount (s : State) (m : Store) : (s.setStore m).freeCount = s.freeCount := rfl

@[simp] theorem State.setRsp_mode (s : State) (r : Response) : (s.setRsp r).mode = s.mode := rfl
@[simp] theorem State.setRsp_len (s : State) (r : Response) : (s.setRsp r).len = s.len := rfl
@[simp] theorem State.setRsp_byteIndex (s : State) (r : Response) : (s.setRsp r).byteIndex = s.byteIndex := rfl
@[simp] theorem State.setRsp_bitOffset (s : State) (r : Response) : (s.setRsp r).bitOffset = s.bitOffset := rfl
@[simp] theorem State.setRsp_store (s : State) (r : Response) : (s.setRsp r).store = s.store := rfl
@[simp] theorem State.setRsp_cap (s : State) (r : Response) : (s.setRsp r).cap = s.cap := rfl
@[simp] theorem State.setRsp_host (s : State) (r : Response) : (s.setRsp r).host = s.host := rfl
@[simp] theorem State.setRsp_din (s : State) (r : Response) : (s.setRsp r).din = s.din := rfl
@[simp] theorem State.setRsp_rsp (s : State) (r : Response) : (s.setRsp r).rsp = some r := rfl
@[simp] theorem State.setRsp_poisoned (s : State) (r : Response) : (s.setRsp r).poisoned = s.poisoned := rfl
@[simp] theorem State.setRsp_freeCount (s : State) (r : Response) : (s.setRsp r).freeCount = s.freeCount := rfl

@[simp] theorem State.setDefined_mode (s : State) : s.setDefined.mode = s.mode := rfl
@[simp] theorem State.setDefined_len (s : State) : s.setDefined.len = s.len := rfl
@[simp] theorem State.setDefined_byteIndex (s : State) : s.setDefined.byteIndex = s.byteIndex := rfl
@[simp] theorem State.setDefined_bitOffset (s : State) : s.setDefined.bitOffset = s.bitOffset := rfl
@[simp] theorem State.setDefined_store (s : State) : s.setDefined.store = s.store := rfl
@[simp] theorem State.setDefined_cap (s : State) : s.setDefined.cap = s.cap := rfl
@[simp] theorem State.setDefined_host (s : State) : s.setDefined.host = s.host := rfl
@[simp] theorem State.setDefined_din (s : State) : s.setDefined.din = s.din := rfl
@[simp] theorem State.setDefined_rsp (s : State) : s.setDefined.rsp = s.rsp := rfl
@[simp] theorem State.setDefined_poisoned (s : State) : s.setDefined.poisoned = false := rfl
@[simp] theorem State.setDefined_freeCount (s : State) : s.setDefined.freeCount = s.freeCount := rfl

@[simp] theorem State.rewind_mode (s : State) : s.rewind.mode = s.mode := rfl
@[simp] theorem State.rewind_len (s : State) : s.rewind.len = s.len := rfl
@[simp] theorem State.rewind_byteIndex (s : State) : s.rewind.byteIndex = 0 := rfl
@[simp] theorem State.rewind_bitOffset (s : State) : s.rewind.bitOffset = 0 := rfl
@[simp] theorem State.rewind_store (s : State) : s.rewind.store = s.store := rfl
@[simp] theorem State.rewind_cap (s : State) : s.rewind.cap = s.cap := rfl
@[simp] theorem State.rewind_host (s : State) : s.rewind.host = s.host := rfl
@[simp] theorem State.rewind_din (s : State) : s.rewind.din = s.din := rfl
@[simp] theorem State.rewind_rsp (s : State) : s.rewind.rsp = s.rsp := rfl
@[simp] theorem State.rewind_poisoned (s : State) : s.rewind.poisoned = s.poisoned := rfl
@[simp] theorem State.rewind_freeCount (s : State) : s.rewind.freeCount = s.freeCount := rfl

@[simp] theorem State.poison_mode (s : State) : s.poison.mode = s.mode := rfl
@[simp] theorem State.poison_len (s : State) : s.poison.len = s.len := rfl
@[simp] theorem State.poison_byteIndex (s : State) : s.poison.byteIndex = Config.freeByteIndex s.freeCount := rfl
@[simp] theorem State.poison_bitOffset (s : State) : s.poison.bitOffset = Config.freeBitOffset s.freeCount := rfl
@[simp] theorem State.poison_store (s : State) : s.poison.store = s.store := rfl
@[simp] theorem State.poison_cap (s : State) : s.poison.cap = s.cap := rfl
@[simp] theorem State.poison_host (s : State) : s.poison.host = s.host := rfl
@[simp] theorem State.poison_din (s : State) : s.poison.din = s.din := rfl
@[simp] theorem State.poison_rsp (s : State) : s.poison.rsp = some (Config.freeResponse s.freeCount) := rfl
@[simp] theorem State.poison_poisoned (s : State) : s.poison.poisoned = true := rfl
@[simp] theorem State.poison_freeCount (s : State) : s.poison.freeCount = s.freeCount + 1 := rfl

@[simp] theorem State.accept_mode (s : State) (p : List Byte) (rest : List HostEvent) : (s.accept p rest).mode = s.mode := rfl
@[simp] theorem State.accept_len (s : State) (p : List Byte) (rest : List HostEvent) : (s.accept p rest).len = s.len := rfl
@[simp] theorem State.accept_byteIndex (s : State) (p : List Byte) (rest : List HostEvent) : (s.accept p rest).byteIndex = s.byteIndex := rfl
@[simp] theorem State.accept_bitOffset (s : State) (p : List Byte) (rest : List HostEvent) : (s.accept p rest).bitOffset = s.bitOffset := rfl
@[simp] theorem State.accept_store (s : State) (p : List Byte) (rest : List HostEvent) : (s.accept p rest).store = s.store := rfl
@[simp] theorem State.accept_cap (s : State) (p : List Byte) (rest : List HostEvent) : (s.accept p rest).cap = s.cap := rfl
@[simp] theorem State.accept_host (s : State) (p : List Byte) (rest : List HostEvent) : (s.accept p rest).host = rest := rfl
@[simp] theorem State.accept_din (s : State) (p : List Byte) (rest : List HostEvent) : (s.accept p rest).din = p := rfl
@[simp] theorem State.accept_rsp (s : State) (p : List Byte) (rest : List HostEvent) : (s.accept p rest).rsp = s.rsp := rfl
@[simp] theorem State.accept_poisoned (s : State) (p : List Byte) (rest : List HostEvent) : (s.accept p rest).poisoned = s.poisoned := rfl
@[simp] theorem State.accept_freeCount (s : State) (p : List Byte) (rest : List HostEvent) : (s.accept p rest).freeCount = s.freeCount := rfl

@[simp] theorem State.assertReset_mode (s : State) (rest : List HostEvent) : (s.assertReset rest).mode = .idle := rfl
@[simp] theorem State.assertReset_len (s : State) (rest : List HostEvent) : (s.assertReset rest).len = 0 := rfl
@[simp] theorem State.assertReset_byteIndex (s : State) (rest : List HostEvent) : (s.assertReset rest).byteIndex = 0 := rfl
@[simp] theorem State.assertReset_bitOffset (s : State) (rest : List HostEvent) : (s.assertReset rest).bitOffset = 0 := rfl
@[simp] theorem State.assertReset_store (s : State) (rest : List HostEvent) : (s.assertReset rest).store = [] := rfl
@[simp] theorem State.assertReset_cap (s : State) (rest : List HostEvent) : (s.assertReset rest).cap = s.cap := rfl
@[simp] theorem State.assertReset_host (s : State) (rest : List HostEvent) : (s.assertReset rest).host = rest := rfl
@[simp] theorem State.assertReset_din (s : State) (rest : List HostEvent) : (s.assertReset rest).din = [] := rfl
@[simp] theorem State.assertReset_rsp (s : State) (rest : List HostEvent) : (s.assertReset rest).rsp = none := rfl
@[simp] theorem State.assertReset_poisoned (s : State) (rest : List HostEvent) : (s.assertReset rest).poisoned = false := rfl
@[simp] theorem State.assertReset_freeCount (s : State) (rest : List HostEvent) : (s.assertReset rest).freeCount = s.freeCount := rfl

@[simp] theorem State.present_mode (s : State) (c : Command) : (s.present c).mode = s.mode := rfl
@[simp] theorem State.present_len (s : State) (c : Command) : (s.present c).len = s.len := rfl
@[simp] theorem State.present_byteIndex (s : State) (c : Command) : (s.present c).byteIndex = s.byteIndex := rfl
@[simp] theorem State.present_bitOffset (s : State) (c : Command) : (s.present c).bitOffset = s.bitOffset := rfl
@[simp] theorem State.present_store (s : State) (c : Command) : (s.present c).store = s.store := rfl
@[simp] theorem State.present_cap (s : State) (c : Command) : (s.present c).cap = s.cap := rfl
@[simp] theorem State.present_host (s : State) (c : Command) : (s.present c).host = .command c :: s.host := rfl
@[simp] theorem State.present_din (s : State) (c : Command) : (s.present c).din = s.din := rfl
@[simp] theorem State.present_rsp (s : State) (c : Command) : (s.present c).rsp = s.rsp := rfl
@[simp] theorem State.present_poisoned (s : State) (c : Command) : (s.present c).poisoned = s.poisoned := rfl
@[simp] theorem State.present_freeCount (s : State) (c : Command) : (s.present c).freeCount = s.freeCount := rfl

@[simp] theorem State.advance_mode (s : State) (n : Nat) : (advance s n).mode = s.mode := rfl
@[simp] theorem State.advance_len (s : State) (n : Nat) : (advance s n).len = s.len := rfl
@[simp] theorem State.advance_byteIndex (s : State) (n : Nat) : (advance s n).byteIndex = s.byteIndex + n := rfl
@[simp] theorem State.advance_bitOffset (s : State) (n : Nat) : (advance s n).bitOffset = s.bitOffset := rfl
@[simp] theorem State.advance_store (s : State) (n : Nat) : (advance s n).store = s.store := rfl
@[simp] theorem State.advance_cap (s : State) (n : Nat) : (advance s n).cap = s.cap := rfl
@[simp] theorem State.advance_host (s : State) (n : Nat) : (advance s n).host = s.host := rfl
@[simp] theorem State.advance_din (s : State) (n : Nat) : (advance s n).din = s.din := rfl
@[simp] theorem State.advance_rsp (s : State) (n : Nat) : (advance s n).rsp = s.rsp := rfl
@[simp] theorem State.advance_poisoned (s : State) (n : Nat) : (advance s n).poisoned = s.poisoned := rfl
@[simp] theorem State.advance_freeCount (s : State) (n : Nat) : (advance s n).freeCount = s.freeCount := rfl

/-- `BIT_OFFSET + 1` below the sentinel. -/
theorem State.nextBit_bitOffset_val (s : State) (h : s.bitOffset.val ≤ 7) :
    s.nextBit.bitOffset.val = s.bitOffset.val + 1 := by
  simp only [State.nextBit, State.setBitOffset_bitOffset]; omega

@[simp] theorem State.nextBit_mode (s : State) : s.nextBit.mode = s.mode := rfl
@[simp] theorem State.nextBit_len (s : State) : s.nextBit.len = s.len := rfl
@[simp] theorem State.nextBit_byteIndex (s : State) : s.nextBit.byteIndex = s.byteIndex := rfl
@[simp] theorem State.nextBit_store (s : State) : s.nextBit.store = s.store := rfl
@[simp] theorem State.nextBit_cap (s : State) : s.nextBit.cap = s.cap := rfl
@[simp] theorem State.nextBit_host (s : State) : s.nextBit.host = s.host := rfl
@[simp] theorem State.nextBit_din (s : State) : s.nextBit.din = s.din := rfl
@[simp] theorem State.nextBit_rsp (s : State) : s.nextBit.rsp = s.rsp := rfl
@[simp] theorem State.nextBit_poisoned (s : State) : s.nextBit.poisoned = s.poisoned := rfl
@[simp] theorem State.nextBit_freeCount (s : State) : s.nextBit.freeCount = s.freeCount := rfl

@[simp] theorem State.engine_mode (s : State) : s.engine.mode = s.mode := rfl
@[simp] theorem State.engine_len (s : State) : s.engine.len = s.len := rfl
@[simp] theorem State.engine_byteIndex (s : State) : s.engine.byteIndex = s.byteIndex := rfl
@[simp] theorem State.engine_bitOffset (s : State) : s.engine.bitOffset = s.bitOffset := rfl
@[simp] theorem State.engine_store (s : State) : s.engine.store = s.store := rfl

/-- Two states have the same architectural part when the five items agree (10_state R20). -/
theorem State.engine_eq_iff (s t : State) : t.engine = s.engine ↔
    t.mode = s.mode ∧ t.len = s.len ∧ t.byteIndex = s.byteIndex ∧ t.bitOffset = s.bitOffset ∧ t.store = s.store := by
  simp only [State.engine, Engine.mk.injEq]

@[simp] theorem State.setRsp_engine (s : State) (r : Response) : (s.setRsp r).engine = s.engine := rfl
@[simp] theorem State.accept_engine (s : State) (p : List Byte) (rest : List HostEvent) :
    (s.accept p rest).engine = s.engine := rfl
@[simp] theorem State.present_engine (s : State) (c : Command) : (s.present c).engine = s.engine := rfl

end Sys2Proof.Machine
end

