-- ==== Sys2Proof/Laws/Store.lean ====
section
/-! SUPPORT. The laws of the byte store: read after write, the canonical form, and equality of canonical stores. -/

namespace Sys2Proof.Machine

@[simp] theorem Store.read_nil (i : Nat) : Store.read [] i = Config.unwrittenByte := rfl

theorem Store.read_cons (a : Nat) (v : Byte) (m : Store) (i : Nat) :
    Store.read ((a, v) :: m) i = if a = i then v else Store.read m i := rfl

theorem Store.wf_cons (a : Nat) (v : Byte) (m : Store) : Store.wf ((a, v) :: m) = true ↔
    v ≠ Config.unwrittenByte ∧ (∀ c ∈ m, a < c.1) ∧ Store.wf m = true := by
  simp [Store.wf, and_assoc]

/-- An index below every listed index reads as an unlisted one. -/
theorem Store.read_below (m : Store) (i : Nat) (h : ∀ c ∈ m, i < c.1) :
    Store.read m i = Config.unwrittenByte := by
  induction m with
  | nil => rfl
  | cons c m ih =>
    obtain ⟨a, v⟩ := c
    have ha : i < a := h (a, v) (by simp)
    rw [Store.read_cons, if_neg (by omega), ih fun c hc => h c (by simp [hc])]

/-- A listed index in a canonical store does not read as an unlisted one. -/
theorem Store.read_ne_of_mem (m : Store) (hw : Store.wf m = true) (c : Host.Cell) (hc : c ∈ m) :
    Store.read m c.1 ≠ Config.unwrittenByte := by
  induction m with
  | nil => simp at hc
  | cons d m ih =>
    obtain ⟨a, v⟩ := d
    obtain ⟨hv, hlt, hm⟩ := (Store.wf_cons a v m).mp hw
    rw [Store.read_cons]
    rcases List.mem_cons.mp hc with rfl | hc
    · simpa using hv
    · have := hlt c hc
      rw [if_neg (by omega)]
      exact ih hm hc

theorem Store.read_storeCons (i : Nat) (v : Byte) (m : Store) (j : Nat) (h : ∀ c ∈ m, i < c.1) :
    Store.read (Store.cons i v m) j = if i = j then v else Store.read m j := by
  unfold Store.cons
  split
  · rename_i hv
    subst hv
    split
    · rename_i hij
      subst hij
      exact Store.read_below m i h
    · rfl
  · exact Store.read_cons i v m j

/-- READ AFTER WRITE, at every index of a canonical store. -/
theorem Store.read_write (m : Store) (hw : Store.wf m = true) (i : Nat) (v : Byte) (j : Nat) :
    Store.read (Store.write m i v) j = if i = j then v else Store.read m j := by
  induction m with
  | nil => exact Store.read_storeCons i v [] j (by simp)
  | cons c m ih =>
    obtain ⟨a, w⟩ := c
    obtain ⟨_, hlt, hm⟩ := (Store.wf_cons a w m).mp hw
    unfold Store.write
    split
    · rename_i hia
      apply Store.read_storeCons
      intro c hc
      rcases List.mem_cons.mp hc with rfl | hc
      · exact hia
      · have := hlt c hc
        omega
    · split
      · rename_i _ hia
        subst hia
        rw [Store.read_storeCons i v m j hlt, Store.read_cons]
        split <;> rfl
      · rename_i h1 h2
        rw [Store.read_cons, Store.read_cons, ih hm]
        by_cases haj : a = j
        · subst haj
          rw [if_pos rfl, if_neg h2, if_pos rfl]
        · rw [if_neg haj, if_neg haj]

/-- Every listed index after a write is the written one or was listed before. -/
theorem Store.mem_write (m : Store) (i : Nat) (v : Byte) (c : Host.Cell) (hc : c ∈ Store.write m i v) :
    c.1 = i ∨ c ∈ m := by
  have hcons : ∀ m' : Store, c ∈ Store.cons i v m' → c.1 = i ∨ c ∈ m' := by
    intro m' h
    unfold Store.cons at h
    split at h
    · exact .inr h
    · rcases List.mem_cons.mp h with rfl | h
      · exact .inl rfl
      · exact .inr h
  induction m with
  | nil => exact hcons [] hc
  | cons d m ih =>
    obtain ⟨a, w⟩ := d
    unfold Store.write at hc
    split at hc
    · exact hcons _ hc
    · split at hc
      · exact (hcons _ hc).imp id fun h => List.mem_cons_of_mem _ h
      · rcases List.mem_cons.mp hc with rfl | hc
        · exact .inr (by simp)
        · exact (ih hc).imp id fun h => List.mem_cons_of_mem _ h

theorem Store.wf_storeCons (i : Nat) (v : Byte) (m : Store) (hw : Store.wf m = true) (h : ∀ c ∈ m, i < c.1) :
    Store.wf (Store.cons i v m) = true := by
  unfold Store.cons
  split
  · exact hw
  · rename_i hv
    exact (Store.wf_cons i v m).mpr ⟨hv, h, hw⟩

/-- A write keeps the canonical form. -/
theorem Store.wf_write (m : Store) (hw : Store.wf m = true) (i : Nat) (v : Byte) :
    Store.wf (Store.write m i v) = true := by
  induction m with
  | nil => exact Store.wf_storeCons i v [] rfl (by simp)
  | cons c m ih =>
    obtain ⟨a, w⟩ := c
    obtain ⟨hv, hlt, hm⟩ := (Store.wf_cons a w m).mp hw
    unfold Store.write
    split
    · rename_i hia
      apply Store.wf_storeCons _ _ _ hw
      intro c hc
      rcases List.mem_cons.mp hc with rfl | hc
      · exact hia
      · have := hlt c hc
        omega
    · split
      · rename_i _ hia
        subst hia
        exact Store.wf_storeCons i v m hm hlt
      · rename_i h1 h2
        refine (Store.wf_cons a w _).mpr ⟨hv, fun c hc => ?_, ih hm⟩
        rcases Store.mem_write m i v c hc with h | h
        · omega
        · exact hlt c h

/-- Canonical stores that read the same at every index are the same list. -/
theorem Store.ext_of_read (m n : Store) (hm : Store.wf m = true) (hn : Store.wf n = true)
    (h : ∀ i, Store.read m i = Store.read n i) : m = n := by
  induction m generalizing n with
  | nil =>
    cases n with
    | nil => rfl
    | cons d n =>
      exact absurd (h d.1).symm (Store.read_ne_of_mem _ hn d (by simp))
  | cons c m ih =>
    obtain ⟨a, v⟩ := c
    cases n with
    | nil => exact absurd (h a) (Store.read_ne_of_mem _ hm (a, v) (by simp))
    | cons d n =>
      obtain ⟨b, w⟩ := d
      obtain ⟨hv, hlt, hm'⟩ := (Store.wf_cons a v m).mp hm
      obtain ⟨hw, hlt', hn'⟩ := (Store.wf_cons b w n).mp hn
      have hab : a = b := by
        by_contra hne
        rcases Nat.lt_or_gt_of_ne hne with hlt₁ | hlt₁
        · have := h a
          rw [Store.read_cons, if_pos rfl, Store.read_below _ a] at this
          · exact hv this
          · intro c hc
            rcases List.mem_cons.mp hc with rfl | hc
            · exact hlt₁
            · have := hlt' c hc
              omega
        · have := h b
          rw [Store.read_cons (i := b) (a := b), if_pos rfl, Store.read_below _ b] at this
          · exact hw this.symm
          · intro c hc
            rcases List.mem_cons.mp hc with rfl | hc
            · exact hlt₁
            · have := hlt c hc
              omega
      subst hab
      have hvw : v = w := by simpa [Store.read_cons] using h a
      subst hvw
      congr 1
      refine ih n hm' hn' fun i => ?_
      by_cases hai : a = i
      · subst hai
        rw [Store.read_below m a hlt, Store.read_below n a hlt']
      · simpa [Store.read_cons, hai] using h i

end Sys2Proof.Machine
end

