-- ==== Sys2Proof/Laws/Ops.lean ====
section
/-! SUPPORT. For each shared operation, once, everything it can do: what it answers when it answers, and when it does. -/

namespace Sys2Proof.Machine

/-- A guarded answer answers exactly its one value, where the guard holds. -/
theorem ite_some_eq_some {α : Type} (c : Prop) [Decidable c] (x t : α) :
    (if c then some x else none) = some t ↔ c ∧ t = x := by
  by_cases h : c <;> simp [h, eq_comm]

/-! ### Conditions -/

theorem capacityAdmits_mono (c : Capacity) (m n : Nat) (h : m ≤ n) (hn : capacityAdmits c n = true) :
    capacityAdmits c m = true := by
  cases c with
  | bytes b => simp only [capacityAdmits, decide_eq_true_eq] at hn ⊢; omega
  | unbounded => rfl

theorem State.indexValid_lt (s : State) (a : Nat) (h : s.indexValid a = true) : a < s.len := by
  simp only [State.indexValid, Bool.and_eq_true, decide_eq_true_eq] at h
  exact h.1

/-- Where the valid bytes fit the capacity, an index is valid exactly below `LEN`. -/
theorem State.indexValid_iff (s : State) (a : Nat) (hc : capacityAdmits s.cap s.len = true) :
    s.indexValid a = true ↔ a < s.len := by
  refine ⟨s.indexValid_lt a, fun h => ?_⟩
  simp only [State.indexValid, Bool.and_eq_true, decide_eq_true_eq]
  exact ⟨h, capacityAdmits_mono s.cap (a + 1) s.len (by omega) hc⟩

theorem State.aligned0_iff (s : State) : s.aligned0 = true ↔ s.bitOffset = 0 := by
  simp only [State.aligned0, beq_iff_eq, Fin.ext_iff]; rfl

theorem State.aligned08_iff (s : State) : s.aligned08 = true ↔ s.bitOffset.val = 0 ∨ s.bitOffset.val = 8 := by
  simp only [State.aligned08, Bool.or_eq_true, beq_iff_eq]

/-! ### Registers -/

/-- An index that fits its 32-bit field is reported as it is (00_scope R10, 30_encoding R71). -/
theorem indexField_toNat (n : Nat) (h : n < 2 ^ 32) : (indexField n).toNat = n := by
  rw [indexField, if_pos h, BitVec.toNat_ofNat, Nat.mod_eq_of_lt h]

/-- A count that came in a 32-bit operand is reported as that operand. -/
theorem indexField_toNat_operand (k : BitVec 32) : indexField k.toNat = k :=
  BitVec.eq_of_toNat_eq (indexField_toNat _ k.isLt)

theorem lastIndex_eq_some (s : State) (n : Nat) : lastIndex s = some n ↔ s.len = n + 1 := by
  unfold lastIndex
  split <;> simp <;> omega

theorem remaining_eq_some (s : State) (n : Nat) : remaining s = some n ↔ s.byteIndex + n = s.len := by
  unfold remaining
  split <;> simp <;> omega

/-! ### Reading the store -/

theorem memRead_eq_some (s : State) (a : Nat) (b : Byte) :
    memRead s a = some b ↔ s.indexValid a = true ∧ b = Store.read s.store a :=
  ite_some_eq_some _ _ b

theorem memRead_of_lt (s : State) (a : Nat) (hc : capacityAdmits s.cap s.len = true) (h : a < s.len) :
    memRead s a = some (Store.read s.store a) :=
  (memRead_eq_some s a _).mpr ⟨(s.indexValid_iff a hc).mpr h, rfl⟩

/-- `MemRead(a, n)` answers the `n` bytes from `a` on, where the last of them is valid. -/
theorem memReadRun_eq (s : State) (hc : capacityAdmits s.cap s.len = true) (a n : Nat) (h : a + n ≤ s.len) :
    memReadRun s a n = some ((List.range n).map fun i => Store.read s.store (a + i)) := by
  induction n generalizing a with
  | zero => rfl
  | succ n ih =>
    rw [memReadRun, memRead_of_lt s a hc (by omega), Option.bind_some, ih (a + 1) (by omega), Option.map_some,
      List.range_succ_eq_map]
    simp only [List.map_cons, List.map_map, Nat.add_zero]
    congr 3
    funext i
    simp only [Function.comp]
    congr 1
    omega

theorem memReadRun_eq_some (s : State) (a n : Nat) (d : List Byte) (h : memReadRun s a n = some d) :
    d = (List.range n).map fun i => Store.read s.store (a + i) := by
  induction n generalizing a d with
  | zero => simpa [memReadRun] using h.symm
  | succ n ih =>
    rw [memReadRun, Option.bind_eq_some_iff] at h
    obtain ⟨b, hb, h⟩ := h
    rw [Option.map_eq_some_iff] at h
    obtain ⟨r, hr, rfl⟩ := h
    rw [ih (a + 1) r hr, ((memRead_eq_some s a b).mp hb).2, List.range_succ_eq_map]
    simp only [List.map_cons, List.map_map, Nat.add_zero]
    congr 1
    apply List.map_congr_left
    intro i _
    simp only [Function.comp]
    congr 1
    omega

/-! ### Writing the store -/

theorem memWrite_eq_some (s t : State) (a : Nat) (v : Byte) :
    memWrite s a v = some t ↔ s.indexValid a = true ∧ t = s.setStore (Store.write s.store a v) :=
  ite_some_eq_some _ _ t

theorem memWrite_of_lt (s : State) (a : Nat) (v : Byte) (hc : capacityAdmits s.cap s.len = true)
    (h : a < s.len) : memWrite s a v = some (s.setStore (Store.write s.store a v)) :=
  (memWrite_eq_some s _ a v).mpr ⟨(s.indexValid_iff a hc).mpr h, rfl⟩

/-- Every listed index of a store exists in a capacity (10_state R22). -/
abbrev StoreWithin (c : Capacity) (m : Store) : Prop := ∀ x ∈ m, capacityAdmits c (x.1 + 1) = true

theorem StoreWithin.write (c : Capacity) (m : Store) (i : Nat) (v : Byte) (h : StoreWithin c m)
    (hi : capacityAdmits c (i + 1) = true) : StoreWithin c (Store.write m i v) := by
  intro x hx
  rcases Store.mem_write m i v x hx with h' | h'
  · rw [h']; exact hi
  · exact h x h'

/-- The store of a run of bytes written from an index on. -/
def Store.writeRun : Store → Nat → List Byte → Store
  | m, _, [] => m
  | m, a, b :: rest => Store.writeRun (Store.write m a b) (a + 1) rest

theorem memWriteRun_eq (s : State) (hc : capacityAdmits s.cap s.len = true) (a : Nat) (bs : List Byte)
    (h : a + bs.length ≤ s.len) : memWriteRun s a bs = some (s.setStore (Store.writeRun s.store a bs)) := by
  induction bs generalizing s a with
  | nil => rfl
  | cons b bs ih =>
    simp only [List.length_cons] at h
    rw [memWriteRun, memWrite_of_lt s a b hc (by omega), Option.bind_some, ih _ (by simpa using hc) (a + 1)
      (by simp; omega)]
    rfl

theorem memWriteRun_eq_some (s t : State) (a : Nat) (bs : List Byte) (h : memWriteRun s a bs = some t) :
    t = s.setStore (Store.writeRun s.store a bs) := by
  induction bs generalizing s a with
  | nil => exact (Option.some.inj h).symm
  | cons b bs ih =>
    rw [memWriteRun, Option.bind_eq_some_iff] at h
    obtain ⟨u, hu, h⟩ := h
    obtain ⟨_, rfl⟩ := (memWrite_eq_some s u a b).mp hu
    rw [ih _ _ h]
    rfl

theorem Store.wf_writeRun (m : Store) (hw : Store.wf m = true) (a : Nat) (bs : List Byte) :
    Store.wf (Store.writeRun m a bs) = true := by
  induction bs generalizing m a with
  | nil => exact hw
  | cons b bs ih => exact ih _ (Store.wf_write m hw a b) _

theorem Store.read_writeRun (m : Store) (hw : Store.wf m = true) (a : Nat) (bs : List Byte) (j : Nat) :
    Store.read (Store.writeRun m a bs) j =
      if a ≤ j then (bs[j - a]?).getD (Store.read m j) else Store.read m j := by
  induction bs generalizing m a with
  | nil => simp [Store.writeRun]
  | cons b bs ih =>
    rw [Store.writeRun, ih _ (Store.wf_write m hw a b), Store.read_write m hw]
    by_cases h : a = j
    · subst h
      simp
    · by_cases h' : a ≤ j
      · obtain ⟨k, rfl⟩ : ∃ k, j = a + 1 + k := ⟨j - (a + 1), by omega⟩
        have h1 : a + 1 + k - (a + 1) = k := by omega
        have h2 : a + 1 + k - a = k + 1 := by omega
        simp [h1, h2, show a ≤ a + 1 + k by omega, show a ≠ a + 1 + k by omega]
      · simp [h, h', show ¬a + 1 ≤ j by omega]

theorem StoreWithin.writeRun (c : Capacity) (m : Store) (a : Nat) (bs : List Byte) (h : StoreWithin c m)
    (hb : bs = [] ∨ capacityAdmits c (a + bs.length) = true) : StoreWithin c (Store.writeRun m a bs) := by
  induction bs generalizing m a with
  | nil => exact h
  | cons b bs ih =>
    have hb' : capacityAdmits c (a + (bs.length + 1)) = true := by simpa using hb
    refine ih _ _ (h.write c m a b (capacityAdmits_mono c _ _ (by omega) hb')) ?_
    right
    rwa [show a + 1 + bs.length = a + (bs.length + 1) by omega]

/-! ### Growing and normalising -/

theorem grow_eq_some (s t : State) : grow s = some t ↔ capacityAdmits s.cap (s.len + 1) = true ∧
    t = (s.setLen (s.len + 1)).setStore (Store.write s.store s.len 0x00#8) := by
  rw [grow, memWrite_eq_some]
  simp [State.indexValid]

theorem normaliseWrite_eq_some (s t : State) : normaliseWrite s = some t ↔
    capacityAdmits s.cap (s.len + 1) = true ∧
    t = (advance ((s.setLen (s.len + 1)).setStore (Store.write s.store s.len 0x00#8)) 1).setBitOffset 0 := by
  rw [normaliseWrite, Option.map_eq_some_iff]
  constructor
  · rintro ⟨u, hu, rfl⟩
    obtain ⟨hc, rfl⟩ := (grow_eq_some s u).mp hu
    exact ⟨hc, rfl⟩
  · rintro ⟨hc, rfl⟩
    exact ⟨_, (grow_eq_some s _).mpr ⟨hc, rfl⟩, rfl⟩

/-! ### Ends of a command -/

theorem respond_eq_next (s t : State) (r : Value) (d : List Byte) :
    respond s r d = .next t ↔ t = s.setRsp (Response.okay r d) := by
  simp [respond, eq_comm]

theorem raise_eq_next (st : Status) (s t : State) :
    raise st s = .next t ↔ t = s.setRsp (faultResponse st s) := by
  simp [raise, eq_comm]

theorem finish_eq_next (r : Option (State × Value × List Byte)) (t : State) : finish r = .next t ↔
    ∃ u v d, r = some (u, v, d) ∧ t = u.setRsp (Response.okay v d) := by
  cases r with
  | none => simp [finish]
  | some x =>
    obtain ⟨u, v, d⟩ := x
    simp [finish, respond, eq_comm]

theorem finishUnit_eq_next (r : Option State) (t : State) : finishUnit r = .next t ↔
    ∃ u, r = some u ∧ t = u.setRsp (Response.okay 0#32 []) := by
  cases r with
  | none => simp [finishUnit, finish]
  | some u => simp [finishUnit, finish, respond, eq_comm]

theorem finishValue_eq_next (r : Option (Value × State)) (t : State) : finishValue r = .next t ↔
    ∃ v u, r = some (v, u) ∧ t = u.setRsp (Response.okay v []) := by
  cases r with
  | none => simp [finishValue, finish]
  | some x =>
    obtain ⟨v, u⟩ := x
    simp [finishValue, finish, respond, eq_comm]

theorem finishBytes_eq_next (r : Option (List Byte × State)) (t : State) : finishBytes r = .next t ↔
    ∃ d u, r = some (d, u) ∧ t = u.setRsp (Response.okay (indexField d.length) d) := by
  cases r with
  | none => simp [finishBytes, finish]
  | some x =>
    obtain ⟨d, u⟩ := x
    simp [finishBytes, finish, respond, eq_comm]

/-! ### Leading checks -/

theorem whenDefined_eq_next (s : State) (k : Outcome) (t : State) : whenDefined s k = .next t ↔
    (s.poisoned = true ∧ t = s.poison) ∨ (s.poisoned = false ∧ k = .next t) := by
  unfold whenDefined
  cases s.poisoned <;> simp [eq_comm]

theorem whenNumBits_eq_next (n : Nat) (s : State) (k : Outcome) (t : State) : whenNumBits n s k = .next t ↔
    (numBitsValid n = false ∧ t = s.setRsp (faultResponse .invalidParameter s)) ∨
    (numBitsValid n = true ∧ k = .next t) := by
  unfold whenNumBits
  split <;> simp_all [raise_eq_next]

theorem whenClass_eq_next (c : CapClass) (s : State) (k : Outcome) (t : State) : whenClass c s k = .next t ↔
    (classAdmits c s.mode = false ∧ t = s.setRsp (faultResponse .wrongMode s)) ∨
    (classAdmits c s.mode = true ∧ k = .next t) := by
  unfold whenClass
  split <;> simp_all [raise_eq_next]

theorem whenAligned_eq_next (b : Bool) (s : State) (k : Outcome) (t : State) : whenAligned b s k = .next t ↔
    (b = false ∧ t = s.setRsp (faultResponse .alignmentViolation s)) ∨ (b = true ∧ k = .next t) := by
  unfold whenAligned
  split <;> simp_all [raise_eq_next]

theorem whenNotShort_eq_next (b : Bool) (s : State) (k : Outcome) (t : State) : whenNotShort b s k = .next t ↔
    (b = true ∧ t = s.setRsp (faultResponse .overrun s)) ∨ (b = false ∧ k = .next t) := by
  unfold whenNotShort
  split <;> simp_all [raise_eq_next]

theorem whenRoom_eq_next (n : Nat) (s : State) (k : Outcome) (t : State) : whenRoom n s k = .next t ↔
    (capacityAdmits s.cap n = false ∧ t = s.setRsp (faultResponse .capacityExceeded s)) ∨
    (capacityAdmits s.cap n = true ∧ k = .next t) := by
  unfold whenRoom
  split <;> simp_all [raise_eq_next]

theorem withPayload_eq_next (k : BitVec 32) (s : State) (body : List Byte → Outcome) (t : State) :
    withPayload k s body = .next t ↔ s.din.length = k.toNat ∧ body s.din = .next t := by
  unfold withPayload payloadOperand
  split
  · rename_i h; split at h <;> simp_all
  · rename_i h; split at h <;> simp_all

theorem rawExtract_eq_next (n : Nat) (s t : State) : rawExtract n s = .next t ↔
    (s.aligned0 = false ∧ t = s.setRsp (faultResponse .alignmentViolation s)) ∨
    (s.aligned0 = true ∧ s.bytesShort n = true ∧ t = s.poison) ∨
    (s.aligned0 = true ∧ s.bytesShort n = false ∧ finishBytes (takeBytes s n) = .next t) := by
  unfold rawExtract
  rw [whenAligned_eq_next]
  cases s.bytesShort n <;> simp [@eq_comm _ s.poison t]

end Sys2Proof.Machine
end

