-- ==== Sys2Proof/Laws/Bits.lean ====
section
/-! SUPPORT. What the bit loops of `EMIT` and `COLLECT` do, in terms of stream bits (20_memory R42, 42_write_path R105,
43_read_path R118). -/

namespace Sys2Proof.Machine

/-! ### The store side of a writer and of a reader -/

/-- What the write path needs of a writer, and keeps: the writer invariant (10_state R32), a canonical store inside the
capacity, and valid bytes inside the capacity. -/
abbrev State.WriteReady (s : State) : Prop :=
  s.WriterInv ∧ capacityAdmits s.cap s.len = true ∧ Store.wf s.store = true ∧ StoreWithin s.cap s.store

/-- Everything but `LEN`, the cursor and the store is as it was. -/
abbrev State.WriteFrame (s t : State) : Prop := s.SameBeside t ∧ t.rsp = s.rsp

/-- Everything but the cursor is as it was. -/
abbrev State.ReadFrame (s t : State) : Prop :=
  s.SameBeside t ∧ t.rsp = s.rsp ∧ t.len = s.len ∧ t.store = s.store

theorem State.WriteFrame.trans {s t u : State} (h : s.WriteFrame t) (h' : t.WriteFrame u) : s.WriteFrame u := by
  obtain ⟨⟨a, b, c, d, e, f⟩, g⟩ := h
  obtain ⟨⟨a', b', c', d', e', f'⟩, g'⟩ := h'
  exact ⟨⟨a'.trans a, b'.trans b, c'.trans c, d'.trans d, e'.trans e, f'.trans f⟩, g'.trans g⟩

theorem State.ReadFrame.trans {s t u : State} (h : s.ReadFrame t) (h' : t.ReadFrame u) : s.ReadFrame u := by
  obtain ⟨⟨a, b, c, d, e, f⟩, g, i, j⟩ := h
  obtain ⟨⟨a', b', c', d', e', f'⟩, g', i', j'⟩ := h'
  exact ⟨⟨a'.trans a, b'.trans b, c'.trans c, d'.trans d, e'.trans e, f'.trans f⟩, g'.trans g, i'.trans i, j'.trans j⟩

/-! ### Bits of a byte -/

theorem slotBit_getLsbD (b : Bool) (o i : Nat) (ho : o ≤ 7) (hi : i < 8) :
    (slotBit b o).getLsbD i = (decide (i = 7 - o) && b) := by
  unfold slotBit
  rw [BitVec.getLsbD_shiftLeft]
  simp only [BitVec.truncate_eq_setWidth, BitVec.getLsbD_setWidth, BitVec.getLsbD_ofBool]
  by_cases h : i = 7 - o
  · subst h; simp; omega
  · by_cases h' : i < 7 - o
    · simp [h, h']
    · have : i - (7 - o) ≠ 0 := by omega
      simp [h, this]

/-- Two bytes are equal when their eight bits are. -/
theorem byte_ext (x y : Byte) (h : ∀ i < 8, x.getLsbD i = y.getLsbD i) : x = y :=
  BitVec.eq_of_getLsbD_eq h

/-- Bit `j` of byte `a` is stream bit `8 * a + (7 - j)`. -/
theorem State.getLsbD_read (s : State) (a j : Nat) (hj : j < 8) :
    (Store.read s.store a).getLsbD j = s.streamBit (8 * a + (7 - j)) := by
  unfold State.streamBit
  rw [show (8 * a + (7 - j)) / 8 = a by omega, show 7 - (8 * a + (7 - j)) % 8 = j by omega]

/-- Stores that agree on every stream bit read the same. -/
theorem read_eq_of_streamBit (s t : State) (h : ∀ k, s.streamBit k = t.streamBit k) (a : Nat) :
    Store.read s.store a = Store.read t.store a := by
  refine byte_ext _ _ fun j hj => ?_
  rw [s.getLsbD_read a j hj, t.getLsbD_read a j hj, h]

/-- The zero bits at and after the cursor of a writer (10_state R32 (c)), as stream bits. -/
theorem State.WriterInv.streamBit_eq_false {s : State} (h : s.WriterInv) (k : Nat) (h1 : s.pos ≤ k)
    (h2 : k < 8 * s.len) : s.streamBit k = false := by
  obtain ⟨hl, hb, hz⟩ := h
  simp only [State.pos] at h1
  unfold State.streamBit
  rw [show k / 8 = s.byteIndex by omega]
  exact hz _ (by omega)

/-! ### One bit written -/

/-- `STORE[BYTE_INDEX] <- STORE[BYTE_INDEX] | (b << (7 - BIT_OFFSET))` sets the stream bit at the cursor and no other. -/
theorem orBit_spec (s : State) (b : Bool) (h : s.WriteReady) : ∃ m,
    orBit b s = some (s.setStore m) ∧ Store.wf m = true ∧ StoreWithin s.cap m ∧
    ∀ k, (s.setStore m).streamBit k = if k = s.pos then b else s.streamBit k := by
  obtain ⟨hW, hc, hw, hin⟩ := h
  have hl := hW.1
  have hb := hW.2.1
  refine ⟨Store.write s.store s.byteIndex
    (Store.read s.store s.byteIndex ||| slotBit b s.bitOffset.val), ?_, Store.wf_write _ hw _ _,
    hin.write _ _ _ _ (capacityAdmits_mono _ _ _ (by omega) hc), fun k => ?_⟩
  · unfold orBit
    rw [memRead_of_lt s _ hc (by omega), Option.bind_some, memWrite_of_lt s _ _ hc (by omega)]
  · unfold State.streamBit
    rw [State.setStore_store, Store.read_write _ hw]
    have hz := hW.streamBit_eq_false s.pos (Nat.le_refl _) (by simp only [State.pos]; omega)
    have hpos : s.pos = 8 * s.byteIndex + s.bitOffset.val := rfl
    by_cases hk : s.byteIndex = k / 8
    · rw [if_pos hk, BitVec.getLsbD_or, slotBit_getLsbD b _ _ hb (by omega), hk]
      by_cases hp : k = s.pos
      · rw [if_pos hp, decide_eq_true (by omega), Bool.true_and]
        have : (Store.read s.store (k / 8)).getLsbD (7 - k % 8) = false := by
          rw [← hp] at hz; exact hz
        rw [this, Bool.false_or]
      · rw [if_neg hp, decide_eq_false (by omega), Bool.false_and, Bool.or_false]
    · rw [if_neg hk, if_neg (by omega)]

/-- One bit of `EMIT` from a writer with room for the growth it makes (42_write_path R104). -/
theorem emitBit_spec (s : State) (b : Bool) (h : s.WriteReady) (hroom : s.HasRoom ((s.bitOffset.val + 1) / 8)) :
    ∃ t, emitBit b s = some t ∧ s.WriteFrame t ∧ t.WriteReady ∧ t.pos = s.pos + 1 ∧
      ∀ k, t.streamBit k = if k = s.pos then b
        else if 8 * s.len ≤ k ∧ k < 8 * t.len then false else s.streamBit k := by
  obtain ⟨m, hm, hwf, hin, hbits⟩ := orBit_spec s b h
  obtain ⟨⟨hl, hb, hz⟩, hc, hw, hin0⟩ := h
  have hstart : checkWrite s = some s := if_neg (by omega)
  unfold emitBit
  rw [hstart, Option.bind_some, hm, Option.bind_some]
  generalize hu : s.setStore m = u at hbits
  have hub : u.bitOffset = s.bitOffset := by rw [← hu]; rfl
  have hnb : u.nextBit.bitOffset.val = s.bitOffset.val + 1 := by
    rw [State.nextBit_bitOffset_val u (by rw [hub]; exact hb), hub]
  have hulen : u.len = s.len := by rw [← hu]; rfl
  have huidx : u.byteIndex = s.byteIndex := by rw [← hu]; rfl
  have hucap : u.cap = s.cap := by rw [← hu]; rfl
  have hustore : u.store = m := by rw [← hu]; rfl
  by_cases h7 : s.bitOffset.val = 7
  · -- the byte is full: the post-write check grows the store
    have h8 : u.nextBit.bitOffset.val = 8 := by omega
    have hg : (s.bitOffset.val + 1) / 8 = 1 := by omega
    rw [hg] at hroom
    refine ⟨_, (if_pos h8).trans ((normaliseWrite_eq_some u.nextBit _).mpr ⟨?_, rfl⟩), ?_, ⟨⟨?_, ?_, ?_⟩, ?_, ?_, ?_⟩,
      ?_, ?_⟩
    · simpa [hulen, hucap] using hroom
    · subst hu; exact ⟨⟨rfl, rfl, rfl, rfl, rfl, rfl⟩, rfl⟩
    · simp [hulen, huidx, hl]
    · simp
    · intro j hj
      simp only [State.setBitOffset_store, State.advance_store, State.setStore_store, State.nextBit_store,
        State.nextBit_len, State.setBitOffset_byteIndex, State.advance_byteIndex, State.setStore_byteIndex,
        State.setLen_byteIndex, State.nextBit_byteIndex, hulen, huidx, hustore]
      rw [Store.read_write _ hwf, if_pos hl]
      simp
    · simpa [hulen, hucap] using hroom
    · simpa [hustore] using Store.wf_write _ hwf _ _
    · simpa [hustore, hulen, hucap] using hin.write _ _ _ 0x00#8 hroom
    · simp [State.pos, huidx]; omega
    · intro k
      have hb' := hbits k
      unfold State.streamBit at hb' ⊢
      simp only [State.setBitOffset_store, State.advance_store, State.setStore_store, State.nextBit_store,
        State.nextBit_len, State.setBitOffset_len, State.advance_len, State.setStore_len, State.setLen_len,
        hulen, hustore] at hb' ⊢
      rw [Store.read_write _ hwf]
      have hpos : s.pos < 8 * s.len := by simp only [State.pos]; omega
      by_cases hk : s.len = k / 8
      · rw [if_pos hk, if_neg (by omega), if_pos (by omega)]
        simp
      · rw [if_neg hk, hb']
        split
        · rfl
        · rw [if_neg (by omega)]
  · -- the byte is not full
    have h8 : ¬u.nextBit.bitOffset.val = 8 := by omega
    refine ⟨_, if_neg h8, ?_, ?_, ?_, ?_⟩
    · subst hu; exact ⟨⟨rfl, rfl, rfl, rfl, rfl, rfl⟩, rfl⟩
    · refine ⟨⟨?_, ?_, ?_⟩, ?_, ?_, ?_⟩
      · simpa [hulen, huidx] using hl
      · omega
      · intro j hj
        rw [hnb] at hj
        simp only [State.nextBit_store, State.nextBit_byteIndex, huidx]
        rw [u.getLsbD_read _ j (by omega), hbits, if_neg (by simp only [State.pos]; omega),
          ← s.getLsbD_read _ j (by omega)]
        exact hz j (by omega)
      · simpa [hulen, hucap] using hc
      · simpa [hustore] using hwf
      · simpa [hustore, hucap] using hin
    · simp only [State.pos, State.nextBit_byteIndex, hnb, huidx]; omega
    · intro k
      have hb' := hbits k
      unfold State.streamBit at hb' ⊢
      simp only [State.nextBit_store, State.nextBit_len, hulen]
      rw [hb']
      split
      · rfl
      · rw [if_neg (by omega)]

/-- `EMIT` of `n` bits from a writer with room for the growth it makes: the bits `n - 1` down to 0 of the value are the
stream bits from the cursor on, nothing else of the stream changes, a grown byte is zero past them, and the cursor
moves by `n` (42_write_path R104, R105). -/
theorem emitBits_spec (v : Value) (n : Nat) (s : State) (h : s.WriteReady)
    (hroom : s.HasRoom ((s.bitOffset.val + n) / 8)) :
    ∃ t, emitBits v n s = some t ∧ s.WriteFrame t ∧ t.WriteReady ∧ t.pos = s.pos + n ∧
      ∀ k, t.streamBit k =
        if s.pos ≤ k ∧ k < s.pos + n then v.getLsbD (n - 1 - (k - s.pos))
        else if 8 * s.len ≤ k ∧ k < 8 * t.len then false else s.streamBit k := by
  induction n generalizing s with
  | zero =>
    refine ⟨s, rfl, ⟨⟨rfl, rfl, rfl, rfl, rfl, rfl⟩, rfl⟩, h, rfl, fun k => ?_⟩
    rw [if_neg (by omega), if_neg (by omega)]
  | succ n ih =>
    have hW := h.1
    obtain ⟨u, hu, hfr, hready, hpos, hbits⟩ := emitBit_spec s (v.getLsbD n) h
      (capacityAdmits_mono _ _ _ (by omega) hroom)
    have hWu := hready.1
    have hlens : s.len ≤ u.len ∧
        u.len + (u.bitOffset.val + n) / 8 = s.len + (s.bitOffset.val + (n + 1)) / 8 := by
      simp only [State.pos] at hpos
      have h1 := hW.1; have h2 := hWu.1; have h3 := hW.2.1; have h4 := hWu.2.1
      omega
    obtain ⟨t, ht, hfr', hready', hpos', hbits'⟩ := ih u hready
      (by unfold State.HasRoom; rw [hlens.2, hfr.1.2.1]; exact hroom)
    refine ⟨t, ?_, hfr.trans hfr', hready', by omega, fun k => ?_⟩
    · rw [emitBits, hu, Option.bind_some, ht]
    · have hlent : u.len ≤ t.len := by
        simp only [State.pos] at hpos'
        have h2 := hWu.1; have h4 := hready'.1.1; have := hWu.2.1; have := hready'.1.2.1
        omega
      have hposlt : s.pos < 8 * s.len := by
        simp only [State.pos]; have := hW.1; have := hW.2.1; omega
      rw [hbits' k, hpos, hbits k]
      by_cases hk : k = s.pos
      · subst hk
        rw [if_neg (by omega), if_neg (by omega), if_pos rfl, if_pos (by omega)]
        simp
      · by_cases hr : s.pos ≤ k ∧ k < s.pos + (n + 1)
        · rw [if_pos (by omega), if_pos hr, show n - 1 - (k - (s.pos + 1)) = n + 1 - 1 - (k - s.pos) by omega]
        · rw [if_neg (by omega), if_neg hr, if_neg hk]
          by_cases h1 : 8 * s.len ≤ k ∧ k < 8 * t.len
          · rw [if_pos h1]
            by_cases h2 : 8 * u.len ≤ k
            · rw [if_pos (by omega)]
            · rw [if_neg (by omega), if_pos (by omega)]
          · rw [if_neg (by omega), if_neg h1, if_neg (by omega)]

/-! ### One bit read -/

/-- What the read path needs of a reader, and keeps (10_state R33). -/
abbrev State.ReadReady (s : State) : Prop :=
  s.ReaderInv ∧ capacityAdmits s.cap s.len = true

/-- One bit of `COLLECT` where one remains (43_read_path R117). -/
theorem collectBit_spec (s : State) (h : s.ReadReady) (hrem : s.pos + 1 ≤ 8 * s.len) :
    ∃ t, collectBit s = some (s.streamBit s.pos, t) ∧ s.ReadFrame t ∧ t.ReadReady ∧ t.pos = s.pos + 1 := by
  obtain ⟨⟨hl, hb, hz⟩, hc⟩ := h
  simp only [State.pos] at hrem
  have hlt : s.byteIndex < s.len := by omega
  have hstart : checkRead s = s := if_neg (by omega)
  have hbit : readBit s = some (s.streamBit s.pos) := by
    unfold readBit State.streamBit
    rw [memRead_of_lt s _ hc hlt, Option.map_some]
    simp only [State.pos]
    rw [show (8 * s.byteIndex + s.bitOffset.val) / 8 = s.byteIndex by omega,
      show (8 * s.byteIndex + s.bitOffset.val) % 8 = s.bitOffset.val by omega]
  have hnb := State.nextBit_bitOffset_val s hb
  unfold collectBit
  rw [hstart, hbit, Option.map_some]
  by_cases h7 : s.bitOffset.val = 7
  · rw [show checkRead s.nextBit = normaliseRead s.nextBit from if_pos (by omega)]
    refine ⟨_, rfl, ⟨⟨rfl, rfl, rfl, rfl, rfl, rfl⟩, rfl, rfl, rfl⟩, ⟨⟨hlt, ?_, ?_⟩, hc⟩, ?_⟩
    · simp [normaliseRead]
    · simp [normaliseRead]
    · simp [State.pos, normaliseRead]; omega
  · rw [show checkRead s.nextBit = s.nextBit from if_neg (by omega)]
    refine ⟨_, rfl, ⟨⟨rfl, rfl, rfl, rfl, rfl, rfl⟩, rfl, rfl, rfl⟩, ⟨⟨hl, by omega, fun _ => hlt⟩, hc⟩, ?_⟩
    simp only [State.pos, State.nextBit_byteIndex, hnb]; omega

theorem State.ReadFrame.streamBit {s t : State} (h : s.ReadFrame t) (k : Nat) : t.streamBit k = s.streamBit k := by
  unfold State.streamBit; rw [h.2.2.2]

/-- `COLLECT` of `n` bits where `n` remain: the stream bits from the cursor on are the bits `n - 1` down to 0 of the
result, and the cursor moves by `n` (43_read_path R117, R118). -/
theorem collectBits_spec (n : Nat) (hn : n ≤ 32) (v : Value) (s : State) (h : s.ReadReady)
    (hrem : s.pos + n ≤ 8 * s.len) :
    ∃ x t, collectBits n v s = some (x, t) ∧ s.ReadFrame t ∧ t.ReadReady ∧ t.pos = s.pos + n ∧
      ∀ i < 32, x.getLsbD i = (v.getLsbD i || (decide (i < n) && s.streamBit (s.pos + (n - 1 - i)))) := by
  induction n generalizing s v with
  | zero =>
    refine ⟨v, s, rfl, ⟨⟨rfl, rfl, rfl, rfl, rfl, rfl⟩, rfl, rfl, rfl⟩, h, rfl, fun i hi => ?_⟩
    simp
  | succ n ih =>
    obtain ⟨u, hu, hfr, hready, hpos⟩ := collectBit_spec s h (by omega)
    obtain ⟨x, t, ht, hfr', hready', hpos', hx⟩ := ih (by omega)
      (v ||| ((BitVec.ofBool (s.streamBit s.pos)).zeroExtend 32 <<< n)) u hready
      (by rw [hpos, hfr.2.2.1]; omega)
    refine ⟨x, t, ?_, hfr.trans hfr', hready', by omega, fun i hi => ?_⟩
    · rw [collectBits, hu, Option.bind_some]
      exact ht
    · rw [hx i hi, BitVec.getLsbD_or, BitVec.getLsbD_shiftLeft, hfr.streamBit, hpos]
      simp only [BitVec.truncate_eq_setWidth, BitVec.getLsbD_setWidth, BitVec.getLsbD_ofBool]
      rcases Nat.lt_trichotomy i n with hlt | heq | hgt
      · simp only [hlt, hi, decide_true, show i < n + 1 by omega, Bool.true_and, Bool.not_true, Bool.false_and,
          Bool.and_false, Bool.or_false]
        rw [show s.pos + 1 + (n - 1 - i) = s.pos + (n + 1 - 1 - i) by omega]
      · subst heq
        simp [hi]
      · have h0 : i - n ≠ 0 := by omega
        simp [h0, show ¬i < n by omega, show ¬i < n + 1 by omega]

end Sys2Proof.Machine
end

