-- ==== Sys2Proof/Laws/Bytes.lean ====
section
/-! SUPPORT. What the whole-byte bodies of the write and read paths do (42_write_path R103, R106 to R108;
43_read_path R114, R119 to R121). -/

namespace Sys2Proof.Machine

theorem State.HasRoom.mono {s : State} {g h : Nat} (hh : s.HasRoom h) (hg : g ≤ h) : s.HasRoom g :=
  capacityAdmits_mono _ _ _ (by omega) hh

/-- `EmitByteBody(x)` from a writer with room for one byte (42_write_path R106). -/
theorem emitByteBody_spec (s : State) (x : Byte) (h : s.WriteReady) (hroom : s.HasRoom 1) :
    ∃ t, emitByteBody s x = some t ∧ s.WriteFrame t ∧ t.WriteReady ∧ t.len = s.len + 1 ∧
      t.byteIndex = s.byteIndex + 1 ∧ t.bitOffset = 0 ∧
      ∀ a, Store.read t.store a = if a = s.byteIndex then x
        else if a = s.byteIndex + 1 then 0x00#8 else Store.read s.store a := by
  obtain ⟨⟨hl, hb, hz⟩, hc, hw, hin⟩ := h
  have hwf1 := Store.wf_write s.store hw s.byteIndex x
  have hin1 := hin.write s.cap s.store s.byteIndex x (capacityAdmits_mono _ _ _ (by omega) hc)
  unfold emitByteBody
  rw [memWrite_of_lt s _ _ hc (by omega), Option.bind_some]
  refine ⟨_, (normaliseWrite_eq_some _ _).mpr ⟨by simpa using hroom, rfl⟩, ⟨⟨rfl, rfl, rfl, rfl, rfl, rfl⟩, rfl⟩,
    ⟨⟨congrArg (· + 1) hl, by simp, ?_⟩, hroom, Store.wf_write _ hwf1 _ _, hin1.write _ _ _ _ hroom⟩, rfl, rfl, rfl, ?_⟩
  · intro j hj
    change (Store.read (Store.write (Store.write s.store s.byteIndex x) s.len 0x00#8) (s.byteIndex + 1)).getLsbD j = false
    rw [Store.read_write _ hwf1, if_pos hl]
    simp
  · intro a
    change Store.read (Store.write (Store.write s.store s.byteIndex x) s.len 0x00#8) a = _
    rw [Store.read_write _ hwf1, Store.read_write _ hw]
    by_cases h1 : a = s.byteIndex
    · rw [if_pos h1, if_neg (by omega), if_pos h1.symm]
    · by_cases h2 : a = s.byteIndex + 1
      · rw [if_neg h1, if_pos h2, if_pos (by omega)]
      · rw [if_neg h1, if_neg h2, if_neg (by omega), if_neg (by omega)]

/-- `EmitByteBody` for each byte in turn from a writer with room for them (42_write_path R107, R108). -/
theorem emitBytesBody_spec (xs : List Byte) (s : State) (h : s.WriteReady) (hroom : s.HasRoom xs.length) :
    ∃ t, emitBytesBody s xs = some t ∧ s.WriteFrame t ∧ t.WriteReady ∧ t.len = s.len + xs.length ∧
      t.byteIndex = s.byteIndex + xs.length ∧ (xs = [] → t = s) ∧ (xs ≠ [] → t.bitOffset = 0) ∧
      ∀ a, Store.read t.store a =
        if s.byteIndex ≤ a ∧ a < s.byteIndex + xs.length then xs.getD (a - s.byteIndex) 0x00#8
        else if xs ≠ [] ∧ a = s.byteIndex + xs.length then 0x00#8 else Store.read s.store a := by
  induction xs generalizing s with
  | nil =>
    refine ⟨s, rfl, ⟨⟨rfl, rfl, rfl, rfl, rfl, rfl⟩, rfl⟩, h, rfl, rfl, fun _ => rfl, by simp, fun a => ?_⟩
    rw [if_neg (by simp), if_neg (by simp)]
  | cons x xs ih =>
    obtain ⟨u, hu, hfr, hready, hlen, hidx, hoff, hread⟩ :=
      emitByteBody_spec s x h (hroom.mono (by simp))
    obtain ⟨t, ht, hfr', hready', hlen', hidx', hnil, hoff', hread'⟩ := ih u hready (by
      unfold State.HasRoom
      rw [hlen, hfr.1.2.1, show s.len + 1 + xs.length = s.len + (x :: xs).length by simp; omega]
      exact hroom)
    refine ⟨t, ?_, hfr.trans hfr', hready', ?_, ?_, by simp, fun _ => ?_, fun a => ?_⟩
    · rw [emitBytesBody, hu, Option.bind_some, ht]
    · rw [hlen', hlen, List.length_cons]; omega
    · rw [hidx', hidx, List.length_cons]; omega
    · by_cases hx : xs = []
      · rw [hnil hx, hoff]
      · exact hoff' hx
    · rw [hread', hidx, hread]
      simp only [List.length_cons]
      by_cases h0 : a = s.byteIndex
      · subst h0
        rw [if_neg (by omega), if_neg (by omega), if_pos rfl, if_pos (by omega)]
        simp
      · by_cases h1 : s.byteIndex + 1 ≤ a ∧ a < s.byteIndex + 1 + xs.length
        · rw [if_pos h1, if_pos (by omega), show a - s.byteIndex = a - (s.byteIndex + 1) + 1 by omega]
          simp
        · rw [if_neg h1, if_neg (by omega : ¬(s.byteIndex ≤ a ∧ a < s.byteIndex + (xs.length + 1)))]
          by_cases h2 : a = s.byteIndex + (xs.length + 1)
          · rw [if_pos (show x :: xs ≠ [] ∧ a = s.byteIndex + (xs.length + 1) from ⟨by simp, h2⟩)]
            by_cases hx : xs = []
            · subst hx
              rw [if_neg (fun h => h.1 rfl), if_neg h0, if_pos (by simpa using h2)]
            · rw [if_pos (show xs ≠ [] ∧ a = s.byteIndex + 1 + xs.length from ⟨hx, by omega⟩)]
          · rw [if_neg (show ¬(xs ≠ [] ∧ a = s.byteIndex + 1 + xs.length) from fun h3 => h2 (by omega)),
              if_neg h0, if_neg (show ¬(x :: xs ≠ [] ∧ a = s.byteIndex + (xs.length + 1)) from fun h3 => h2 h3.2)]
            by_cases hx : xs = []
            · subst hx
              rw [if_neg (by simpa using h2)]
            · rw [if_neg]
              have := List.length_pos_iff.mpr hx
              omega

/-- The body of `APPEND_BYTES` from an aligned writer with room for the payload (42_write_path R103). -/
theorem appendBody_spec (bs : List Byte) (s : State) (h : s.WriteReady) (halign : s.bitOffset = 0)
    (hroom : s.HasRoom bs.length) :
    ∃ t, appendBody bs s = some t ∧ s.WriteFrame t ∧ t.WriteReady ∧ t.len = s.len + bs.length ∧
      t.byteIndex = s.byteIndex + bs.length ∧ t.bitOffset = 0 ∧
      ∀ a, Store.read t.store a =
        if s.byteIndex ≤ a ∧ a < s.byteIndex + bs.length then bs.getD (a - s.byteIndex) 0x00#8
        else if a = s.byteIndex + bs.length then 0x00#8 else Store.read s.store a := by
  obtain ⟨⟨hl, hb, hz⟩, hc, hw, hin⟩ := h
  have hwf1 := Store.wf_writeRun s.store hw s.byteIndex bs
  have hin1 : StoreWithin s.cap (Store.writeRun s.store s.byteIndex bs) :=
    hin.writeRun _ _ _ _ (.inr (capacityAdmits_mono _ _ _ (by omega) hroom))
  have hbody : appendBody bs s = some (advance (((s.setLen (s.len + bs.length)).setStore
      (Store.writeRun s.store s.byteIndex bs)).setStore
      (Store.write (Store.writeRun s.store s.byteIndex bs) (s.len + bs.length - 1) 0x00#8)) bs.length) := by
    unfold appendBody
    rw [(lastIndex_eq_some s s.byteIndex).mpr hl, Option.bind_some, memWriteRun_eq, Option.bind_some,
      memWrite_of_lt, Option.map_some]
    · rfl
    · exact hroom
    · simp only [State.setStore_len, State.setLen_len]; omega
    · exact hroom
    · simp only [State.setLen_len]; omega
  have hread : ∀ a, Store.read (Store.write (Store.writeRun s.store s.byteIndex bs)
      (s.len + bs.length - 1) 0x00#8) a =
        if s.byteIndex ≤ a ∧ a < s.byteIndex + bs.length then bs.getD (a - s.byteIndex) 0x00#8
        else if a = s.byteIndex + bs.length then 0x00#8 else Store.read s.store a := by
    intro a
    rw [Store.read_write _ hwf1, Store.read_writeRun _ hw]
    by_cases h1 : a = s.byteIndex + bs.length
    · rw [if_pos (by omega), if_neg (by omega), if_pos h1]
    · rw [if_neg (by omega)]
      by_cases h2 : s.byteIndex ≤ a ∧ a < s.byteIndex + bs.length
      · rw [if_pos h2, if_pos h2.1, List.getD_eq_getElem?_getD, List.getElem?_eq_getElem (by omega)]
        rfl
      · rw [if_neg h2, if_neg h1]
        split
        · rw [List.getElem?_eq_none (by omega)]; rfl
        · rfl
  refine ⟨_, hbody, ⟨⟨rfl, rfl, rfl, rfl, rfl, rfl⟩, rfl⟩, ⟨⟨?_, hb, ?_⟩, hroom, Store.wf_write _ hwf1 _ _, ?_⟩, rfl, rfl,
    halign, hread⟩
  · simp only [State.advance_len, State.advance_byteIndex, State.setStore_len, State.setLen_len,
      State.setStore_byteIndex, State.setLen_byteIndex]
    omega
  · intro j hj
    change (Store.read (Store.write (Store.writeRun s.store s.byteIndex bs)
      (s.len + bs.length - 1) 0x00#8) (s.byteIndex + bs.length)).getLsbD j = false
    rw [hread, if_neg (by omega), if_pos rfl]
    simp
  · exact hin1.write _ _ _ _ (by rwa [show s.len + bs.length - 1 + 1 = s.len + bs.length by omega])

/-- `ALIGN_W` off a byte boundary, from a writer with room for one byte (41_align_and_drain R95). -/
theorem alignWriteBody_spec (s : State) (h : s.WriteReady) (hroom : s.HasRoom 1) :
    ∃ t, alignWriteBody s = some t ∧ s.WriteFrame t ∧ t.WriteReady ∧ t.len = s.len + 1 ∧
      t.byteIndex = s.byteIndex + 1 ∧ t.bitOffset = 0 ∧
      ∀ a, Store.read t.store a = if a = s.byteIndex + 1 then 0x00#8 else Store.read s.store a := by
  obtain ⟨⟨hl, hb, hz⟩, hc, hw, hin⟩ := h
  refine ⟨_, (grow_eq_some _ _).mpr ⟨hroom, rfl⟩, ⟨⟨rfl, rfl, rfl, rfl, rfl, rfl⟩, rfl⟩,
    ⟨⟨congrArg (· + 1) hl, by simp, ?_⟩, hroom, Store.wf_write _ hw _ _, hin.write _ _ _ _ hroom⟩, rfl, rfl, rfl, ?_⟩
  · intro j hj
    change (Store.read (Store.write s.store s.len 0x00#8) (s.byteIndex + 1)).getLsbD j = false
    rw [Store.read_write _ hw, if_pos hl]
    simp
  · intro a
    change Store.read (Store.write s.store s.len 0x00#8) a = _
    rw [Store.read_write _ hw]
    by_cases h2 : a = s.byteIndex + 1
    · rw [if_pos h2, if_pos (by omega)]
    · rw [if_neg h2, if_neg (by omega)]

/-- `ALIGN_R` (41_align_and_drain R96) from a reader. -/
theorem alignReadBody_spec (s : State) (h : s.ReadReady) :
    s.ReadFrame (alignReadBody s) ∧ (alignReadBody s).ReadReady ∧ (alignReadBody s).bitOffset = 0 ∧
      (alignReadBody s).byteIndex = s.byteIndex + (if s.bitOffset = 0 then 0 else 1) := by
  obtain ⟨⟨hl, hb, hz⟩, hc⟩ := h
  unfold alignReadBody
  by_cases h0 : s.bitOffset = 0
  · rw [if_pos ((s.aligned0_iff).mpr h0), if_pos h0]
    exact ⟨⟨⟨rfl, rfl, rfl, rfl, rfl, rfl⟩, rfl, rfl, rfl⟩, ⟨⟨hl, hb, hz⟩, hc⟩, h0, rfl⟩
  · have hlt := hz fun hv => h0 (Fin.ext hv)
    rw [if_neg (fun ha => h0 ((s.aligned0_iff).mp ha)), if_neg h0]
    exact ⟨⟨⟨rfl, rfl, rfl, rfl, rfl, rfl⟩, rfl, rfl, rfl⟩, ⟨⟨hlt, by simp, by simp⟩, hc⟩, rfl, rfl⟩

/-- Two bytes at an index, most significant first, where both are valid (43_read_path R120). -/
theorem readWordAt_of_lt (s : State) (a : Nat) (hc : capacityAdmits s.cap s.len = true)
    (h : a + 2 ≤ s.len) :
    readWordAt s a = some (combineBytes (Store.read s.store a) (Store.read s.store (a + 1))) := by
  unfold readWordAt
  rw [memRead_of_lt s a hc (by omega), Option.bind_some, memRead_of_lt s (a + 1) hc (by omega), Option.map_some]

/-- Four bytes at an index, most significant first, where all are valid (43_read_path R121). -/
theorem readDwordAt_of_lt (s : State) (a : Nat) (hc : capacityAdmits s.cap s.len = true)
    (h : a + 4 ≤ s.len) :
    readDwordAt s a = some (combineWords
      (combineBytes (Store.read s.store a) (Store.read s.store (a + 1)))
      (combineBytes (Store.read s.store (a + 2)) (Store.read s.store (a + 3)))) := by
  unfold readDwordAt
  rw [readWordAt_of_lt s a hc (by omega), Option.bind_some, readWordAt_of_lt s (a + 2) hc (by omega), Option.map_some]

end Sys2Proof.Machine
end

