-- ==== Sys2Proof/Laws/Encode.lean ====
section
/-! SUPPORT. The fields of a packed word, the opcode map's match and mask as fields, and when a row selects a word
(30_encoding R61, R62, R65). -/

namespace Sys2Proof

/-- Bit `i` of a packed word. -/
theorem packWord_getLsbD (op nbits : BitVec 8) (arg : BitVec 32) (i : Nat) (hi : i < 48) :
    (packWord op nbits arg).getLsbD i =
      if i < 32 then arg.getLsbD i else if i < 40 then nbits.getLsbD (i - 32) else op.getLsbD (i - 40) := by
  unfold packWord
  simp only [BitVec.truncate_eq_setWidth, BitVec.getLsbD_or, BitVec.getLsbD_shiftLeft, BitVec.getLsbD_setWidth, hi,
    decide_true, Bool.true_and]
  by_cases h1 : i < 32
  · simp [h1, show i < 40 by omega]
  · by_cases h2 : i < 40
    · simp [h1, h2, show i - 32 < 48 by omega, BitVec.getLsbD_of_ge arg i (by omega)]
    · simp [h1, h2, show i - 32 < 48 by omega, show i - 40 < 48 by omega, BitVec.getLsbD_of_ge arg i (by omega),
        BitVec.getLsbD_of_ge nbits (i - 32) (by omega)]

@[simp] theorem opField_packWord (op nbits : BitVec 8) (arg : BitVec 32) : opField (packWord op nbits arg) = op := by
  refine BitVec.eq_of_getLsbD_eq fun i hi => ?_
  rw [opField, BitVec.getLsbD_extractLsb', packWord_getLsbD _ _ _ _ (by omega), if_neg (by omega), if_neg (by omega)]
  simp [hi]

@[simp] theorem nbitsField_packWord (op nbits : BitVec 8) (arg : BitVec 32) :
    nbitsField (packWord op nbits arg) = nbits := by
  refine BitVec.eq_of_getLsbD_eq fun i hi => ?_
  rw [nbitsField, BitVec.getLsbD_extractLsb', packWord_getLsbD _ _ _ _ (by omega), if_neg (by omega),
    if_pos (by omega)]
  simp [hi]

@[simp] theorem argField_packWord (op nbits : BitVec 8) (arg : BitVec 32) : argField (packWord op nbits arg) = arg := by
  refine BitVec.eq_of_getLsbD_eq fun i hi => ?_
  rw [argField, BitVec.getLsbD_extractLsb', packWord_getLsbD _ _ _ _ (by omega), if_pos (by omega)]
  simp [hi]

/-- A word is its three fields packed. -/
theorem packWord_fields (w : CmdWord) : packWord (opField w) (nbitsField w) (argField w) = w := by
  refine BitVec.eq_of_getLsbD_eq fun i hi => ?_
  rw [packWord_getLsbD _ _ _ _ hi, opField, nbitsField, argField, BitVec.getLsbD_extractLsb',
    BitVec.getLsbD_extractLsb', BitVec.getLsbD_extractLsb']
  by_cases h1 : i < 32
  · simp [h1]
  · by_cases h2 : i < 40
    · simp [h1, h2, show i - 32 < 8 by omega, show 32 + (i - 32) = i by omega]
    · simp [h1, h2, show i - 40 < 8 by omega, show 40 + (i - 40) = i by omega]

/-- Words are equal when their fields are. -/
theorem packWord_inj (op op' nbits nbits' : BitVec 8) (arg arg' : BitVec 32) :
    packWord op nbits arg = packWord op' nbits' arg' ↔ op = op' ∧ nbits = nbits' ∧ arg = arg' := by
  constructor
  · intro h
    exact ⟨by simpa using congrArg opField h, by simpa using congrArg nbitsField h, by simpa using congrArg argField h⟩
  · rintro ⟨rfl, rfl, rfl⟩
    rfl

theorem packWord_and (op op' nbits nbits' : BitVec 8) (arg arg' : BitVec 32) :
    packWord op nbits arg &&& packWord op' nbits' arg' = packWord (op &&& op') (nbits &&& nbits') (arg &&& arg') := by
  refine BitVec.eq_of_getLsbD_eq fun i hi => ?_
  rw [BitVec.getLsbD_and, packWord_getLsbD _ _ _ _ hi, packWord_getLsbD _ _ _ _ hi, packWord_getLsbD _ _ _ _ hi]
  split
  · rw [BitVec.getLsbD_and]
  · split <;> rw [BitVec.getLsbD_and]

/-- The match of a row is its opcode with zero operand fields (30_encoding R65). -/
theorem Mnemonic.pattern_eq (m : Mnemonic) : m.pattern = packWord m.opcode 0#8 0#32 := by
  cases m <;> decide

/-- The mask of a row is its opcode byte and its form's must-be-zero bits (30_encoding R62, R65). -/
theorem Mnemonic.mask_eq (m : Mnemonic) : m.mask = packWord 0xFF#8 m.form.nbitsMask m.form.argMask := by
  cases m <;> decide

/-- A row selects a word exactly when the word has its opcode and zeros where its form asks for them (30_encoding R65
to R67). -/
theorem Mnemonic.selects_iff (m : Mnemonic) (w : CmdWord) : m.selects w = true ↔
    opField w = m.opcode ∧ m.form.fieldsWellFormed (nbitsField w) (argField w) = true := by
  unfold Mnemonic.selects Form.fieldsWellFormed
  rw [Mnemonic.pattern_eq, Mnemonic.mask_eq, beq_iff_eq]
  conv_lhs => rw [← packWord_fields w]
  rw [packWord_and, packWord_inj, Bool.and_eq_true, beq_iff_eq, beq_iff_eq]
  have h : opField w &&& 0xFF#8 = opField w := BitVec.and_allOnes
  rw [h]

/-- The encoding of a command as its three fields (30_encoding R61, R69). -/
theorem encode_eq_packWord (i : Instr) : encode i = packWord i.mnemonic.opcode i.nbits i.arg := by
  unfold encode
  rw [Mnemonic.pattern_eq]
  unfold packWord
  simp

end Sys2Proof
end

