-- ==== Sys2Proof/Laws/PerInstr.lean ====
section
/-! SUPPORT. Statements made per command: what the fields of each command's word are (30_encoding R61 to R63, R73). -/

/-- The word of a command carries its row's opcode, its `NBITS` and its `ARG`, and its form's must-be-zero bits are
zero. -/
def Sys2Proof.Laws.EncodeFields.Statement (i : Sys2Proof.Instr) : Prop :=
  Sys2Proof.opField (Sys2Proof.encode i) = i.mnemonic.opcode ∧
  Sys2Proof.nbitsField (Sys2Proof.encode i) = i.nbits ∧
  Sys2Proof.argField (Sys2Proof.encode i) = i.arg ∧
  i.mnemonic.form.fieldsWellFormed i.nbits i.arg = true

namespace Sys2Proof.Laws.EncodeFields

/-- The part about the fields, for every command. -/
theorem of_mask (i : Instr) (h : i.mnemonic.form.fieldsWellFormed i.nbits i.arg = true) : Statement i := by
  unfold Statement
  rw [encode_eq_packWord]
  simp [h]

/-- A zero-extended operand has no bit above its own width. -/
theorem zeroExtend_and (n : Nat) (v : BitVec n) :
    v.zeroExtend 32 &&& (BitVec.allOnes 32 <<< n) = 0#32 := by
  refine BitVec.eq_of_getLsbD_eq fun i hi => ?_
  simp only [BitVec.truncate_eq_setWidth, BitVec.getLsbD_and, BitVec.getLsbD_setWidth, BitVec.getLsbD_shiftLeft]
  by_cases h : i < n
  · simp [h]
  · simp [BitVec.getLsbD_of_ge v i (by omega)]

theorem createWriter : Statement .createWriter := of_mask _ rfl
theorem createReader (count : BitVec 32) : Statement (.createReader count) :=
  of_mask _ (by simp [Form.fieldsWellFormed, Form.nbitsMask, Form.argMask, Instr.mnemonic, Mnemonic.form, Instr.nbits])
theorem buffer : Statement .buffer := of_mask _ rfl
theorem rawview : Statement .rawview := of_mask _ rfl
theorem getByteIndex : Statement .getByteIndex := of_mask _ rfl
theorem getBitOffset : Statement .getBitOffset := of_mask _ rfl
theorem alignW : Statement .alignW := of_mask _ rfl
theorem alignR : Statement .alignR := of_mask _ rfl
theorem collectAll : Statement .collectAll := of_mask _ rfl
theorem hasMore : Statement .hasMore := of_mask _ rfl
theorem appendBytes (count : BitVec 32) : Statement (.appendBytes count) :=
  of_mask _ (by simp [Form.fieldsWellFormed, Form.nbitsMask, Form.argMask, Instr.mnemonic, Mnemonic.form, Instr.nbits])
theorem emit (numBits : BitVec 8) (value : BitVec 32) : Statement (.emit numBits value) :=
  of_mask _ (by simp [Form.fieldsWellFormed, Form.nbitsMask, Form.argMask, Instr.mnemonic, Mnemonic.form])
theorem emitByte (value : BitVec 8) : Statement (.emitByte value) :=
  of_mask _ (by
    have h : Instr.arg (.emitByte value) &&& 0xFFFFFF00#32 = 0#32 := zeroExtend_and 8 value
    simp [Form.fieldsWellFormed, Form.nbitsMask, Form.argMask, Instr.mnemonic, Mnemonic.form, Instr.nbits, h])
theorem emitWord (value : BitVec 16) : Statement (.emitWord value) :=
  of_mask _ (by
    have h : Instr.arg (.emitWord value) &&& 0xFFFF0000#32 = 0#32 := zeroExtend_and 16 value
    simp [Form.fieldsWellFormed, Form.nbitsMask, Form.argMask, Instr.mnemonic, Mnemonic.form, Instr.nbits, h])
theorem emitDword (value : BitVec 32) : Statement (.emitDword value) :=
  of_mask _ (by simp [Form.fieldsWellFormed, Form.nbitsMask, Form.argMask, Instr.mnemonic, Mnemonic.form, Instr.nbits])
theorem deconcat (count : BitVec 32) : Statement (.deconcat count) :=
  of_mask _ (by simp [Form.fieldsWellFormed, Form.nbitsMask, Form.argMask, Instr.mnemonic, Mnemonic.form, Instr.nbits])
theorem deappend (count : BitVec 32) : Statement (.deappend count) :=
  of_mask _ (by simp [Form.fieldsWellFormed, Form.nbitsMask, Form.argMask, Instr.mnemonic, Mnemonic.form, Instr.nbits])
theorem collect (numBits : BitVec 8) : Statement (.collect numBits) :=
  of_mask _ (by simp [Form.fieldsWellFormed, Form.nbitsMask, Form.argMask, Instr.mnemonic, Mnemonic.form, Instr.arg])
theorem collectByte : Statement .collectByte := of_mask _ rfl
theorem collectWord : Statement .collectWord := of_mask _ rfl
theorem collectDword : Statement .collectDword := of_mask _ rfl

end Sys2Proof.Laws.EncodeFields
end

