-- ==== Sys2Proof/Tests/Slice0.lean ====
section
/-! SUPPORT. The model's own tests: the checks refuse ill-formed terms; every command's word decodes; one step of every
command against the vectors of 95_test_vectors; and, for every statement that has hypotheses, a state and operands that
meet them. Expected values are the spec's (the vector is named at each test). -/

namespace Sys2Proof.Tests

open Sys2Proof Sys2Proof.Machine

/-! ### Helpers -/

/-- A store that holds these bytes from index 0 on. -/
def storeOf (bytes : List Nat) : Store :=
  (bytes.zipIdx).foldl (fun m p => Store.write m p.2 (BitVec.ofNat 8 p.1)) []

/-- An engine over these valid bytes, with the cursor at (byte index, bit offset). -/
def engineAt (m : Mode) (cap : Capacity) (bytes : List Nat) (bi : Nat) (bo : Fin 9) : State :=
  { State.resetWith cap with
    mode := m, len := bytes.length, byteIndex := bi, bitOffset := bo,
    store := storeOf bytes }

def writerAt (bytes : List Nat) (bi : Nat) (bo : Fin 9) : State := engineAt .writer .unbounded bytes bi bo
def readerAt (bytes : List Nat) (bi : Nat) (bo : Fin 9) : State := engineAt .reader .unbounded bytes bi bo

/-- The state with a payload in the data-in channel. -/
def withDin (s : State) (bytes : List Nat) : State := { s with din := bytes.map (BitVec.ofNat 8) }

/-- The state with events of the host to come. -/
def withHost (s : State) (es : List HostEvent) : State := { s with host := es }

/-- A run that has met the undefined case. -/
def marked (s : State) : State := { s with poisoned := true }

/-- The state after, or the state before where there is none. -/
def after (i : Instr) (s : State) : State :=
  match exec i s with
  | .next t => t
  | .fault _ => s
  | .refused _ => s

/-- `STATUS`, `RESULT` and `DOUT` of one command. -/
def answer (i : Instr) (s : State) : Option (Status × Nat × List Byte) :=
  (after i s).rsp.map fun r => (r.status, r.result.toNat, r.dout)

/-- The valid bytes and the cursor after one command. -/
def cursor (i : Instr) (s : State) : List Byte × Nat × Nat :=
  ((after i s).bytesFrom 0 (after i s).len, (after i s).byteIndex, (after i s).bitOffset.val)

/-- What the decoder reads, for comparison. -/
def decodes (w : CmdWord) (i : Instr) : Bool := (decode w).toOption == some i

/-! ### Ill-formed terms are refused (30_encoding R62, R64, R67; 00_scope R11) -/

theorem test_form_z_refuses_nbits : Form.z.fieldsWellFormed 1#8 0#32 = false := by decide
theorem test_form_z_refuses_arg : Form.z.fieldsWellFormed 0#8 0x80000000#32 = false := by decide
theorem test_form_nv_admits_all : Form.nv.fieldsWellFormed 0xFF#8 0xFFFFFFFF#32 = true := by decide
theorem test_form_n_refuses_arg : Form.n.fieldsWellFormed 3#8 1#32 = false := by decide
theorem test_form_v8_refuses_bit_eight : Form.v8.fieldsWellFormed 0#8 0x100#32 = false := by decide
theorem test_form_v8_refuses_nbits : Form.v8.fieldsWellFormed 8#8 0xAA#32 = false := by decide
theorem test_form_v16_refuses_bit_sixteen : Form.v16.fieldsWellFormed 0#8 0x10000#32 = false := by decide
theorem test_form_v32_refuses_nbits : Form.v32.fieldsWellFormed 0x80#8 0#32 = false := by decide
theorem test_form_c_refuses_nbits : Form.c.fieldsWellFormed 1#8 4#32 = false := by decide
theorem test_form_p_refuses_nbits : Form.p.fieldsWellFormed 1#8 0#32 = false := by decide
theorem test_payload_too_short_refused : (Instr.createReader 2#32).payloadWellFormed [1#8] = false := by decide
theorem test_payload_too_long_refused : (Instr.appendBytes 0#32).payloadWellFormed [1#8] = false := by decide
theorem test_payload_exact_admitted : (Instr.appendBytes 2#32).payloadWellFormed [1#8, 2#8] = true := by decide
theorem test_payload_beside_count_refused : (Instr.deappend 1#32).payloadWellFormed [1#8] = false := by decide
theorem test_capacity_zero_refused : (Capacity.bytes 0#32).wellFormed = false := by decide
theorem test_capacity_one_admitted : (Capacity.bytes 1#32).wellFormed = true := by decide

/-! ### Decoding: V30, one word per command, and the illegal words of V60d -/

theorem test_decode_create_writer : decodes 0x010000000000#48 .createWriter = true := by decide
theorem test_decode_create_reader : decodes 0x020000000003#48 (.createReader 3#32) = true := by decide
theorem test_decode_buffer : decodes 0x030000000000#48 .buffer = true := by decide
theorem test_decode_rawview : decodes 0x040000000000#48 .rawview = true := by decide
theorem test_decode_get_byte_index : decodes 0x050000000000#48 .getByteIndex = true := by decide
theorem test_decode_get_bit_offset : decodes 0x060000000000#48 .getBitOffset = true := by decide
theorem test_decode_align_w : decodes 0x070000000000#48 .alignW = true := by decide
theorem test_decode_align_r : decodes 0x080000000000#48 .alignR = true := by decide
theorem test_decode_collect_all : decodes 0x090000000000#48 .collectAll = true := by decide
theorem test_decode_has_more : decodes 0x0A0000000000#48 .hasMore = true := by decide
theorem test_decode_append_bytes : decodes 0x0B0000000002#48 (.appendBytes 2#32) = true := by decide
theorem test_decode_emit : decodes 0x0C0300000005#48 (.emit 3#8 5#32) = true := by decide
theorem test_decode_emit_full : decodes 0x0C20DEADBEEF#48 (.emit 32#8 0xDEADBEEF#32) = true := by decide
theorem test_decode_emit_byte : decodes 0x0D00000000AA#48 (.emitByte 0xAA#8) = true := by decide
theorem test_decode_emit_word : decodes 0x0E0000001234#48 (.emitWord 0x1234#16) = true := by decide
theorem test_decode_emit_dword : decodes 0x0F0012345678#48 (.emitDword 0x12345678#32) = true := by decide
theorem test_decode_deconcat : decodes 0x100000000004#48 (.deconcat 4#32) = true := by decide
theorem test_decode_deappend : decodes 0x1100FFFFFFFF#48 (.deappend 0xFFFFFFFF#32) = true := by decide
theorem test_decode_collect : decodes 0x120900000000#48 (.collect 9#8) = true := by decide
theorem test_decode_collect_byte : decodes 0x130000000000#48 .collectByte = true := by decide
theorem test_decode_collect_word : decodes 0x140000000000#48 .collectWord = true := by decide
theorem test_decode_collect_dword : decodes 0x150000000000#48 .collectDword = true := by decide
theorem test_decode_table_word : decodeTableWord 48 0x0E0000001234 = some (.emitWord 0x1234#16) := by decide
theorem test_decode_reserved_refused : decodeTableWord 48 0x160000000000 = none := by decide
theorem test_decode_zero_refused : decodeTableWord 48 0 = none := by decide
theorem test_decode_must_be_zero_refused : decodeTableWord 48 0x0D0000000100 = none := by decide
theorem test_encode_emit : encode (.emit 3#8 5#32) = 0x0C0300000005#48 := by decide

/-! ### One step of each command -/

/-- V40a, 40_construct_and_view R86. -/
theorem test_create_writer : cursor .createWriter State.reset = ([0x00#8], 0, 0) := by decide
/-- P4: a mode switch without reset; 40_construct_and_view R86. -/
theorem test_create_writer_from_reader :
    cursor .createWriter (readerAt [0xA5, 0x3C] 1 3) = ([0x00#8], 0, 0) := by decide
/-- P2's first command. -/
theorem test_create_reader :
    cursor (.createReader 2#32) (withDin State.reset [0xBF, 0xFD]) = ([0xBF#8, 0xFD#8], 0, 0) := by decide
/-- 40_construct_and_view R87: a payload longer than `CAP`. -/
theorem test_create_reader_too_long :
    answer (.createReader 2#32) (withDin (State.resetWith (.bytes 1#32)) [1, 2]) = some (.capacityExceeded, 0, []) := by
  decide
/-- S4: without the staging byte at a byte boundary. -/
theorem test_buffer_aligned :
    answer .buffer (writerAt [0x12, 0x34, 0x00] 2 0) = some (.ok, 2, [0x12#8, 0x34#8]) := by decide
/-- V40a: with it off the boundary. -/
theorem test_buffer_misaligned :
    answer .buffer (writerAt [0x12, 0x80] 1 1) = some (.ok, 2, [0x12#8, 0x80#8]) := by decide
/-- S4. -/
theorem test_rawview :
    answer .rawview (writerAt [0x12, 0x34, 0x00] 2 0) = some (.ok, 3, [0x12#8, 0x34#8, 0x00#8]) := by decide
/-- V40a: refused in `IDLE`. -/
theorem test_rawview_idle : answer .rawview State.reset = some (.wrongMode, 0, []) := by decide
/-- P1. -/
theorem test_get_byte_index : answer .getByteIndex (writerAt [0xBF, 0xF0, 0x00] 2 0) = some (.ok, 2, []) := by decide
/-- V40a. -/
theorem test_get_bit_offset : answer .getBitOffset (writerAt [0x80] 0 1) = some (.ok, 1, []) := by decide
/-- 41_align_and_drain R95, off a byte boundary. -/
theorem test_align_w : cursor .alignW (writerAt [0xA0] 0 3) = ([0xA0#8, 0x00#8], 1, 0) := by decide
/-- P5: on a full store. -/
theorem test_align_w_full :
    answer .alignW (engineAt .writer (.bytes 1#32) [0xFE] 0 7) = some (.capacityExceeded, 0, []) := by decide
/-- P4. -/
theorem test_align_r : cursor .alignR (readerAt [0xA5, 0x3C, 0x7E] 0 3) = ([0xA5#8, 0x3C#8, 0x7E#8], 1, 0) := by decide
/-- 41_align_and_drain R96: nothing at a byte boundary. -/
theorem test_align_r_aligned : cursor .alignR (readerAt [0xA5] 0 0) = ([0xA5#8], 0, 0) := by decide
/-- 41_align_and_drain R97: the alignment advance comes first. -/
theorem test_collect_all :
    answer .collectAll (readerAt [0xA5, 0x3C, 0x7E] 0 3) = some (.ok, 2, [0x3C#8, 0x7E#8]) := by decide
/-- 41_align_and_drain R97: the extraction moves nothing more. -/
theorem test_collect_all_cursor : (cursor .collectAll (readerAt [0xA5, 0x3C, 0x7E] 0 3)).2 = (1, 0) := by decide
/-- P3b: two bytes left of three. -/
theorem test_has_more : answer .hasMore (readerAt [0x11, 0x22, 0x33] 1 0) = some (.ok, 1, []) := by decide
/-- P3b: one byte left, and the answer is 0. -/
theorem test_has_more_last : answer .hasMore (readerAt [0x11, 0x22, 0x33] 2 0) = some (.ok, 0, []) := by decide
/-- 42_write_path R103. -/
theorem test_append_bytes :
    cursor (.appendBytes 3#32) (withDin (writerAt [0xAA, 0x00] 1 0) [1, 2, 3]) =
      ([0xAA#8, 1#8, 2#8, 3#8, 0#8], 4, 0) := by decide
/-- 42_write_path R103: misaligned, whatever the payload. -/
theorem test_append_bytes_misaligned :
    answer (.appendBytes 0#32) (writerAt [0xA0] 0 3) = some (.alignmentViolation, 0, []) := by decide
/-- S6. -/
theorem test_emit : cursor (.emit 3#8 5#32) (writerAt [0x00] 0 0) = ([0xA0#8], 0, 3) := by decide
/-- P1: across a byte boundary. -/
theorem test_emit_across : cursor (.emit 9#8 0x1FF#32) (writerAt [0xA0] 0 3) = ([0xBF#8, 0xF0#8], 1, 4) := by decide
/-- P4: the emitted bits of the byte are overwritten. -/
theorem test_emit_byte : cursor (.emitByte 0x80#8) (writerAt [0x78, 0xFC] 1 7) = ([0x78#8, 0x80#8, 0x00#8], 2, 0) := by
  decide
/-- P4: in the wrong mode. -/
theorem test_emit_byte_reader : answer (.emitByte 1#8) (readerAt [0xA5] 1 0) = some (.wrongMode, 0, []) := by decide
/-- S4. -/
theorem test_emit_word : cursor (.emitWord 0x1234#16) (writerAt [0x00] 0 0) = ([0x12#8, 0x34#8, 0x00#8], 2, 0) := by decide
/-- P5: two bytes or none. -/
theorem test_emit_word_full :
    cursor (.emitWord 0x5566#16) (engineAt .writer (.bytes 2#32) [0x80] 0 1) = ([0x80#8], 0, 1) := by decide
/-- S5. -/
theorem test_emit_dword :
    cursor (.emitDword 0x12345678#32) (writerAt [0x00] 0 0) = ([0x12#8, 0x34#8, 0x56#8, 0x78#8, 0x00#8], 4, 0) := by
  decide
/-- P5. -/
theorem test_emit_dword_full :
    answer (.emitDword 0x11223344#32) (engineAt .writer (.bytes 4#32) [0xAB, 0xCD, 0x80] 2 1) =
      some (.capacityExceeded, 0, []) := by decide
/-- 43_read_path R114, R115. -/
theorem test_deconcat : answer (.deconcat 2#32) (readerAt [1, 2, 3] 1 0) = some (.ok, 2, [2#8, 3#8]) := by decide
/-- P2. -/
theorem test_deappend : cursor (.deappend 3#32) (readerAt [1, 2, 3] 0 0) = ([1#8, 2#8, 3#8], 3, 0) := by decide
/-- V60, the last table: misaligned before anything about the count. -/
theorem test_deappend_misaligned :
    answer (.deappend 9#32) (readerAt [0xA5] 0 3) = some (.alignmentViolation, 0, []) := by decide
/-- P2. -/
theorem test_collect : answer (.collect 9#8) (readerAt [0xBF, 0xFD] 0 3) = some (.ok, 0x1FF, []) := by decide
/-- P2: where the cursor is then. -/
theorem test_collect_cursor : (cursor (.collect 9#8) (readerAt [0xBF, 0xFD] 0 3)).2 = (1, 4) := by decide
/-- S3. -/
theorem test_collect_byte : answer .collectByte (readerAt [0xAA] 0 0) = some (.ok, 0xAA, []) := by decide
/-- P2: at the end. -/
theorem test_collect_byte_end : answer .collectByte (readerAt [0xAA] 1 0) = some (.overrun, 0, []) := by decide
/-- P4. -/
theorem test_collect_word : answer .collectWord (readerAt [0xA5, 0x3C, 0x7E] 1 0) = some (.ok, 0x3C7E, []) := by decide
/-- 43_read_path R120: two bytes or none. -/
theorem test_collect_word_short : answer .collectWord (readerAt [0xA5] 0 0) = some (.overrun, 0, []) := by decide
/-- 43_read_path R121, the bytes of S5. -/
theorem test_collect_dword :
    answer .collectDword (readerAt [0x12, 0x34, 0x56, 0x78] 0 0) = some (.ok, 0x12345678, []) := by decide
/-- V60, the last table. -/
theorem test_collect_dword_misaligned :
    answer .collectDword (readerAt [0xA5] 0 3) = some (.alignmentViolation, 0, []) := by decide

/-! ### The port and the assembler -/

/-- 60_exceptions R136: decoding comes before everything else (V60, `(COLLECT 33, ARG=1)`). -/
theorem test_step_illegal_word :
    step (withHost (readerAt [0xA5] 0 3) [.command ⟨0x122100000001#48, []⟩]) =
      .next { readerAt [0xA5] 0 3 with rsp := some ⟨.illegalCommand, 0#32, [], 1#32, 0#32, 3#4⟩ } := by rfl
/-- The very next step runs the command of a table word. -/
theorem test_step_with_fetch_word :
    step (State.reset.withFetchWord 48 0x010000000000) = exec .createWriter State.reset := by rfl
/-- 30_encoding R73's first example of an operand list: `EMIT 0b101, 3`. -/
theorem test_assemble_emit :
    assemble ['E', 'M', 'I', 'T', ' ', '0', 'b', '1', '0', '1', ',', ' ', '3', ' ', ';', 'x'] =
      .ok [⟨0x0C0300000005#48, []⟩] := by rfl
/-- P1's `APPEND_BYTES [1,2,3]`. -/
theorem test_assemble_append :
    assembleLine ['A', 'P', 'P', 'E', 'N', 'D', '_', 'B', 'Y', 'T', 'E', 'S', ' ', '[', '1', ',', '2', ',', '3', ']'] =
      .ok (some ⟨0x0B0000000003#48, [1#8, 2#8, 3#8]⟩) := by rfl
/-- 30_encoding R73: `num_bits` above 255 is rejected. -/
theorem test_assemble_num_bits_too_wide : assembleCommand .collect [256] none = .error .numBitsTooWide := by rfl
/-- 30_encoding R73: 33 is not, so that the engine's own check can be met. -/
theorem test_assemble_num_bits_wide : assembleCommand .collect [33] none = .ok ⟨0x122100000000#48, []⟩ := by rfl

/-! ### States and operands that meet the hypotheses of the statements -/

/-- A writer whose store is full: one byte of capacity, the cursor inside it. -/
def fullWriter : State := engineAt .writer (.bytes 1#32) [0xFE] 0 7
/-- A writer on an unbounded store, with the greatest `LEN` of 32 bits. -/
def longWriter : State := { State.resetWith .unbounded with mode := .writer, len := 2 ^ 32 - 1, byteIndex := 2 ^ 32 - 2 }
/-- A byte outside the valid ones. -/
def staleWriter : State := { writerAt [0x00] 0 0 with store := [(5, 0x77#8)] }

theorem witness_DecodeIsTheTable : decode 0x0C0300000005#48 = .ok (.emit 3#8 5#32) := by rfl
theorem witness_AtMostOneRow : 0x120900000000#48 &&& Mnemonic.collect.mask = Mnemonic.collect.pattern := by decide
theorem witness_ReservedOpcodes_zero :
    opField 0x000000000000#48 = 0x00#8 ∧ State.reset.poisoned = false ∧
    (withHost State.reset [.command ⟨0x000000000000#48, []⟩]).host = .command ⟨0x000000000000#48, []⟩ :: [] := by decide
theorem witness_ReservedOpcodes_first : 0x16 ≤ (opField 0x160000000000#48).toNat := by decide
theorem witness_ReservedOpcodes_last : 0x16 ≤ (opField 0xFFFFFFFFFFFF#48).toNat := by decide
theorem witness_NonzeroReserved :
    opField 0x0D0000000100#48 = Mnemonic.emitByte.opcode ∧
    Mnemonic.emitByte.form.fieldsWellFormed (nbitsField 0x0D0000000100#48) (argField 0x0D0000000100#48) = false ∧
    (withHost State.reset [.command ⟨0x0D0000000100#48, []⟩]).poisoned = false := by decide
theorem witness_NonzeroReserved_one_word :
    decode 0x0D00000000FF#48 = .ok (.emitByte 0xFF#8) := by rfl
theorem witness_NonzeroReserved_emit_word : opField 0x0CFFFFFFFFFF#48 = 0x0C#8 := by decide
theorem witness_NonzeroReserved_high_bits :
    ∀ i < (3#8).toNat, (0xFFFFFFFD#32).getLsbD i = (0x5#32).getLsbD i := by decide
theorem witness_AssembledCommands :
    assembleCommand .emit [5, 255] none = .ok ⟨0x0CFF00000005#48, []⟩ := by rfl
theorem witness_AssembledCommands_bare :
    (Mnemonic.collectWord, 0x140000000000#48) ∈ [(Mnemonic.collectByte, 0x130000000000#48),
      (.collectWord, 0x140000000000#48)] ∧
    assembleCommand .collectWord [] none = .ok ⟨0x140000000000#48, []⟩ := ⟨by decide, rfl⟩
theorem witness_AssembledCommands_payload :
    assembleCommand .createReader [] (some [255]) = .ok ⟨0x020000000001#48, [0xFF#8]⟩ ∧
    assembleCommand .appendBytes [] (some []) = .ok ⟨0x0B0000000000#48, []⟩ ∧
    assembleCommand .createReader [] (some [256]) = .error .byteTooWide := ⟨rfl, rfl, rfl⟩
theorem witness_AssembledCommands_one :
    assembleCommand .deconcat [0xFFFFFFFF] none = .ok ⟨0x1000FFFFFFFF#48, []⟩ ∧
    assembleCommand .emitByte [256] none = .error .valueTooWide ∧
    assembleCommand .deappend [0x100000000] none = .error .countTooWide := ⟨rfl, rfl, rfl⟩
theorem witness_StepRuns :
    (withHost State.reset [.command ⟨0x020000000001#48, [0xA5#8]⟩]).host =
      .command ⟨0x020000000001#48, [0xA5#8]⟩ :: [] ∧
    decode 0x020000000001#48 = .ok (.createReader 1#32) ∧
    (Instr.createReader 1#32).payloadWellFormed [0xA5#8] = true := ⟨rfl, rfl, rfl⟩
theorem witness_IllFormed_form_p :
    decode 0x020000000001#48 = .ok (.createReader 1#32) ∧
    (if (Instr.createReader 1#32).mnemonic.form = .p then ([] : List Byte).length ≠ (Instr.createReader 1#32).arg.toNat
     else ([] : List Byte) ≠ []) := ⟨rfl, by decide⟩
theorem witness_IllFormed_other :
    decode 0x130000000000#48 = .ok .collectByte ∧
    (if Instr.collectByte.mnemonic.form = .p then [0x00#8].length ≠ Instr.collectByte.arg.toNat else [0x00#8] ≠ []) :=
  ⟨rfl, by decide⟩
theorem witness_ResetGives_reset :
    (withHost (readerAt [0xA5] 0 3) [.reset (some ⟨0x130000000000#48, []⟩)]).host =
      .reset (some ⟨0x130000000000#48, []⟩) :: [] := rfl
theorem witness_ResetGives_nothing :
    (writerAt [0xA0] 0 3).host = [] ∧ step (writerAt [0xA0] 0 3) = .next (writerAt [0xA0] 0 3) := ⟨rfl, rfl⟩
theorem witness_ResetSatisfies : (Capacity.bytes 1#32).wellFormed = true := by decide
theorem witness_EveryStepKeeps :
    (withHost (writerAt [0xA0] 0 3) [.command ⟨0x0C09000001FF#48, []⟩]).Inv ∧
    step (withHost (writerAt [0xA0] 0 3) [.command ⟨0x0C09000001FF#48, []⟩]) =
      .next (after (.emit 9#8 0x1FF#32) (writerAt [0xA0] 0 3)) := ⟨by decide, rfl⟩
theorem witness_EveryStepLeaves :
    (withHost (readerAt [0xA5] 0 3) [.command ⟨0x130000000000#48, []⟩]).RspInv ∧
    step (withHost (readerAt [0xA5] 0 3) [.command ⟨0x130000000000#48, []⟩]) =
      .next (after .collectByte (readerAt [0xA5] 0 3)) := ⟨by decide, rfl⟩
theorem witness_NoStepFaults_ill_formed :
    (withHost State.reset [.command ⟨0x130000000000#48, [0x00#8]⟩]).Inv ∧
    step (withHost State.reset [.command ⟨0x130000000000#48, [0x00#8]⟩]) = .refused .illFormedCommand :=
  ⟨by decide, rfl⟩
/-- 00_scope R11, 92 D7: the step goes on where `LEN` becomes `2^32`. -/
theorem witness_NoStepFaults_long :
    (withHost longWriter [.command ⟨0x0D0000000011#48, []⟩]).Inv ∧
    step (withHost longWriter [.command ⟨0x0D0000000011#48, []⟩]) = .next (after (.emitByte 0x11#8) longWriter) :=
  ⟨by decide, rfl⟩
theorem witness_EveryCommandGetsOneResponse_command :
    step (withHost State.reset [.command ⟨0x0A0000000000#48, []⟩]) = .next (after .hasMore State.reset) := rfl
theorem witness_EveryCommandGetsOneResponse_reset :
    step (withHost (writerAt [0xA0] 0 3) [.reset none]) = .next State.reset := rfl
theorem witness_StaleBytes :
    (withHost (writerAt [0x00] 0 0) [.command ⟨0x0D0000000011#48, []⟩]).Inv ∧
    (withHost staleWriter [.command ⟨0x0D0000000011#48, []⟩]).Inv ∧
    (withHost (writerAt [0x00] 0 0) [.command ⟨0x0D0000000011#48, []⟩]).poisoned = false ∧
    (withHost (writerAt [0x00] 0 0) [.command ⟨0x0D0000000011#48, []⟩]).SameValid
      (withHost staleWriter [.command ⟨0x0D0000000011#48, []⟩]) ∧
    step (withHost (writerAt [0x00] 0 0) [.command ⟨0x0D0000000011#48, []⟩]) =
      .next (after (.emitByte 0x11#8) (writerAt [0x00] 0 0)) ∧
    (after (.emitByte 0x11#8) (writerAt [0x00] 0 0)).poisoned = false ∧ staleWriter ≠ writerAt [0x00] 0 0 := by
  refine ⟨?_, ?_, ?_, ?_, rfl, ?_, ?_⟩ <;> decide
theorem witness_UnboundedStore :
    longWriter.Inv ∧ longWriter.poisoned = false ∧ (Instr.emitByte 1#8).payloadWellFormed longWriter.din = true ∧
    longWriter.cap = .unbounded ∧ firstStatus (.emitByte 1#8) longWriter = .ok ∧
    undefinedCond (.emitByte 1#8) longWriter = false ∧ neededLen (.emitByte 1#8) longWriter = 2 ^ 32 := by
  refine ⟨?_, ?_, ?_, ?_, ?_, ?_, ?_⟩ <;> decide
theorem witness_UnboundedStore_completes :
    exec (.emitByte 1#8) longWriter = .next (after (.emitByte 1#8) longWriter) ∧
    (after (.emitByte 1#8) longWriter).poisoned = false ∧ (after (.emitByte 1#8) longWriter).len = 2 ^ 32 ∧
    (after (.emitByte 1#8) longWriter).rsp = some (Response.okay 0#32 []) := ⟨rfl, by decide, by decide, by decide⟩
theorem witness_FirstFault :
    (readerAt [0xA5] 0 3).Inv ∧ (readerAt [0xA5] 0 3).poisoned = false ∧
    Instr.collectDword.payloadWellFormed (readerAt [0xA5] 0 3).din = true ∧
    firstStatus .collectDword (readerAt [0xA5] 0 3) = .alignmentViolation := by decide
theorem witness_FirstFault_ok :
    firstStatus (.deappend 3#32) (readerAt [1, 2, 3] 0 0) = .ok ∧
    undefinedCond (.deappend 3#32) (readerAt [1, 2, 3] 0 0) = false ∧
    (readerAt [1, 2, 3] 0 0).Inv := by decide
theorem witness_FirstFault_order :
    firstStatus (.emit 0#8 1#32) (readerAt [0xA5] 0 3) = .invalidParameter ∧
    firstStatus (.emit 1#8 1#32) (readerAt [0xA5] 0 3) = .wrongMode ∧
    firstStatus .collectByte (readerAt [0xA5] 1 0) = .overrun ∧
    firstStatus .alignW fullWriter = .capacityExceeded ∧ fullWriter.Inv := by decide
theorem witness_FirstFault_illegal :
    (withHost State.reset [.command ⟨0x160000000000#48, []⟩]).poisoned = false ∧
    decode 0x160000000000#48 = .error (.reservedOpcode 0x16#8) := ⟨rfl, rfl⟩
theorem witness_FaultsLeaveNoTrace_fault :
    exec .collectByte (readerAt [0xA5] 0 3) = .next (after .collectByte (readerAt [0xA5] 0 3)) ∧
    (after .collectByte (readerAt [0xA5] 0 3)).poisoned = false ∧
    (after .collectByte (readerAt [0xA5] 0 3)).rsp = some ⟨.alignmentViolation, 0#32, [], 1#32, 0#32, 3#4⟩ :=
  ⟨rfl, by decide, by decide⟩
theorem witness_FaultsLeaveNoTrace_idle :
    exec .buffer State.reset = .next (after .buffer State.reset) ∧ (after .buffer State.reset).poisoned = false ∧
    (after .buffer State.reset).rsp = some ⟨.wrongMode, 0#32, [], 0#32, 0#32, 0#4⟩ ∧ State.reset.Inv ∧
    State.reset.mode = .idle := ⟨rfl, by decide, by decide, by decide, by decide⟩
theorem witness_FaultsLeaveNoTrace_ok :
    exec .hasMore (readerAt [0xA5] 0 3) = .next (after .hasMore (readerAt [0xA5] 0 3)) ∧
    (after .hasMore (readerAt [0xA5] 0 3)).rsp = some (Response.okay 0#32 []) := ⟨rfl, by decide⟩
theorem witness_FaultsLeaveNoTrace_step :
    (withHost (readerAt [0xA5] 0 3) [.command ⟨0x122100000001#48, []⟩]).host = .command ⟨0x122100000001#48, []⟩ :: [] ∧
    step (withHost (readerAt [0xA5] 0 3) [.command ⟨0x122100000001#48, []⟩]) =
      .next ((readerAt [0xA5] 0 3).setRsp (faultResponse .illegalCommand (readerAt [0xA5] 0 3))) := ⟨rfl, rfl⟩
theorem witness_InvalidParameter :
    (readerAt [0xA5] 0 3).poisoned = false ∧ ((0#8).toNat = 0 ∨ 33 ≤ (0#8).toNat) ∧
    ((33#8).toNat = 0 ∨ 33 ≤ (33#8).toNat) := by decide
theorem witness_InvalidParameter_raised :
    exec (.emit 0#8 1#32) (readerAt [0xA5] 0 3) = .next (after (.emit 0#8 1#32) (readerAt [0xA5] 0 3)) ∧ (after (.emit 0#8 1#32) (readerAt [0xA5] 0 3)).poisoned = false ∧
    (after (.emit 0#8 1#32) (readerAt [0xA5] 0 3)).rsp = some (faultResponse .invalidParameter (readerAt [0xA5] 0 3)) := ⟨rfl, by decide, by decide⟩
theorem witness_WrongMode :
    (Instr.appendBytes 1#32).payloadWellFormed (withDin (readerAt [0xA5] 0 3) [7]).din = true ∧
    (Instr.appendBytes 1#32).mnemonic.capClass = .writer ∧ (withDin (readerAt [0xA5] 0 3) [7]).mode ≠ .writer ∧
    Instr.alignR.mnemonic.capClass = .reader ∧ (writerAt [0xA0] 0 3).mode ≠ .reader ∧
    Instr.hasMore.mnemonic.capClass = .both ∧ State.reset.mode = .idle := by decide
theorem witness_WrongMode_raised :
    exec (.emit 1#8 1#32) (readerAt [0xA5] 0 3) = .next (after (.emit 1#8 1#32) (readerAt [0xA5] 0 3)) ∧ (after (.emit 1#8 1#32) (readerAt [0xA5] 0 3)).poisoned = false ∧
    (after (.emit 1#8 1#32) (readerAt [0xA5] 0 3)).rsp = some (faultResponse .wrongMode (readerAt [0xA5] 0 3)) := ⟨rfl, by decide, by decide⟩
theorem witness_AlignmentViolation :
    (readerAt [0xA5] 0 1).mode = .reader ∧ (readerAt [0xA5] 0 1).bitOffset.val ≠ 0 ∧ (readerAt [0xA5] 0 7).bitOffset.val ≠ 8 ∧
    (withDin (writerAt [0x80] 0 1) [7]).din.length = (1#32).toNat ∧ (withDin (writerAt [0x80] 0 1) [7]).mode = .writer := by
  decide
theorem witness_AlignmentViolation_raised :
    exec (.collectByte) (readerAt [0xA5] 0 3) = .next (after (.collectByte) (readerAt [0xA5] 0 3)) ∧ (after (.collectByte) (readerAt [0xA5] 0 3)).poisoned = false ∧
    (after (.collectByte) (readerAt [0xA5] 0 3)).rsp = some (faultResponse .alignmentViolation (readerAt [0xA5] 0 3)) := ⟨rfl, by decide, by decide⟩
theorem witness_Overrun :
    (readerAt [1, 2, 3, 4] 4 0).bitOffset.val = 0 ∧
    (readerAt [1, 2, 3, 4] 4 0).len ≤ (readerAt [1, 2, 3, 4] 4 0).byteIndex ∧
    (readerAt [1, 2, 3, 4] 3 0).len < (readerAt [1, 2, 3, 4] 3 0).byteIndex + 2 ∧
    (readerAt [1, 2, 3, 4] 1 0).len < (readerAt [1, 2, 3, 4] 1 0).byteIndex + 4 ∧
    8 * (readerAt [0xA5] 0 3).len < (readerAt [0xA5] 0 3).pos + (6#8).toNat := by decide
theorem witness_Overrun_raised :
    exec (.collect 6#8) (readerAt [0xA5] 0 3) = .next (after (.collect 6#8) (readerAt [0xA5] 0 3)) ∧ (after (.collect 6#8) (readerAt [0xA5] 0 3)).poisoned = false ∧
    (after (.collect 6#8) (readerAt [0xA5] 0 3)).rsp = some (faultResponse .overrun (readerAt [0xA5] 0 3)) := ⟨rfl, by decide, by decide⟩
theorem witness_CapacityExceeded :
    fullWriter.Inv ∧ wrongModeCond .alignW fullWriter = false ∧ alignmentCond .alignW fullWriter = false ∧
    capacityCond .alignW fullWriter = true ∧ capacityCond (.emit 1#8 0#32) fullWriter = true := by decide
theorem witness_CapacityExceeded_raised :
    exec (.emitByte 0x77#8) (fullWriter) = .next (after (.emitByte 0x77#8) (fullWriter)) ∧ (after (.emitByte 0x77#8) (fullWriter)).poisoned = false ∧
    (after (.emitByte 0x77#8) (fullWriter)).rsp = some (faultResponse .capacityExceeded (fullWriter)) := ⟨rfl, by decide, by decide⟩
theorem witness_CommandAfterAFault :
    exec .collectWord (readerAt [0xA5] 1 0) = .next (after .collectWord (readerAt [0xA5] 1 0)) ∧
    (after .collectWord (readerAt [0xA5] 1 0)).poisoned = false ∧
    (after .collectWord (readerAt [0xA5] 1 0)).rsp = some ⟨.overrun, 0#32, [], 1#32, 1#32, 0#4⟩ :=
  ⟨rfl, by decide, by decide⟩
theorem witness_IdleAdmits :
    (withDin (State.resetWith (.bytes 1#32)) [0xA5]).Inv ∧
    (withDin (State.resetWith (.bytes 1#32)) [0xA5]).mode = .idle ∧
    (withDin (State.resetWith (.bytes 1#32)) [0xA5]).din.length = (1#32).toNat ∧
    capacityAdmits (.bytes 1#32) (1#32).toNat = true := by decide
theorem witness_IdleAdmits_others :
    (Instr.emit 0#8 1#32).mnemonic.capClass ≠ .any ∧ (Instr.emit 0#8 1#32).payloadWellFormed State.reset.din = true ∧
    invalidParameterCond (.emit 0#8 1#32) = true ∧ invalidParameterCond (.emit 32#8 1#32) = false ∧
    invalidParameterCond (.collect 33#8) = true := by decide
theorem witness_IdleAdmits_malformed :
    (withHost State.reset [.command ⟨0x000000000000#48, []⟩]).Inv ∧
    decode 0x000000000000#48 = .error (.reservedOpcode 0x00#8) := ⟨by decide, rfl⟩
theorem witness_CreateWriter :
    (marked (readerAt [0xA5] 0 3)).cap.wellFormed = true ∧ Store.wf (marked (readerAt [0xA5] 0 3)).store = true := by
  decide
theorem witness_CreateReader :
    (withDin fullWriter [0xA5]).din.length = (1#32).toNat ∧ Store.wf (withDin fullWriter [0xA5]).store = true ∧
    capacityAdmits (withDin fullWriter [0xA5]).cap (1#32).toNat = true := by decide
theorem witness_CreateReader_empty :
    (withDin fullWriter []).din.length = (0#32).toNat ∧ capacityAdmits (withDin fullWriter []).cap (0#32).toNat = true := by
  decide
theorem witness_CreateReader_too_long :
    (withDin fullWriter [1, 2]).din.length = (2#32).toNat ∧ Store.wf (withDin fullWriter [1, 2]).store = true ∧
    capacityAdmits (withDin fullWriter [1, 2]).cap (2#32).toNat = false ∧
    (withDin fullWriter [1, 2]).poisoned = false := by decide
/-- A writer at a byte boundary, for the statements on `BUFFER`, `ALIGN_W` and the write path. -/
theorem witness_writer_aligned :
    (writerAt [0x12, 0x00] 1 0).Inv ∧ (writerAt [0x12, 0x00] 1 0).poisoned = false ∧
    (writerAt [0x12, 0x00] 1 0).mode = .writer ∧ (writerAt [0x12, 0x00] 1 0).bitOffset = 0 ∧
    (writerAt [0x12, 0x00] 1 0).HasRoom 4 := by decide
/-- A writer off a byte boundary, for the same statements. -/
theorem witness_writer_misaligned :
    (writerAt [0xA0] 0 3).Inv ∧ (writerAt [0xA0] 0 3).poisoned = false ∧ (writerAt [0xA0] 0 3).mode = .writer ∧
    (writerAt [0xA0] 0 3).bitOffset ≠ 0 ∧ (writerAt [0xA0] 0 3).HasRoom 4 := by decide
/-- A full writer off a byte boundary: no room for one byte, so none for two or four. -/
theorem witness_writer_full :
    fullWriter.Inv ∧ fullWriter.poisoned = false ∧ fullWriter.mode = .writer ∧ fullWriter.bitOffset ≠ 0 ∧
    capacityAdmits fullWriter.cap (fullWriter.len + 1) = false ∧
    capacityAdmits fullWriter.cap (fullWriter.len + 2) = false ∧
    capacityAdmits fullWriter.cap (fullWriter.len + 4) = false := by
  refine ⟨?_, ?_, ?_, ?_, ?_, ?_, ?_⟩ <;> decide
/-- A reader that is not in `IDLE`, for the views, the accessors, `HAS_MORE`, `ALIGN_R` and `COLLECT_ALL`. -/
theorem witness_reader :
    (readerAt [0xA5, 0x3C] 1 3).Inv ∧ (readerAt [0xA5, 0x3C] 1 3).poisoned = false ∧
    (readerAt [0xA5, 0x3C] 1 3).mode = .reader ∧ (readerAt [0xA5, 0x3C] 1 3).mode ≠ .idle := by decide
/-- The empty reader, for the same statements. -/
theorem witness_reader_empty : (readerAt [] 0 0).Inv ∧ (readerAt [] 0 0).mode = .reader := by decide
theorem witness_ReadOuts :
    Instr.hasMore ∈ [Instr.buffer, .rawview, .getByteIndex, .getBitOffset, .hasMore] ∧
    (readerAt [0xA5] 0 3).poisoned = false ∧
    exec .hasMore (readerAt [0xA5] 0 3) = .next (after .hasMore (readerAt [0xA5] 0 3)) := ⟨by decide, rfl, rfl⟩
theorem witness_AppendBytes :
    (withDin (writerAt [0xAA, 0x00] 1 0) [1, 2, 3]).Inv ∧
    (withDin (writerAt [0xAA, 0x00] 1 0) [1, 2, 3]).din.length = (3#32).toNat ∧
    (withDin (writerAt [0xAA, 0x00] 1 0) [1, 2, 3]).bitOffset = 0 ∧
    (withDin (writerAt [0xAA, 0x00] 1 0) [1, 2, 3]).HasRoom (3#32).toNat := by decide
theorem witness_AppendBytes_misaligned :
    (withDin (writerAt [0xA0] 0 3) []).Inv ∧ (withDin (writerAt [0xA0] 0 3) []).din.length = (0#32).toNat ∧
    (withDin (writerAt [0xA0] 0 3) []).bitOffset ≠ 0 := by decide
theorem witness_AppendBytes_full :
    (withDin (engineAt .writer (.bytes 1#32) [0x00] 0 0) [1]).Inv ∧
    (withDin (engineAt .writer (.bytes 1#32) [0x00] 0 0) [1]).din.length = (1#32).toNat ∧
    (withDin (engineAt .writer (.bytes 1#32) [0x00] 0 0) [1]).bitOffset = 0 ∧
    capacityAdmits (.bytes 1#32) ((withDin (engineAt .writer (.bytes 1#32) [0x00] 0 0) [1]).len + (1#32).toNat) =
      false := by decide
theorem witness_Emit :
    (writerAt [0xFE] 0 7).Inv ∧ (writerAt [0xFE] 0 7).mode = .writer ∧ (1 : Nat) ≤ (32#8).toNat ∧ (32#8).toNat ≤ 32 ∧
    (writerAt [0xFE] 0 7).HasRoom (((writerAt [0xFE] 0 7).bitOffset.val + (32#8).toNat) / 8) := by decide
theorem witness_Emit_twice :
    (writerAt [0x00] 0 0).Inv ∧ (3#8).toNat + (29#8).toNat ≤ 32 ∧
    exec (.emit 3#8 5#32) (writerAt [0x00] 0 0) = .next (after (.emit 3#8 5#32) (writerAt [0x00] 0 0)) ∧
    (after (.emit 3#8 5#32) (writerAt [0x00] 0 0)).rsp = some (Response.okay 0#32 []) ∧
    exec (.emit 29#8 0x1FF#32) (after (.emit 3#8 5#32) (writerAt [0x00] 0 0)) =
      .next (after (.emit 29#8 0x1FF#32) (after (.emit 3#8 5#32) (writerAt [0x00] 0 0))) ∧
    (after (.emit 29#8 0x1FF#32) (after (.emit 3#8 5#32) (writerAt [0x00] 0 0))).rsp = some (Response.okay 0#32 []) :=
  ⟨by decide, by decide, rfl, by decide, rfl, by decide⟩
theorem witness_EmitFaults :
    ((0#8).toNat = 0 ∨ 33 ≤ (0#8).toNat) ∧ ((33#8).toNat = 0 ∨ 33 ≤ (33#8).toNat) ∧
    ((255#8).toNat = 0 ∨ 33 ≤ (255#8).toNat) ∧ (readerAt [0xA5] 0 0).mode ≠ .writer ∧
    (readerAt [0xA5] 0 0).poisoned = false := by decide
theorem witness_EmitFaults_full :
    fullWriter.poisoned = false ∧ fullWriter.mode = .writer ∧ fullWriter.bitOffset.val ≤ 7 ∧ (1 : Nat) ≤ (1#8).toNat ∧
    (1#8).toNat ≤ 32 ∧
    capacityAdmits fullWriter.cap (fullWriter.len + (fullWriter.bitOffset.val + (1#8).toNat) / 8) = false := by
  decide
theorem witness_WriteCommands_append :
    (withDin (writerAt [0x00] 0 0) [1, 2]).Inv ∧ (withDin (writerAt [0x00] 0 0) [1, 2]).bitOffset = 0 ∧
    (withDin (writerAt [0x00] 0 0) [1, 2]).din.length = (2#32).toNat ∧
    (withDin (writerAt [0x00] 0 0) [1, 2]).HasRoom (2#32).toNat := by decide
/-- The spec's own example, 42_write_path R109 (b): a writer at position 3 with byte 0 at 0xA0. -/
theorem witness_WriteCommands_misaligned :
    (writerAt [0xA0] 0 3).Inv ∧ (writerAt [0xA0] 0 3).pos = 3 ∧ Store.read (writerAt [0xA0] 0 3).store 0 = 0xA0#8 ∧
    (writerAt [0xA0] 0 3).bitOffset ≠ 0 ∧ (writerAt [0xA0] 0 3).HasRoom 1 ∧
    exec (.emit 8#8 ((0x0F#8 : BitVec 8).zeroExtend 32)) (writerAt [0xA0] 0 3) =
      .next (after (.emit 8#8 0x0F#32) (writerAt [0xA0] 0 3)) ∧
    exec (.emitByte 0x0F#8) (writerAt [0xA0] 0 3) = .next (after (.emitByte 0x0F#8) (writerAt [0xA0] 0 3)) :=
  ⟨by decide, by decide, by decide, by decide, by decide, rfl, rfl⟩
theorem witness_WriteCommands_word :
    (writerAt [0xA0] 0 3).HasRoom 2 ∧
    exec (.emitByte ((0x1234#16).extractLsb' 8 8)) (writerAt [0xA0] 0 3) =
      .next (after (.emitByte 0x12#8) (writerAt [0xA0] 0 3)) ∧
    exec (.emitByte ((0x1234#16).extractLsb' 0 8)) (after (.emitByte 0x12#8) (writerAt [0xA0] 0 3)) =
      .next (after (.emitByte 0x34#8) (after (.emitByte 0x12#8) (writerAt [0xA0] 0 3))) := ⟨by decide, rfl, rfl⟩
theorem witness_WriteCommands_dword :
    (writerAt [0xA0] 0 3).HasRoom 4 ∧
    exec (.emitWord ((0x12345678#32).extractLsb' 16 16)) (writerAt [0xA0] 0 3) =
      .next (after (.emitWord 0x1234#16) (writerAt [0xA0] 0 3)) ∧
    exec (.emitWord ((0x12345678#32).extractLsb' 0 16)) (after (.emitWord 0x1234#16) (writerAt [0xA0] 0 3)) =
      .next (after (.emitWord 0x5678#16) (after (.emitWord 0x1234#16) (writerAt [0xA0] 0 3))) := ⟨by decide, rfl, rfl⟩
/-- R172's numbers: on one byte of capacity the eighth bit finds no room, on two it does. -/
theorem witness_EmitNeedsRoom :
    fullWriter.Inv ∧ fullWriter.cap = .bytes 1#32 ∧ ¬ (fullWriter.pos + (1#8).toNat) / 8 + 1 ≤ (1#32).toNat ∧
    (engineAt .writer (.bytes 2#32) [0xFE] 0 7).Inv ∧
    ((engineAt .writer (.bytes 2#32) [0xFE] 0 7).pos + (1#8).toNat) / 8 + 1 ≤ (2#32).toNat := by
  refine ⟨?_, ?_, ?_, ?_, ?_⟩ <;> decide
theorem witness_RawExtracts :
    (readerAt [1, 2, 3] 1 0).Inv ∧ (readerAt [1, 2, 3] 1 0).poisoned = false ∧ (readerAt [1, 2, 3] 1 0).mode = .reader ∧
    (readerAt [1, 2, 3] 1 0).bitOffset = 0 ∧
    (readerAt [1, 2, 3] 1 0).byteIndex + (2#32).toNat ≤ (readerAt [1, 2, 3] 1 0).len := by decide
theorem witness_RawExtracts_misaligned :
    (readerAt [0xA5] 0 3).poisoned = false ∧ (readerAt [0xA5] 0 3).mode = .reader ∧ (readerAt [0xA5] 0 3).bitOffset ≠ 0 := by
  decide
theorem witness_RawExtractPastTheEnd :
    (readerAt [1, 2, 3] 1 0).poisoned = false ∧ (readerAt [1, 2, 3] 1 0).mode = .reader ∧
    (readerAt [1, 2, 3] 1 0).bitOffset = 0 ∧
    (readerAt [1, 2, 3] 1 0).len < (readerAt [1, 2, 3] 1 0).byteIndex + (3#32).toNat := by decide
theorem witness_MarkedRun_stays :
    (marked (readerAt [0xA5] 0 0)).poisoned = true ∧
    exec .collectByte (marked (readerAt [0xA5] 0 0)) = .next (marked (readerAt [0xA5] 0 0)).poison ∧
    (marked (readerAt [0xA5] 0 0)).poison.poisoned = true := ⟨rfl, rfl, rfl⟩
theorem witness_MarkedRun_ends :
    (marked (readerAt [0xA5] 0 0)).Inv ∧
    exec .createWriter (marked (readerAt [0xA5] 0 0)) = .next (after .createWriter (marked (readerAt [0xA5] 0 0))) ∧
    (after .createWriter (marked (readerAt [0xA5] 0 0))).poisoned = false := ⟨by decide, rfl, by decide⟩
theorem witness_MarkedRun_reader :
    (withDin (marked (readerAt [0xA5] 0 0)) [7]).Inv ∧
    capacityAdmits (withDin (marked (readerAt [0xA5] 0 0)) [7]).cap (1#32).toNat = true ∧
    exec (.createReader 1#32) (withDin (marked (readerAt [0xA5] 0 0)) [7]) =
      .next (after (.createReader 1#32) (withDin (marked (readerAt [0xA5] 0 0)) [7])) := ⟨by decide, by decide, rfl⟩
theorem witness_Collect :
    (readerAt [0x01, 0xFF, 0xFF, 0xFF, 0xFE] 0 7).Inv ∧ (1 : Nat) ≤ (32#8).toNat ∧ (32#8).toNat ≤ 32 ∧
    (readerAt [0x01, 0xFF, 0xFF, 0xFF, 0xFE] 0 7).pos + (32#8).toNat ≤
      8 * (readerAt [0x01, 0xFF, 0xFF, 0xFF, 0xFE] 0 7).len := by decide
theorem witness_Collect_to_the_end :
    (readerAt [0xA5] 0 3).Inv ∧ (readerAt [0xA5] 0 3).pos + (5#8).toNat = 8 * (readerAt [0xA5] 0 3).len := by
  decide
theorem witness_Collect_twice :
    (readerAt [0xA5] 0 0).Inv ∧ (readerAt [0xA5] 0 0).pos + (3#8).toNat + (5#8).toNat ≤ 8 * (readerAt [0xA5] 0 0).len ∧
    exec (.collect 3#8) (readerAt [0xA5] 0 0) = .next (after (.collect 3#8) (readerAt [0xA5] 0 0)) ∧
    (after (.collect 3#8) (readerAt [0xA5] 0 0)).rsp = some (Response.okay 5#32 []) ∧
    exec (.collect 5#8) (after (.collect 3#8) (readerAt [0xA5] 0 0)) =
      .next (after (.collect 5#8) (after (.collect 3#8) (readerAt [0xA5] 0 0))) ∧
    (after (.collect 5#8) (after (.collect 3#8) (readerAt [0xA5] 0 0))).rsp = some (Response.okay 5#32 []) :=
  ⟨by decide, by decide, rfl, by decide, rfl, by decide⟩
theorem witness_CollectFaults :
    (writerAt [0x00] 0 0).mode ≠ .reader ∧ (readerAt [0xA5] 0 3).mode = .reader ∧ (1 : Nat) ≤ (6#8).toNat ∧
    (6#8).toNat ≤ 32 ∧ 8 * (readerAt [0xA5] 0 3).len < (readerAt [0xA5] 0 3).pos + (6#8).toNat := by decide
/-- A reader with exactly four bytes, for `COLLECT_BYTE`, `COLLECT_WORD` and `COLLECT_DWORD`. -/
theorem witness_reader_of_four :
    (readerAt [1, 2, 3, 4] 0 0).Inv ∧ (readerAt [1, 2, 3, 4] 0 0).poisoned = false ∧
    (readerAt [1, 2, 3, 4] 0 0).mode = .reader ∧ (readerAt [1, 2, 3, 4] 0 0).bitOffset = 0 ∧
    (readerAt [1, 2, 3, 4] 0 0).byteIndex + 4 ≤ (readerAt [1, 2, 3, 4] 0 0).len := by decide
/-- The same at the end: one byte short for the two wider ones at index 3, none left at index 4. -/
theorem witness_reader_at_the_end :
    (readerAt [1, 2, 3, 4] 4 0).Inv ∧ (readerAt [1, 2, 3, 4] 4 0).len ≤ (readerAt [1, 2, 3, 4] 4 0).byteIndex ∧
    (readerAt [1, 2, 3, 4] 3 0).Inv ∧
    (readerAt [1, 2, 3, 4] 3 0).len < (readerAt [1, 2, 3, 4] 3 0).byteIndex + 2 ∧
    (readerAt [1, 2, 3, 4] 1 0).len < (readerAt [1, 2, 3, 4] 1 0).byteIndex + 4 := by
  refine ⟨?_, ?_, ?_, ?_, ?_⟩ <;> decide
/-- Off a byte boundary. -/
theorem witness_reader_misaligned :
    (readerAt [1, 2, 3, 4] 0 7).Inv ∧ (readerAt [1, 2, 3, 4] 0 7).mode = .reader ∧
    (readerAt [1, 2, 3, 4] 0 7).bitOffset ≠ 0 := by decide
/-- A round trip through `BUFFER`, for the four writing commands. -/
theorem witness_RoundTrip_buffer :
    (writerAt [0x00] 0 0).Inv ∧ (readerAt [0xA0] 0 0).Inv ∧ (readerAt [0x12, 0x34] 0 0).Inv ∧
    (after .buffer (after (.emit 3#8 5#32) (writerAt [0x00] 0 0))).rsp = some (Response.okay 1#32 [0xA0#8]) ∧
    (after .buffer (after (.emitByte 0xAA#8) (writerAt [0x00] 0 0))).rsp = some (Response.okay 1#32 [0xAA#8]) ∧
    (after .buffer (after (.emitWord 0x1234#16) (writerAt [0x00] 0 0))).rsp =
      some (Response.okay 2#32 [0x12#8, 0x34#8]) ∧
    (readerAt [0x12, 0x34] 0 0).bytesFrom 0 2 = [0x12#8, 0x34#8] ∧
    (readerAt [0x12, 0x34] 0 0).pos = (writerAt [0x00] 0 0).pos := by
  refine ⟨?_, ?_, ?_, ?_, ?_, ?_, ?_, ?_⟩ <;> decide
/-- A round trip through `RAWVIEW`, with the staging byte. -/
theorem witness_RoundTrip_rawview :
    exec (.emitDword 0x12345678#32) (writerAt [0x00] 0 0) = .next (after (.emitDword 0x12345678#32) (writerAt [0x00] 0 0)) ∧
    (after (.emitDword 0x12345678#32) (writerAt [0x00] 0 0)).rsp = some (Response.okay 0#32 []) ∧
    exec .rawview (after (.emitDword 0x12345678#32) (writerAt [0x00] 0 0)) =
      .next (after .rawview (after (.emitDword 0x12345678#32) (writerAt [0x00] 0 0))) ∧
    (after .rawview (after (.emitDword 0x12345678#32) (writerAt [0x00] 0 0))).rsp =
      some (Response.okay 5#32 [0x12#8, 0x34#8, 0x56#8, 0x78#8, 0x00#8]) ∧
    (readerAt [0x12, 0x34, 0x56, 0x78, 0x00] 0 0).Inv ∧
    (readerAt [0x12, 0x34, 0x56, 0x78, 0x00] 0 0).bytesFrom 0 5 = [0x12#8, 0x34#8, 0x56#8, 0x78#8, 0x00#8] ∧
    (readerAt [0x12, 0x34, 0x56, 0x78, 0x00] 0 0).pos = (writerAt [0x00] 0 0).pos :=
  ⟨rfl, by decide, rfl, by decide, by decide, by decide, by decide⟩
theorem witness_ReadPath :
    Instr.collectAll.mnemonic.capClass = .reader ∧
    exec .collectAll (readerAt [0xA5, 0x3C] 0 3) = .next (after .collectAll (readerAt [0xA5, 0x3C] 0 3)) :=
  ⟨by decide, rfl⟩
theorem witness_OnlyConstruction :
    exec (.emit 3#8 5#32) (writerAt [0x00] 0 0) = .next (after (.emit 3#8 5#32) (writerAt [0x00] 0 0)) := rfl
theorem witness_StreamPosition :
    (writerAt [0xA0] 0 3).Inv ∧ (after .alignW (writerAt [0xA0] 0 3)).poisoned = false ∧
    Instr.alignW.mnemonic.capClass ≠ .any ∧ exec .alignW (writerAt [0xA0] 0 3) = .next (after .alignW (writerAt [0xA0] 0 3)) :=
  ⟨by decide, by decide, by decide, rfl⟩

end Sys2Proof.Tests
end

section
/-! PROOFS. The step at a well-formed command pair, and a command as its checks and its body: which first fault it
reports, when its body reaches its end, and everything it can do (00_scope R11, R15; 60_exceptions R140). -/

namespace Sys2Proof.Machine

/-! ### The fetch -/

/-- A well-formed command pair is delivered as its decoded command (30_encoding R60, R64). -/
theorem fetch_eq_run (s : State) (c : Command) (rest : List HostEvent) (i : Instr) (hhost : s.host = .command c :: rest)
    (hdec : decode c.word = .ok i) (hwf : i.payloadWellFormed c.payload = true) :
    fetch s = .run i (s.accept c.payload rest) := by
  simp only [fetch, hhost, hdec, hwf, if_true]

theorem step_of_fetch_run (s t : State) (i : Instr) (h : fetch s = .run i t) : step s = exec i t := by
  simp only [step, h]

/-! ### The leading checks as fault conditions -/

/-- No capacity refuses an empty store, so a command that asks for no byte never exceeds it. -/
@[simp] theorem capacityAdmits_zero (c : Capacity) : capacityAdmits c 0 = true := by
  cases c <;> simp [capacityAdmits]

theorem numBitsValid_iff (n : Nat) : numBitsValid n = true ↔ 1 ≤ n ∧ n ≤ 32 := by
  simp [numBitsValid]

theorem whenDefined_of_defined (s : State) (k : Outcome) (h : s.poisoned = false) : whenDefined s k = k := by
  simp [whenDefined, h]

theorem whenDefined_of_poisoned (s : State) (k : Outcome) (h : s.poisoned = true) :
    whenDefined s k = .next s.poison := by
  simp [whenDefined, h]

theorem whenNumBits_eq_ite (n : Nat) (s : State) (k : Outcome) :
    whenNumBits n s k = if (!numBitsValid n) = true then raise .invalidParameter s else k := by
  unfold whenNumBits; cases numBitsValid n <;> rfl

theorem whenClass_eq_ite (c : CapClass) (s : State) (k : Outcome) :
    whenClass c s k = if (!classAdmits c s.mode) = true then raise .wrongMode s else k := by
  unfold whenClass; cases classAdmits c s.mode <;> rfl

theorem whenAligned_eq_ite (b : Bool) (s : State) (k : Outcome) :
    whenAligned b s k = if (!b) = true then raise .alignmentViolation s else k := by
  unfold whenAligned; cases b <;> rfl

theorem whenNotShort_eq_ite (b : Bool) (s : State) (k : Outcome) :
    whenNotShort b s k = if b = true then raise .overrun s else k := rfl

theorem whenRoom_eq_ite (n : Nat) (s : State) (k : Outcome) :
    whenRoom n s k = if (!capacityAdmits s.cap n) = true then raise .capacityExceeded s else k := by
  unfold whenRoom; cases capacityAdmits s.cap n <;> rfl

/-- The growth of `EMIT` is the number of byte boundaries the cursor crosses, also from the sentinel offset 8. -/
theorem State.emitGrowth_eq (s : State) (n : Nat) : s.emitGrowth n = (s.bitOffset.val + n) / 8 := by
  unfold State.emitGrowth
  split <;> omega

theorem State.bytesShort_one (s : State) : s.bytesShort 1 = decide (s.len ≤ s.byteIndex) := by
  simp [State.bytesShort]

/-- The test of 43_read_path R117 by subtraction is the one of 60_exceptions R134 by stream position, for at least one
bit. -/
theorem State.bitsShort_eq (s : State) (n : Nat) (hn : 1 ≤ n) : s.bitsShort n = decide (8 * s.len < s.pos + n) := by
  rw [State.bitsShort, ← Bool.decide_or, decide_eq_decide, State.pos]
  omega

theorem withPayload_of_length (k : BitVec 32) (s : State) (body : List Byte → Outcome) (h : s.din.length = k.toNat) :
    withPayload k s body = body s.din := by
  simp only [withPayload, payloadOperand, h, if_true]

/-! ### The first fault -/

theorem firstStatus_eq_ok_iff (i : Instr) (s : State) : firstStatus i s = .ok ↔
    invalidParameterCond i = false ∧ wrongModeCond i s = false ∧ alignmentCond i s = false ∧
    overrunCond i s = false ∧ capacityCond i s = false := by
  unfold firstStatus
  split_ifs <;> simp_all

/-- With `CAP` unbounded no command is asked for more than there is (00_scope R11). -/
theorem firstStatus_ne_capacityExceeded (i : Instr) (s : State) (hcap : s.cap = .unbounded) :
    firstStatus i s ≠ .capacityExceeded := by
  have hroom : capacityCond i s = false := by simp [capacityCond, hcap, capacityAdmits]
  unfold firstStatus
  split_ifs <;> simp_all

/-! ### A command as its checks and its body -/

/-- The payload on the data-in channel is as long as a form-`P` command asks (30_encoding R64). -/
def PayloadFits (i : Instr) (s : State) : Prop := i.mnemonic.form = .p → s.din.length = i.arg.toNat

theorem payloadFits_of_wellFormed (i : Instr) (s : State) (h : i.payloadWellFormed s.din = true) :
    PayloadFits i s := by
  intro hp
  simpa [Instr.payloadWellFormed, hp] using h

/-- Only a pair whose payload fits has a next state. -/
theorem payloadFits_of_exec (i : Instr) (s t : State) (h : exec i s = .next t) : PayloadFits i s := by
  cases i with
  | createReader k => exact fun _ => ((withPayload_eq_next _ _ _ _).mp h).1
  | appendBytes k => exact fun _ => ((withPayload_eq_next _ _ _ _).mp h).1
  | _ => exact fun hp => nomatch hp

/-- What a body without a result hands to `finish` (30_encoding R72). -/
def unitResult (r : Option State) : Option (State × Value × List Byte) := r.map fun t => (t, 0#32, [])

/-- What a body that returns a value hands to `finish` (30_encoding R72). -/
def valueResult (r : Option (Value × State)) : Option (State × Value × List Byte) := r.map fun (v, t) => (t, v, [])

/-- What a body that returns bytes hands to `finish`: the bytes, and their count as `RESULT` (30_encoding R72). -/
def bytesResult (r : Option (List Byte × State)) : Option (State × Value × List Byte) :=
  r.map fun (d, t) => (t, indexField d.length, d)

/-- What a command does once its checks have passed: the state it leaves, its `RESULT` and its bytes, or nothing where
it would leave the valid store. -/
def commandBody (i : Instr) (s : State) : Option (State × Value × List Byte) :=
  match i with
  | .createWriter => unitResult (createWriterBody s)
  | .createReader k => unitResult (createReaderBody k s.din s)
  | .buffer => bytesResult ((committedView s).map fun d => (d, s))
  | .rawview => bytesResult ((memReadRun s 0 s.len).map fun d => (d, s))
  | .getByteIndex => valueResult (some (indexField s.byteIndex, s))
  | .getBitOffset => valueResult (some (BitVec.ofNat 32 s.bitOffset.val, s))
  | .alignW => unitResult (if s.aligned0 then some s else alignWriteBody s)
  | .alignR => unitResult (some (alignReadBody s))
  | .collectAll => bytesResult ((remainingBytes (alignReadBody s)).map fun d => (d, alignReadBody s))
  | .hasMore => valueResult (some (if s.hasMoreBytes then 1#32 else 0#32, s))
  | .appendBytes _ => unitResult (appendBody s.din s)
  | .emit n v => unitResult (emitBits v (numBitsOperand n) s)
  | .emitByte v => unitResult (emitByteBody s v)
  | .emitWord v => unitResult (emitBytesBody s (wordBytes v))
  | .emitDword v => unitResult (emitBytesBody s (dwordBytes v))
  | .deconcat k | .deappend k => bytesResult (takeBytes s (countOperand k))
  | .collect n => valueResult (collectBits (numBitsOperand n) 0#32 s)
  | .collectByte => valueResult (takeValue s ((memRead s s.byteIndex).map fun b => b.zeroExtend 32) 1)
  | .collectWord => valueResult (takeValue s (readWordAt s s.byteIndex) 2)
  | .collectDword => valueResult (takeValue s (readDwordAt s s.byteIndex) 4)

/-- A command whose checks have passed: its body, or the undefined raw extract (60_exceptions R135). -/
def runBody (i : Instr) (s : State) : Outcome :=
  if undefinedCond i s = true then .next s.poison else finish (commandBody i s)

/-- A command as the rules order it (60_exceptions R140): the first fault, or the body where there is none. -/
def checkedRun (i : Instr) (s : State) : Outcome :=
  if firstStatus i s = .ok then runBody i s else raise (firstStatus i s) s

/-- The checks one after the other, in the order of 60_exceptions R140. -/
theorem checkedRun_eq_ite (i : Instr) (s : State) : checkedRun i s =
    if invalidParameterCond i = true then raise .invalidParameter s
    else if wrongModeCond i s = true then raise .wrongMode s
    else if alignmentCond i s = true then raise .alignmentViolation s
    else if overrunCond i s = true then raise .overrun s
    else if capacityCond i s = true then raise .capacityExceeded s
    else runBody i s := by
  unfold checkedRun firstStatus
  split_ifs <;> simp_all


/-- A command that asks for no byte meets no capacity check. -/
theorem capacityCond_of_no_growth (i : Instr) (s : State) (h : neededLen i s = 0) : capacityCond i s = false := by
  rw [capacityCond, h, capacityAdmits_zero]
  rfl

theorem rawExtract_eq_ite (n : Nat) (s : State) : rawExtract n s =
    if (!s.aligned0) = true then raise .alignmentViolation s
    else if s.bytesShort n = true then .next s.poison else finishBytes (takeBytes s n) :=
  whenAligned_eq_ite _ s _

/-- `ALIGN_W`: off a byte boundary it asks for one more byte, at one for none. -/
theorem execAlignW_eq (s : State) (hp : s.poisoned = false) : execAlignW s = checkedRun .alignW s := by
  rw [checkedRun_eq_ite, execAlignW, whenDefined_of_defined s _ hp, whenClass_eq_ite, whenRoom_eq_ite]
  by_cases h0 : s.aligned0 = true
  · have hneed : neededLen .alignW s = 0 := if_pos (beq_iff_eq.mp h0)
    rw [capacityCond_of_no_growth _ _ hneed, if_pos h0]
    simp only [runBody, commandBody, if_pos h0]
    rfl
  · have hneed : neededLen .alignW s = s.len + 1 := if_neg fun h => h0 (beq_iff_eq.mpr h)
    simp only [capacityCond, hneed, runBody, commandBody, if_neg h0]
    rfl

/-- `COLLECT`: with a legal width its test of the bits that remain is the one by stream position. -/
theorem execCollect_eq (n : BitVec 8) (s : State) (hp : s.poisoned = false) :
    execCollect n s = checkedRun (.collect n) s := by
  rw [checkedRun_eq_ite, execCollect, whenDefined_of_defined s _ hp, whenNumBits_eq_ite, whenClass_eq_ite,
    whenNotShort_eq_ite, capacityCond_of_no_growth _ _ rfl]
  cases hn : numBitsValid (numBitsOperand n) with
  | false => simp only [invalidParameterCond, show numBitsValid n.toNat = false from hn]; rfl
  | true =>
    rw [s.bitsShort_eq _ ((numBitsValid_iff _).mp hn).1]
    simp only [invalidParameterCond, show numBitsValid n.toNat = true from hn]
    rfl

/-- In a defined run a command whose payload fits is its checks, in the order of 60_exceptions R140, and then its
body. -/
theorem exec_eq_checkedRun (i : Instr) (s : State) (hp : s.poisoned = false) (hpay : PayloadFits i s) :
    exec i s = checkedRun i s := by
  have hdef : ∀ k, whenDefined s k = k := fun k => whenDefined_of_defined s k hp
  cases i with
  | alignW => exact execAlignW_eq s hp
  | collect n => exact execCollect_eq n s hp
  | createWriter =>
    rw [checkedRun_eq_ite, capacityCond_of_no_growth _ _ rfl]
    rfl
  | createReader k =>
    rw [checkedRun_eq_ite]
    refine (withPayload_of_length k s _ (hpay rfl)).trans ?_
    rw [hdef]
    exact whenRoom_eq_ite (countOperand k) s _
  | buffer | rawview | getByteIndex | getBitOffset | alignR | collectAll | hasMore =>
    rw [checkedRun_eq_ite, capacityCond_of_no_growth _ _ rfl]
    exact (hdef _).trans (whenClass_eq_ite _ s _)
  | appendBytes k =>
    rw [checkedRun_eq_ite]
    refine (withPayload_of_length k s _ (hpay rfl)).trans ((hdef _).trans ?_)
    rw [whenClass_eq_ite, whenAligned_eq_ite, whenRoom_eq_ite]
    rfl
  | emit n v =>
    rw [checkedRun_eq_ite]
    refine (hdef _).trans ?_
    rw [whenNumBits_eq_ite, whenClass_eq_ite, whenRoom_eq_ite, State.emitGrowth_eq]
    rfl
  | emitByte v | emitWord v | emitDword v =>
    rw [checkedRun_eq_ite]
    refine (hdef _).trans ?_
    rw [whenClass_eq_ite, whenRoom_eq_ite]
    rfl
  | deconcat k | deappend k =>
    rw [checkedRun_eq_ite, capacityCond_of_no_growth _ _ rfl]
    refine (hdef _).trans ?_
    rw [whenClass_eq_ite, rawExtract_eq_ite]
    rfl
  | collectByte =>
    rw [checkedRun_eq_ite, capacityCond_of_no_growth _ _ rfl]
    refine (hdef _).trans ?_
    rw [whenClass_eq_ite, whenAligned_eq_ite, whenNotShort_eq_ite, State.bytesShort_one]
    rfl
  | collectWord | collectDword =>
    rw [checkedRun_eq_ite, capacityCond_of_no_growth _ _ rfl]
    refine (hdef _).trans ?_
    rw [whenClass_eq_ite, whenAligned_eq_ite, whenNotShort_eq_ite]
    rfl

/-- The only check of a construction is its room. -/
theorem firstStatus_eq_ok_of_construction (i : Instr) (s : State) (hi : i.mnemonic.capClass = .any) :
    firstStatus i s = .ok ↔ capacityAdmits s.cap (neededLen i s) = true := by
  rw [firstStatus_eq_ok_iff]
  cases i with
  | createWriter | createReader k => simp [invalidParameterCond, wrongModeCond, classAdmits, Instr.mnemonic,
      Mnemonic.capClass, alignmentCond, overrunCond, capacityCond]
  | _ => exact nomatch hi

/-- In a run that has met the undefined case only a construction with room runs; every other command whose payload fits
leaves the run marked (93 U1, log entry 15). -/
theorem exec_of_poisoned (i : Instr) (s : State) (hp : s.poisoned = true) (hpay : PayloadFits i s) :
    exec i s = if i.mnemonic.capClass = .any ∧ firstStatus i s = .ok then finish (commandBody i s)
      else .next s.poison := by
  have hdef : ∀ k, whenDefined s k = .next s.poison := fun k => whenDefined_of_poisoned s k hp
  cases i with
  | createWriter =>
    exact (if_pos ⟨rfl, (firstStatus_eq_ok_of_construction _ s rfl).mpr (capacityAdmits_zero _)⟩).symm
  | createReader k =>
    refine (withPayload_of_length k s _ (hpay rfl)).trans ?_
    rw [hdef]
    have hok : firstStatus (.createReader k) s = .ok ↔ capacityAdmits s.cap k.toNat = true :=
      firstStatus_eq_ok_of_construction _ s rfl
    exact if_congr (hok.symm.trans (and_iff_right rfl).symm) rfl rfl
  | appendBytes k => exact (withPayload_of_length k s _ (hpay rfl)).trans (hdef _)
  | _ => exact hdef _

/-- Everything a command that has a next state can do: leave a marked run, complete with its body's response, or report
its first fault and change nothing else. -/
theorem exec_cases (i : Instr) (s t : State) (h : exec i s = .next t) :
    (t = s.poison ∧ (s.poisoned = true ∨ undefinedCond i s = true)) ∨
    (firstStatus i s = .ok ∧ ∃ u v d, commandBody i s = some (u, v, d) ∧ t = u.setRsp (Response.okay v d)) ∨
    (s.poisoned = false ∧ firstStatus i s ≠ .ok ∧ t = s.setRsp (faultResponse (firstStatus i s) s)) := by
  have hpay := payloadFits_of_exec i s t h
  cases hp : s.poisoned with
  | true =>
    rw [exec_of_poisoned i s hp hpay] at h
    split_ifs at h with hok
    · exact .inr (.inl ⟨hok.2, (finish_eq_next _ t).mp h⟩)
    · cases h
      exact .inl ⟨rfl, .inl rfl⟩
  | false =>
    rw [exec_eq_checkedRun i s hp hpay, checkedRun, runBody] at h
    split_ifs at h with hok hundef
    · cases h
      exact .inl ⟨rfl, .inr hundef⟩
    · exact .inr (.inl ⟨hok, (finish_eq_next _ t).mp h⟩)
    · exact .inr (.inr ⟨rfl, hok, (raise_eq_next _ s t).mp h⟩)

/-! ### A body after its checks reaches its end -/

theorem State.Inv.writeReady {s : State} (h : s.Inv) (hp : s.poisoned = false) (hm : s.mode = .writer) :
    s.WriteReady := by
  obtain ⟨_, hlen, hwf, hin, _, hmode⟩ := h
  exact ⟨(hmode hp).2.1 hm, hlen, hwf, hin⟩

theorem State.Inv.readReady {s : State} (h : s.Inv) (hp : s.poisoned = false) (hm : s.mode = .reader) :
    s.ReadReady := by
  obtain ⟨_, hlen, _, _, _, hmode⟩ := h
  exact ⟨(hmode hp).2.2 hm, hlen⟩

theorem classAdmits_writer_iff (m : Mode) : classAdmits .writer m = true ↔ m = .writer := by
  cases m <;> decide

theorem classAdmits_reader_iff (m : Mode) : classAdmits .reader m = true ↔ m = .reader := by
  cases m <;> decide

/-- The command's body stays in the valid store, and a body that asks for room leaves the `LEN` it asked for. -/
def BodyCompletes (i : Instr) (s : State) : Prop :=
  ∃ u v d, commandBody i s = some (u, v, d) ∧ (neededLen i s ≠ 0 → u.len = neededLen i s)

theorem bodyCompletes_of_unit (i : Instr) (s u : State) (r : Option State) (hbody : commandBody i s = unitResult r)
    (hr : r = some u) (hlen : neededLen i s ≠ 0 → u.len = neededLen i s) : BodyCompletes i s :=
  ⟨u, 0#32, [], by rw [hbody, hr]; rfl, hlen⟩

theorem bodyCompletes_of_value (i : Instr) (s u : State) (v : Value) (r : Option (Value × State))
    (hbody : commandBody i s = valueResult r) (hr : r = some (v, u)) (hneed : neededLen i s = 0) :
    BodyCompletes i s :=
  ⟨u, v, [], by rw [hbody, hr]; rfl, fun h => absurd hneed h⟩

theorem bodyCompletes_of_bytes (i : Instr) (s u : State) (d : List Byte) (r : Option (List Byte × State))
    (hbody : commandBody i s = bytesResult r) (hr : r = some (d, u)) (hneed : neededLen i s = 0) :
    BodyCompletes i s :=
  ⟨u, indexField d.length, d, by rw [hbody, hr]; rfl, fun h => absurd hneed h⟩

/-- Every capacity holds the staging byte of a new writer (40_construct_and_view R86). -/
theorem createWriterBody_isSome (s : State) (hc : s.cap.wellFormed = true) : ∃ u, createWriterBody s = some u := by
  have hone : capacityAdmits s.cap 1 = true := by
    cases hcap : s.cap with
    | bytes n => rw [hcap] at hc; exact hc
    | unbounded => rfl
  rw [createWriterBody, memWrite_of_lt ((s.setMode .writer).setLen 1) 0 0x00#8 hone Nat.one_pos]
  exact ⟨_, rfl⟩

/-- A payload that fits the capacity becomes the store of a new reader (40_construct_and_view R87). -/
theorem createReaderBody_len (k : BitVec 32) (s : State) (bytes : List Byte) (hlen : bytes.length = k.toNat)
    (hroom : capacityAdmits s.cap k.toNat = true) : ∃ u, createReaderBody k bytes s = some u ∧ u.len = k.toNat := by
  rw [createReaderBody, memWriteRun_eq ((s.setMode .reader).setLen (countOperand k)) hroom 0 bytes
    (by rw [Nat.zero_add, hlen]; exact Nat.le_refl _)]
  exact ⟨_, rfl, rfl⟩

/-- The committed content of a writer is readable (40_construct_and_view R88). -/
theorem committedView_isSome (s : State) (h : s.WriteReady) : ∃ d, committedView s = some d := by
  obtain ⟨⟨hl, _, _⟩, hc, _, _⟩ := h
  unfold committedView
  split
  · rw [(lastIndex_eq_some s s.byteIndex).mpr hl, Option.bind_some, memReadRun_eq s hc 0 s.byteIndex (by omega)]
    exact ⟨_, rfl⟩
  · exact ⟨_, memReadRun_eq s hc 0 s.len (by omega)⟩

/-- What remains for a reader is readable (41_align_and_drain R97). -/
theorem remainingBytes_isSome (s : State) (h : s.ReadReady) : ∃ d, remainingBytes s = some d := by
  obtain ⟨⟨hl, _, _⟩, hc⟩ := h
  rw [remainingBytes, (remaining_eq_some s (s.len - s.byteIndex)).mpr (by omega), Option.bind_some,
    memReadRun_eq s hc s.byteIndex _ (by omega)]
  exact ⟨_, rfl⟩

/-- Inside the valid store `n` bytes can be taken at the cursor (43_read_path R114). -/
theorem takeBytes_isSome (s : State) (n : Nat) (hc : capacityAdmits s.cap s.len = true)
    (h : s.byteIndex + n ≤ s.len) : ∃ d, takeBytes s n = some (d, advance s n) := by
  rw [takeBytes, memReadRun_eq s hc s.byteIndex n h]
  exact ⟨_, rfl⟩

/-- A writer that has passed the checks of a writer command carries it out. -/
theorem bodyCompletes_of_writer (i : Instr) (s : State) (hi : i.mnemonic.capClass = .writer) (h : s.WriteReady)
    (hpay : PayloadFits i s) (halign : alignmentCond i s = false) (hcap : capacityCond i s = false) :
    BodyCompletes i s := by
  have hroom : capacityAdmits s.cap (neededLen i s) = true := by simpa [capacityCond] using hcap
  cases i with
  | buffer =>
    obtain ⟨d, hd⟩ := committedView_isSome s h
    exact bodyCompletes_of_bytes _ s s d _ rfl (by rw [hd]; rfl) rfl
  | alignW =>
    by_cases h0 : s.aligned0 = true
    · exact bodyCompletes_of_unit _ s s _ rfl (if_pos h0) fun hn => absurd (if_pos (beq_iff_eq.mp h0)) hn
    · have hneed : neededLen .alignW s = s.len + 1 := if_neg fun hb => h0 (beq_iff_eq.mpr hb)
      rw [hneed] at hroom
      obtain ⟨u, hu, _, _, hlen, _⟩ := alignWriteBody_spec s h hroom
      exact bodyCompletes_of_unit _ s u _ rfl ((if_neg h0).trans hu) fun _ => hlen.trans hneed.symm
  | appendBytes k =>
    have hdin : s.din.length = k.toNat := hpay rfl
    have h0 : s.bitOffset = 0 := s.aligned0_iff.mp (by simpa [alignmentCond, State.aligned0] using halign)
    obtain ⟨u, hu, _, _, hlen, _⟩ := appendBody_spec s.din s h h0 (by rw [hdin]; exact hroom)
    exact bodyCompletes_of_unit _ s u _ rfl hu fun _ => by rw [hlen, hdin]; rfl
  | emit n v =>
    obtain ⟨u, hu, _, ⟨⟨hlen', hoff', _⟩, _⟩, hpos, _⟩ := emitBits_spec v n.toNat s h hroom
    obtain ⟨⟨hlen, hoff, _⟩, _⟩ := h
    refine bodyCompletes_of_unit _ s u _ rfl hu fun _ => ?_
    simp only [State.pos] at hpos
    simp only [neededLen]
    omega
  | emitByte v =>
    obtain ⟨u, hu, _, _, hlen, _⟩ := emitByteBody_spec s v h hroom
    exact bodyCompletes_of_unit _ s u _ rfl hu fun _ => hlen
  | emitWord v =>
    obtain ⟨u, hu, _, _, hlen, _⟩ := emitBytesBody_spec (wordBytes v) s h hroom
    exact bodyCompletes_of_unit _ s u _ rfl hu fun _ => hlen
  | emitDword v =>
    obtain ⟨u, hu, _, _, hlen, _⟩ := emitBytesBody_spec (dwordBytes v) s h hroom
    exact bodyCompletes_of_unit _ s u _ rfl hu fun _ => hlen
  | _ => exact nomatch hi

/-- A reader that has passed the checks of a reader command carries it out, but for the undefined raw extract. -/
theorem bodyCompletes_of_reader (i : Instr) (s : State) (hi : i.mnemonic.capClass = .reader) (h : s.ReadReady)
    (hbits : invalidParameterCond i = false) (hover : overrunCond i s = false) (hundef : undefinedCond i s = false) :
    BodyCompletes i s := by
  have ⟨_, hc⟩ := h
  cases i with
  | alignR => exact bodyCompletes_of_unit _ s _ _ rfl rfl fun hn => absurd rfl hn
  | collectAll =>
    obtain ⟨_, hready, _⟩ := alignReadBody_spec s h
    obtain ⟨d, hd⟩ := remainingBytes_isSome _ hready
    exact bodyCompletes_of_bytes _ s _ d _ rfl (by rw [hd]; rfl) rfl
  | deconcat k | deappend k =>
    obtain ⟨d, hd⟩ := takeBytes_isSome s k.toNat hc (by simpa [undefinedCond] using hundef)
    exact bodyCompletes_of_bytes _ s _ d _ rfl hd rfl
  | collect n =>
    have hn : 1 ≤ n.toNat ∧ n.toNat ≤ 32 := (numBitsValid_iff _).mp (by simpa [invalidParameterCond] using hbits)
    obtain ⟨x, u, hu, _⟩ := collectBits_spec n.toNat hn.2 0#32 s h (by simpa [overrunCond] using hover)
    exact bodyCompletes_of_value _ s u x _ rfl hu rfl
  | collectByte =>
    have hlt : s.byteIndex < s.len := by simpa [overrunCond] using hover
    exact bodyCompletes_of_value _ s _ _ _ rfl (by rw [memRead_of_lt s _ hc hlt]; rfl) rfl
  | collectWord =>
    have hlt : s.byteIndex + 2 ≤ s.len := by simpa [overrunCond] using hover
    exact bodyCompletes_of_value _ s _ _ _ rfl (by rw [readWordAt_of_lt s _ hc hlt]; rfl) rfl
  | collectDword =>
    have hlt : s.byteIndex + 4 ≤ s.len := by simpa [overrunCond] using hover
    exact bodyCompletes_of_value _ s _ _ _ rfl (by rw [readDwordAt_of_lt s _ hc hlt]; rfl) rfl
  | _ => exact nomatch hi

/-- A construction with room carries itself out in every `MODE`. -/
theorem bodyCompletes_of_construction (i : Instr) (s : State) (hi : i.mnemonic.capClass = .any)
    (hc : s.cap.wellFormed = true) (hpay : PayloadFits i s) (hcap : capacityCond i s = false) :
    BodyCompletes i s := by
  cases i with
  | createWriter =>
    obtain ⟨u, hu⟩ := createWriterBody_isSome s hc
    exact bodyCompletes_of_unit _ s u _ rfl hu fun hn => absurd rfl hn
  | createReader k =>
    have hroom : capacityAdmits s.cap k.toNat = true := by simpa [capacityCond, neededLen] using hcap
    obtain ⟨u, hu, hlen⟩ := createReaderBody_len k s s.din (hpay rfl) hroom
    exact bodyCompletes_of_unit _ s u _ rfl hu fun _ => hlen
  | _ => exact nomatch hi

/-- A view or accessor of both classes carries itself out wherever the valid bytes fit the capacity. -/
theorem bodyCompletes_of_both (i : Instr) (s : State) (hi : i.mnemonic.capClass = .both)
    (hc : capacityAdmits s.cap s.len = true) : BodyCompletes i s := by
  cases i with
  | rawview => exact bodyCompletes_of_bytes _ s s _ _ rfl (by rw [memReadRun_eq s hc 0 s.len (by omega)]; rfl) rfl
  | getByteIndex | getBitOffset | hasMore => exact bodyCompletes_of_value _ s s _ _ rfl rfl rfl
  | _ => exact nomatch hi

/-- From the invariant, a command without a fault that is not the undefined raw extract carries itself out, whatever the
capacity. -/
theorem bodyCompletes_of_firstStatus_ok (i : Instr) (s : State) (hinv : s.Inv) (hp : s.poisoned = false)
    (hpay : PayloadFits i s) (hok : firstStatus i s = .ok) (hundef : undefinedCond i s = false) :
    BodyCompletes i s := by
  obtain ⟨hbits, hmode, halign, hover, hcap⟩ := (firstStatus_eq_ok_iff i s).mp hok
  have hadmits : classAdmits i.mnemonic.capClass s.mode = true := by simpa [wrongModeCond] using hmode
  have ⟨hcapwf, hlen, _⟩ := hinv
  cases hi : i.mnemonic.capClass with
  | any => exact bodyCompletes_of_construction i s hi hcapwf hpay hcap
  | writer =>
    have hm : s.mode = .writer := (classAdmits_writer_iff _).mp (hi ▸ hadmits)
    exact bodyCompletes_of_writer i s hi (hinv.writeReady hp hm) hpay halign hcap
  | reader =>
    have hm : s.mode = .reader := (classAdmits_reader_iff _).mp (hi ▸ hadmits)
    exact bodyCompletes_of_reader i s hi (hinv.readReady hp hm) hbits hover hundef
  | both => exact bodyCompletes_of_both i s hi hlen

/-- A command that carries itself out completes with `OK` and leaves the `LEN` it asked for. -/
theorem exec_completes (i : Instr) (s : State) (hinv : s.Inv) (hp : s.poisoned = false) (hpay : PayloadFits i s)
    (hok : firstStatus i s = .ok) (hundef : undefinedCond i s = false) :
    ∃ t v d, exec i s = .next t ∧ t.rsp = some (Response.okay v d) ∧
      (neededLen i s ≠ 0 → t.len = neededLen i s) := by
  obtain ⟨u, v, d, hbody, hlen⟩ := bodyCompletes_of_firstStatus_ok i s hinv hp hpay hok hundef
  refine ⟨u.setRsp (Response.okay v d), v, d, ?_, rfl, hlen⟩
  rw [exec_eq_checkedRun i s hp hpay, checkedRun, if_pos hok, runBody, if_neg (by rw [hundef]; decide), hbody]
  rfl

/-- A response of a run that is defined afterwards carries the command's first status. -/
theorem exec_status (i : Instr) (s t : State) (r : Response) (h : exec i s = .next t) (ht : t.poisoned = false)
    (hr : t.rsp = some r) : r.status = firstStatus i s := by
  rcases exec_cases i s t h with ⟨rfl, _⟩ | ⟨hok, u, v, d, _, rfl⟩ | ⟨_, _, rfl⟩
  · exact nomatch ht
  · obtain rfl := Option.some.inj hr
    exact hok.symm
  · obtain rfl := Option.some.inj hr
    rfl

/-! ### The obligations -/

/-- Settles O8: the fetch delivers the decoded command, and the step runs what the fetch delivers. -/
theorem stepRunsTheDecodedCommand : Obligations.StepRunsTheDecodedCommand := by
  unfold Obligations.StepRunsTheDecodedCommand
  intro s w payload rest i hhost hdec hwf
  exact step_of_fetch_run s _ i (fetch_eq_run s ⟨w, payload⟩ rest i hhost hdec hwf)

/-- Settles O17: the first status is never `CAPACITY_EXCEEDED`, every response carries the first status, and a command
without a fault carries itself out under every capacity. -/
theorem unboundedStoreAlwaysGrows : Obligations.UnboundedStoreAlwaysGrows := by
  unfold Obligations.UnboundedStoreAlwaysGrows
  refine ⟨fun i s hinv hp hpay hcap => ⟨firstStatus_ne_capacityExceeded i s hcap, fun hok hundef => ?_⟩,
    fun i s t r hcap h ht hr => ?_⟩
  · exact exec_completes i s hinv hp (payloadFits_of_wellFormed i s hpay) hok hundef
  · rw [exec_status i s t r h ht hr]
    exact firstStatus_ne_capacityExceeded i s hcap

end Sys2Proof.Machine
end

section
/-! PROOFS. The state (10_state): what each operation leaves unchanged wherever it answers, which commands write `MODE`,
everything a step can do, and that every step keeps the invariants of the writer, the reader and `IDLE`. -/

namespace Sys2Proof.Machine

/-! ### Frames of the operations, wherever they answer

The specifications of the write and read paths start from a state of the invariant. A frame needs less: that the operation
answered. -/

theorem State.WriteFrame.refl (s : State) : s.WriteFrame s := ⟨⟨rfl, rfl, rfl, rfl, rfl, rfl⟩, rfl⟩

theorem State.ReadFrame.refl (s : State) : s.ReadFrame s := ⟨⟨rfl, rfl, rfl, rfl, rfl, rfl⟩, rfl, rfl, rfl⟩

theorem State.ReadFrame.writeFrame {s t : State} (h : s.ReadFrame t) : s.WriteFrame t := by
  obtain ⟨hbeside, hrsp, _, _⟩ := h
  exact ⟨hbeside, hrsp⟩

theorem State.WriteFrame.mode_eq {s t : State} (h : s.WriteFrame t) : t.mode = s.mode := by
  obtain ⟨⟨hmode, _⟩, _⟩ := h
  exact hmode

theorem memWrite_writeFrame (s t : State) (a : Nat) (v : Byte) (h : memWrite s a v = some t) : s.WriteFrame t := by
  obtain ⟨_, rfl⟩ := (memWrite_eq_some s t a v).mp h
  exact ⟨⟨rfl, rfl, rfl, rfl, rfl, rfl⟩, rfl⟩

theorem normaliseWrite_writeFrame (s t : State) (h : normaliseWrite s = some t) : s.WriteFrame t := by
  obtain ⟨_, rfl⟩ := (normaliseWrite_eq_some s t).mp h
  exact ⟨⟨rfl, rfl, rfl, rfl, rfl, rfl⟩, rfl⟩

theorem checkWrite_writeFrame (s t : State) (h : checkWrite s = some t) : s.WriteFrame t := by
  unfold checkWrite at h
  split at h
  · exact normaliseWrite_writeFrame s t h
  · obtain rfl := Option.some.inj h
    exact .refl s

theorem orBit_writeFrame (b : Bool) (s t : State) (h : orBit b s = some t) : s.WriteFrame t := by
  obtain ⟨_, _, hw⟩ := Option.bind_eq_some_iff.mp h
  exact memWrite_writeFrame s t _ _ hw

theorem emitBit_writeFrame (b : Bool) (s t : State) (h : emitBit b s = some t) : s.WriteFrame t := by
  obtain ⟨u, hu, h⟩ := Option.bind_eq_some_iff.mp h
  obtain ⟨w, hw, ht⟩ := Option.bind_eq_some_iff.mp h
  exact ((checkWrite_writeFrame s u hu).trans (orBit_writeFrame b u w hw)).trans
    (checkWrite_writeFrame w.nextBit t ht)

theorem emitBits_writeFrame (v : Value) (n : Nat) (s t : State) (h : emitBits v n s = some t) : s.WriteFrame t := by
  induction n generalizing s with
  | zero =>
    obtain rfl := Option.some.inj h
    exact .refl s
  | succ n ih =>
    obtain ⟨u, hu, ht⟩ := Option.bind_eq_some_iff.mp h
    exact (emitBit_writeFrame _ s u hu).trans (ih u ht)

theorem emitByteBody_writeFrame (s t : State) (x : Byte) (h : emitByteBody s x = some t) : s.WriteFrame t := by
  obtain ⟨u, hu, ht⟩ := Option.bind_eq_some_iff.mp h
  exact (memWrite_writeFrame s u _ _ hu).trans (normaliseWrite_writeFrame u t ht)

theorem emitBytesBody_writeFrame (xs : List Byte) (s t : State) (h : emitBytesBody s xs = some t) :
    s.WriteFrame t := by
  induction xs generalizing s with
  | nil =>
    obtain rfl := Option.some.inj h
    exact .refl s
  | cons x xs ih =>
    obtain ⟨u, hu, ht⟩ := Option.bind_eq_some_iff.mp h
    exact (emitByteBody_writeFrame s u x hu).trans (ih u ht)

theorem appendBody_writeFrame (bs : List Byte) (s t : State) (h : appendBody bs s = some t) : s.WriteFrame t := by
  obtain ⟨base, _, h⟩ := Option.bind_eq_some_iff.mp h
  obtain ⟨u, hu, h⟩ := Option.bind_eq_some_iff.mp h
  obtain ⟨w, hw, rfl⟩ := Option.map_eq_some_iff.mp h
  obtain rfl := memWriteRun_eq_some _ u base bs hu
  obtain ⟨_, rfl⟩ := (memWrite_eq_some _ w _ _).mp hw
  exact ⟨⟨rfl, rfl, rfl, rfl, rfl, rfl⟩, rfl⟩

theorem alignWriteBody_writeFrame (s t : State) (h : alignWriteBody s = some t) : s.WriteFrame t := by
  obtain ⟨_, rfl⟩ := (grow_eq_some _ t).mp h
  exact ⟨⟨rfl, rfl, rfl, rfl, rfl, rfl⟩, rfl⟩

theorem State.advance_readFrame (s : State) (n : Nat) : s.ReadFrame (advance s n) :=
  ⟨⟨rfl, rfl, rfl, rfl, rfl, rfl⟩, rfl, rfl, rfl⟩

theorem checkRead_readFrame (s : State) : s.ReadFrame (checkRead s) := by
  unfold checkRead
  split
  · exact s.advance_readFrame 1
  · exact .refl s

theorem alignReadBody_readFrame (s : State) : s.ReadFrame (alignReadBody s) := by
  unfold alignReadBody
  split
  · exact .refl s
  · exact ⟨⟨rfl, rfl, rfl, rfl, rfl, rfl⟩, rfl, rfl, rfl⟩

theorem collectBit_readFrame (s t : State) (b : Bool) (h : collectBit s = some (b, t)) : s.ReadFrame t := by
  obtain ⟨_, _, heq⟩ := Option.map_eq_some_iff.mp h
  obtain ⟨_, rfl⟩ := Prod.mk.inj heq
  exact (checkRead_readFrame s).trans (checkRead_readFrame (checkRead s).nextBit)

theorem collectBits_readFrame (n : Nat) (v x : Value) (s t : State) (h : collectBits n v s = some (x, t)) :
    s.ReadFrame t := by
  induction n generalizing s v with
  | zero =>
    obtain ⟨_, rfl⟩ := Prod.mk.inj (Option.some.inj h)
    exact .refl s
  | succ n ih =>
    obtain ⟨⟨b, u⟩, hu, ht⟩ := Option.bind_eq_some_iff.mp h
    exact (collectBit_readFrame s u b hu).trans (ih _ u ht)

theorem takeBytes_state (s u : State) (n : Nat) (d : List Byte) (h : takeBytes s n = some (d, u)) :
    u = advance s n := by
  obtain ⟨_, _, heq⟩ := Option.map_eq_some_iff.mp h
  exact (Prod.mk.inj heq).2.symm

theorem takeValue_state (s u : State) (r : Option Value) (n : Nat) (v : Value) (h : takeValue s r n = some (v, u)) :
    u = advance s n := by
  obtain ⟨_, _, heq⟩ := Option.map_eq_some_iff.mp h
  exact (Prod.mk.inj heq).2.symm

/-! ### Frames of the bodies, by class -/

theorem unitResult_state {r : Option State} {u : State} {v : Value} {d : List Byte}
    (h : unitResult r = some (u, v, d)) : r = some u := by
  obtain ⟨w, hw, heq⟩ := Option.map_eq_some_iff.mp h
  obtain ⟨rfl, _⟩ := Prod.mk.inj heq
  exact hw

theorem valueResult_state {r : Option (Value × State)} {u : State} {v : Value} {d : List Byte}
    (h : valueResult r = some (u, v, d)) : r = some (v, u) := by
  obtain ⟨⟨x, w⟩, hw, heq⟩ := Option.map_eq_some_iff.mp h
  obtain ⟨rfl, hval⟩ := Prod.mk.inj heq
  rw [hw, (Prod.mk.inj hval).1]

theorem bytesResult_state {r : Option (List Byte × State)} {u : State} {v : Value} {d : List Byte}
    (h : bytesResult r = some (u, v, d)) : r = some (d, u) := by
  obtain ⟨⟨x, w⟩, hw, heq⟩ := Option.map_eq_some_iff.mp h
  obtain ⟨rfl, hval⟩ := Prod.mk.inj heq
  rw [hw, (Prod.mk.inj hval).2]

/-- A body that returns bytes it has read and the state it was given leaves that state. -/
theorem bytesResult_map_state {r : Option (List Byte)} {s u : State} {v : Value} {d : List Byte}
    (h : bytesResult (r.map fun d => (d, s)) = some (u, v, d)) : u = s := by
  obtain ⟨_, _, heq⟩ := Option.map_eq_some_iff.mp (bytesResult_state h)
  exact (Prod.mk.inj heq).2.symm

/-- A writer command writes `LEN`, the cursor and the store only (42_write_path). -/
theorem commandBody_writeFrame (i : Instr) (s u : State) (v : Value) (d : List Byte)
    (hi : i.mnemonic.capClass = .writer) (h : commandBody i s = some (u, v, d)) : s.WriteFrame u := by
  cases i with
  | buffer =>
    obtain rfl := bytesResult_map_state h
    exact .refl u
  | alignW =>
    have hu := unitResult_state h
    split at hu
    · obtain rfl := Option.some.inj hu
      exact .refl s
    · exact alignWriteBody_writeFrame s u hu
  | appendBytes k => exact appendBody_writeFrame _ s u (unitResult_state h)
  | emit n v => exact emitBits_writeFrame v _ s u (unitResult_state h)
  | emitByte v => exact emitByteBody_writeFrame s u v (unitResult_state h)
  | emitWord v | emitDword v => exact emitBytesBody_writeFrame _ s u (unitResult_state h)
  | _ => exact nomatch hi

/-- A reader command writes the cursor only (43_read_path). -/
theorem commandBody_readFrame (i : Instr) (s u : State) (v : Value) (d : List Byte)
    (hi : i.mnemonic.capClass = .reader) (h : commandBody i s = some (u, v, d)) : s.ReadFrame u := by
  cases i with
  | alignR =>
    obtain rfl := Option.some.inj (unitResult_state h)
    exact alignReadBody_readFrame s
  | collectAll =>
    obtain rfl := bytesResult_map_state h
    exact alignReadBody_readFrame s
  | deconcat k | deappend k =>
    obtain rfl := takeBytes_state s u _ d (bytesResult_state h)
    exact s.advance_readFrame _
  | collect n => exact collectBits_readFrame _ _ v s u (valueResult_state h)
  | collectByte | collectWord | collectDword =>
    obtain rfl := takeValue_state s u _ _ v (valueResult_state h)
    exact s.advance_readFrame _
  | _ => exact nomatch hi

/-- A command of both classes only reads (20_memory R46). -/
theorem commandBody_both_state (i : Instr) (s u : State) (v : Value) (d : List Byte)
    (hi : i.mnemonic.capClass = .both) (h : commandBody i s = some (u, v, d)) : u = s := by
  cases i with
  | rawview => exact bytesResult_map_state h
  | getByteIndex | getBitOffset | hasMore => exact (Prod.mk.inj (Option.some.inj (valueResult_state h))).2.symm
  | _ => exact nomatch hi

/-! ### The constructions -/

theorem createWriterBody_eq_some (s u : State) (h : createWriterBody s = some u) :
    u = (((s.setMode .writer).setLen 1).setStore (Store.write s.store 0 0x00#8)).rewind.setDefined := by
  obtain ⟨w, hw, rfl⟩ := Option.map_eq_some_iff.mp h
  obtain ⟨_, rfl⟩ := (memWrite_eq_some _ w _ _).mp hw
  rfl

theorem createReaderBody_eq_some (k : BitVec 32) (bytes : List Byte) (s u : State)
    (h : createReaderBody k bytes s = some u) :
    u = (((s.setMode .reader).setLen k.toNat).setStore (Store.writeRun s.store 0 bytes)).rewind.setDefined := by
  obtain ⟨w, hw, rfl⟩ := Option.map_eq_some_iff.mp h
  obtain rfl := memWriteRun_eq_some _ w 0 bytes hw
  rfl

/-! ### Who writes `MODE` -/

/-- A body writes `MODE` only as a construction, to the construction's own mode. -/
theorem commandBody_mode (i : Instr) (s u : State) (v : Value) (d : List Byte)
    (h : commandBody i s = some (u, v, d)) :
    u.mode = s.mode ∨ (i = .createWriter ∧ u.mode = .writer) ∨ (∃ k, i = .createReader k ∧ u.mode = .reader) := by
  cases hi : i.mnemonic.capClass with
  | any =>
    cases i with
    | createWriter =>
      obtain rfl := createWriterBody_eq_some s u (unitResult_state h)
      exact .inr (.inl ⟨rfl, rfl⟩)
    | createReader k =>
      obtain rfl := createReaderBody_eq_some k s.din s u (unitResult_state h)
      exact .inr (.inr ⟨k, rfl, rfl⟩)
    | _ => exact nomatch hi
  | writer => exact .inl (commandBody_writeFrame i s u v d hi h).mode_eq
  | reader => exact .inl (commandBody_readFrame i s u v d hi h).writeFrame.mode_eq
  | both => exact .inl (congrArg State.mode (commandBody_both_state i s u v d hi h))

/-! ### The invariant of a state -/

/-- Right after reset the invariant holds, whatever the capacity (10_state R36). -/
theorem inv_of_engine_reset (s : State) (hcap : s.cap.wellFormed = true) (heng : s.engine = Engine.reset)
    (hp : s.poisoned = false) : s.Inv := by
  obtain ⟨hmode, hlen, hidx, hoff, hstore⟩ := (State.engine_eq_iff (.resetWith s.cap) s).mp heng
  refine ⟨hcap, ?_, ?_, ?_, ?_, fun _ => ⟨fun _ => ⟨hlen, hidx, congrArg Fin.val hoff⟩, ?_, ?_⟩⟩
  · rw [hlen]
    exact capacityAdmits_zero s.cap
  · rw [hstore]
    rfl
  · rw [hstore]
    exact nofun
  · rw [hp]
    exact nofun
  · rw [hmode]
    exact nofun
  · rw [hmode]
    exact nofun

/-- No response stands right after reset. -/
theorem rspInv_of_no_response (s : State) (h : s.rsp = none) : s.RspInv := by
  intro _ r hr
  rw [h] at hr
  exact nomatch hr

theorem State.Inv.setRsp {s : State} (h : s.Inv) (r : Response) : (s.setRsp r).Inv := h

theorem State.Inv.accept {s : State} (h : s.Inv) (payload : List Byte) (rest : List HostEvent) :
    (s.accept payload rest).Inv := h

/-- The undefined case leaves a reader the invariant, which then says nothing of the cursor (43_read_path R114 (b)). -/
theorem State.Inv.poison {s : State} (h : s.Inv) (hm : s.mode = .reader) : s.poison.Inv := by
  obtain ⟨hcap, hlen, hwf, hin, _, _⟩ := h
  exact ⟨hcap, hlen, hwf, hin, fun _ => hm, nofun⟩

theorem State.Inv.mode_of_poisoned {s : State} (h : s.Inv) (hp : s.poisoned = true) : s.mode = .reader := by
  obtain ⟨_, _, _, _, hreader, _⟩ := h
  exact hreader hp

/-- A defined writer that is ready to write satisfies the invariant. -/
theorem State.WriteReady.inv {s : State} (h : s.WriteReady) (hcap : s.cap.wellFormed = true)
    (hm : s.mode = .writer) (hp : s.poisoned = false) : s.Inv := by
  obtain ⟨hwriter, hlen, hwf, hin⟩ := h
  refine ⟨hcap, hlen, hwf, hin, ?_, fun _ => ⟨?_, fun _ => hwriter, ?_⟩⟩
  · rw [hp]
    exact nofun
  · rw [hm]
    exact nofun
  · rw [hm]
    exact nofun

/-- The read path keeps the invariant of a reader when it leaves the reader invariant. -/
theorem State.Inv.of_readFrame {s u : State} (h : s.Inv) (hfr : s.ReadFrame u) (hu : u.ReaderInv)
    (hm : s.mode = .reader) : u.Inv := by
  obtain ⟨hcap, hlen, hwf, hin, _, _⟩ := h
  obtain ⟨⟨hmode, hcap', _, _, hp', _⟩, _, hlen', hstore⟩ := hfr
  refine ⟨by rwa [hcap'], by rwa [hcap', hlen'], by rwa [hstore], by rwa [hstore, hcap'], fun _ => hmode.trans hm,
    fun _ => ⟨?_, ?_, fun _ => hu⟩⟩
  · rw [hmode, hm]
    exact nofun
  · rw [hmode, hm]
    exact nofun

/-! ### Bodies keep the invariant -/

/-- A new writer: one zero staging byte and the cursor before it (40_construct_and_view R86). -/
theorem createWriterBody_inv (s u : State) (h : s.Inv) (hu : createWriterBody s = some u) : u.Inv := by
  obtain ⟨hcap, _, hwf, hin, _, _⟩ := h
  have hone : capacityAdmits s.cap 1 = true := by
    cases hc : s.cap with
    | bytes n => rwa [hc] at hcap
    | unbounded => rfl
  obtain rfl := createWriterBody_eq_some s u hu
  refine State.WriteReady.inv ⟨⟨rfl, Nat.zero_le 7, fun j _ => ?_⟩, hone, Store.wf_write _ hwf _ _,
    StoreWithin.write _ _ _ _ hin hone⟩ hcap rfl rfl
  change (Store.read (Store.write s.store 0 0x00#8) 0).getLsbD j = false
  rw [Store.read_write _ hwf, if_pos rfl]
  exact BitVec.getLsbD_zero

/-- A new reader: the payload as its store and the cursor at its start (40_construct_and_view R87). -/
theorem createReaderBody_inv (k : BitVec 32) (bytes : List Byte) (s u : State) (h : s.Inv)
    (hlen : bytes.length = k.toNat) (hroom : capacityAdmits s.cap k.toNat = true)
    (hu : createReaderBody k bytes s = some u) : u.Inv := by
  obtain ⟨hcap, _, hwf, hin, _, _⟩ := h
  obtain rfl := createReaderBody_eq_some k bytes s u hu
  have hin' : StoreWithin s.cap (Store.writeRun s.store 0 bytes) :=
    StoreWithin.writeRun _ _ _ _ hin (.inr (by rwa [Nat.zero_add, hlen]))
  exact ⟨hcap, hroom, Store.wf_writeRun _ hwf _ _, hin', nofun,
    fun _ => ⟨nofun, nofun, fun _ => ⟨Nat.zero_le _, Nat.zero_le 7, fun hne => absurd rfl hne⟩⟩⟩

theorem commandBody_inv_of_construction (i : Instr) (s u : State) (v : Value) (d : List Byte) (h : s.Inv)
    (hi : i.mnemonic.capClass = .any) (hpay : PayloadFits i s)
    (hroom : capacityAdmits s.cap (neededLen i s) = true) (hu : commandBody i s = some (u, v, d)) : u.Inv := by
  cases i with
  | createWriter => exact createWriterBody_inv s u h (unitResult_state hu)
  | createReader k => exact createReaderBody_inv k s.din s u h (hpay rfl) hroom (unitResult_state hu)
  | _ => exact nomatch hi

/-- A writer that has passed the checks of a writer command is a ready writer after it. -/
theorem commandBody_writeReady (i : Instr) (s u : State) (v : Value) (d : List Byte)
    (hi : i.mnemonic.capClass = .writer) (h : s.WriteReady) (hpay : PayloadFits i s)
    (halign : alignmentCond i s = false) (hroom : capacityAdmits s.cap (neededLen i s) = true)
    (hu : commandBody i s = some (u, v, d)) : u.WriteReady := by
  cases i with
  | buffer =>
    obtain rfl := bytesResult_map_state hu
    exact h
  | alignW =>
    have hbody := unitResult_state hu
    split at hbody
    · obtain rfl := Option.some.inj hbody
      exact h
    · next h0 =>
      have hneed : neededLen .alignW s = s.len + 1 := if_neg fun hb => h0 (beq_iff_eq.mpr hb)
      rw [hneed] at hroom
      obtain ⟨t, ht, _, hready, _⟩ := alignWriteBody_spec s h hroom
      exact Option.mem_unique ht hbody ▸ hready
  | appendBytes k =>
    have hdin : s.din.length = k.toNat := hpay rfl
    have h0 : s.bitOffset = 0 := s.aligned0_iff.mp (by simpa [alignmentCond, State.aligned0] using halign)
    obtain ⟨t, ht, _, hready, _⟩ := appendBody_spec s.din s h h0 (by rw [hdin]; exact hroom)
    exact Option.mem_unique ht (unitResult_state hu) ▸ hready
  | emit n v =>
    obtain ⟨t, ht, _, hready, _⟩ := emitBits_spec v n.toNat s h hroom
    exact Option.mem_unique ht (unitResult_state hu) ▸ hready
  | emitByte v =>
    obtain ⟨t, ht, _, hready, _⟩ := emitByteBody_spec s v h hroom
    exact Option.mem_unique ht (unitResult_state hu) ▸ hready
  | emitWord v =>
    obtain ⟨t, ht, _, hready, _⟩ := emitBytesBody_spec (wordBytes v) s h hroom
    exact Option.mem_unique ht (unitResult_state hu) ▸ hready
  | emitDword v =>
    obtain ⟨t, ht, _, hready, _⟩ := emitBytesBody_spec (dwordBytes v) s h hroom
    exact Option.mem_unique ht (unitResult_state hu) ▸ hready
  | _ => exact nomatch hi

theorem commandBody_inv_of_writer (i : Instr) (s u : State) (v : Value) (d : List Byte) (h : s.Inv)
    (hp : s.poisoned = false) (hm : s.mode = .writer) (hi : i.mnemonic.capClass = .writer) (hpay : PayloadFits i s)
    (halign : alignmentCond i s = false) (hroom : capacityAdmits s.cap (neededLen i s) = true)
    (hu : commandBody i s = some (u, v, d)) : u.Inv := by
  have hready := commandBody_writeReady i s u v d hi (h.writeReady hp hm) hpay halign hroom hu
  obtain ⟨⟨hmode, hcap, _, _, hdef, _⟩, _⟩ := commandBody_writeFrame i s u v d hi hu
  obtain ⟨hcapwf, _⟩ := h
  exact hready.inv (by rwa [hcap]) (hmode.trans hm) (hdef.trans hp)

/-- Whole bytes taken inside the store from a byte boundary leave the cursor at one inside the store. -/
theorem advance_readerInv (s : State) (n : Nat) (h0 : s.bitOffset.val = 0) (hn : s.byteIndex + n ≤ s.len) :
    (advance s n).ReaderInv :=
  ⟨hn, h0.le.trans (Nat.zero_le 7), fun hne => absurd h0 hne⟩

/-- A reader that has passed the checks of a reader command, and is not at the undefined raw extract, keeps the reader
invariant (10_state R33). -/
theorem commandBody_readerInv (i : Instr) (s u : State) (v : Value) (d : List Byte)
    (hi : i.mnemonic.capClass = .reader) (h : s.ReadReady) (hbits : invalidParameterCond i = false)
    (halign : alignmentCond i s = false) (hover : overrunCond i s = false) (hundef : undefinedCond i s = false)
    (hu : commandBody i s = some (u, v, d)) : u.ReaderInv := by
  cases i with
  | alignR =>
    obtain rfl := Option.some.inj (unitResult_state hu)
    obtain ⟨_, ⟨hreader, _⟩, _⟩ := alignReadBody_spec s h
    exact hreader
  | collectAll =>
    obtain rfl := bytesResult_map_state hu
    obtain ⟨_, ⟨hreader, _⟩, _⟩ := alignReadBody_spec s h
    exact hreader
  | deconcat k | deappend k =>
    obtain rfl := takeBytes_state s u _ d (bytesResult_state hu)
    exact advance_readerInv s k.toNat (by simpa [alignmentCond] using halign) (by simpa [undefinedCond] using hundef)
  | collect n =>
    obtain ⟨_, hn⟩ := (numBitsValid_iff n.toNat).mp (by simpa [invalidParameterCond] using hbits)
    obtain ⟨x, t, ht, _, ⟨hreader, _⟩, _⟩ :=
      collectBits_spec n.toNat hn 0#32 s h (by simpa [overrunCond] using hover)
    obtain ⟨_, rfl⟩ := Prod.mk.inj (Option.mem_unique ht (valueResult_state hu))
    exact hreader
  | collectByte | collectWord | collectDword =>
    obtain rfl := takeValue_state s u _ _ v (valueResult_state hu)
    obtain ⟨⟨_, hoff, _⟩, _⟩ := h
    have haligned : s.aligned08 = true := Bool.not_inj halign
    have h08 := s.aligned08_iff.mp haligned
    have hfit := of_decide_eq_false hover
    exact advance_readerInv s _ (by omega) (by omega)
  | _ => exact nomatch hi

theorem commandBody_inv_of_reader (i : Instr) (s u : State) (v : Value) (d : List Byte) (h : s.Inv)
    (hp : s.poisoned = false) (hm : s.mode = .reader) (hi : i.mnemonic.capClass = .reader)
    (hbits : invalidParameterCond i = false) (halign : alignmentCond i s = false) (hover : overrunCond i s = false)
    (hundef : undefinedCond i s = false) (hu : commandBody i s = some (u, v, d)) : u.Inv :=
  h.of_readFrame (commandBody_readFrame i s u v d hi hu)
    (commandBody_readerInv i s u v d hi (h.readReady hp hm) hbits halign hover hundef hu) hm

theorem classAdmits_of_firstStatus_ok (i : Instr) (s : State) (hok : firstStatus i s = .ok) :
    classAdmits i.mnemonic.capClass s.mode = true := by
  obtain ⟨_, hmode, _⟩ := (firstStatus_eq_ok_iff i s).mp hok
  simpa [wrongModeCond] using hmode

theorem hasNeededRoom_of_firstStatus_ok (i : Instr) (s : State) (hok : firstStatus i s = .ok) :
    capacityAdmits s.cap (neededLen i s) = true := by
  obtain ⟨_, _, _, _, hcap⟩ := (firstStatus_eq_ok_iff i s).mp hok
  simpa [capacityCond] using hcap

/-- In a defined run the body of a command without a fault keeps the invariant. -/
theorem commandBody_inv (i : Instr) (s u : State) (v : Value) (d : List Byte) (h : s.Inv) (hp : s.poisoned = false)
    (hpay : PayloadFits i s) (hok : firstStatus i s = .ok) (hundef : undefinedCond i s = false)
    (hu : commandBody i s = some (u, v, d)) : u.Inv := by
  have hadmits := classAdmits_of_firstStatus_ok i s hok
  have hroom := hasNeededRoom_of_firstStatus_ok i s hok
  obtain ⟨hbits, _, halign, hover, _⟩ := (firstStatus_eq_ok_iff i s).mp hok
  cases hi : i.mnemonic.capClass with
  | any => exact commandBody_inv_of_construction i s u v d h hi hpay hroom hu
  | writer =>
    have hm : s.mode = .writer := (classAdmits_writer_iff _).mp (hi ▸ hadmits)
    exact commandBody_inv_of_writer i s u v d h hp hm hi hpay halign hroom hu
  | reader =>
    have hm : s.mode = .reader := (classAdmits_reader_iff _).mp (hi ▸ hadmits)
    exact commandBody_inv_of_reader i s u v d h hp hm hi hbits halign hover hundef hu
  | both =>
    obtain rfl := commandBody_both_state i s u v d hi hu
    exact h

/-! ### Commands and steps keep the invariant -/

/-- Only a reader that has passed its checks meets the undefined raw extract (60_exceptions R135). -/
theorem reader_of_undefined (i : Instr) (s : State) (hok : firstStatus i s = .ok) (hundef : undefinedCond i s = true) :
    s.mode = .reader := by
  have hadmits := classAdmits_of_firstStatus_ok i s hok
  cases i with
  | deconcat k | deappend k => exact (classAdmits_reader_iff s.mode).mp hadmits
  | _ => exact nomatch hundef

theorem runBody_inv (i : Instr) (s t : State) (h : s.Inv) (hp : s.poisoned = false) (hpay : PayloadFits i s)
    (hok : firstStatus i s = .ok) (ht : runBody i s = .next t) : t.Inv := by
  unfold runBody at ht
  split at ht
  · next hundef =>
    cases ht
    exact h.poison (reader_of_undefined i s hok hundef)
  · next hundef =>
    obtain ⟨u, v, d, hu, rfl⟩ := (finish_eq_next _ t).mp ht
    exact (commandBody_inv i s u v d h hp hpay hok (Bool.eq_false_of_not_eq_true hundef) hu).setRsp _

theorem exec_inv_of_defined (i : Instr) (s t : State) (h : s.Inv) (hp : s.poisoned = false)
    (ht : exec i s = .next t) : t.Inv := by
  have hpay := payloadFits_of_exec i s t ht
  rw [exec_eq_checkedRun i s hp hpay, checkedRun] at ht
  split at ht
  · next hok => exact runBody_inv i s t h hp hpay hok ht
  · obtain rfl := (raise_eq_next _ s t).mp ht
    exact h.setRsp _

theorem exec_inv_of_poisoned (i : Instr) (s t : State) (h : s.Inv) (hp : s.poisoned = true)
    (ht : exec i s = .next t) : t.Inv := by
  have hpay := payloadFits_of_exec i s t ht
  rw [exec_of_poisoned i s hp hpay] at ht
  split at ht
  · next hrun =>
    obtain ⟨hi, hok⟩ := hrun
    obtain ⟨u, v, d, hu, rfl⟩ := (finish_eq_next _ t).mp ht
    exact (commandBody_inv_of_construction i s u v d h hi hpay (hasNeededRoom_of_firstStatus_ok i s hok) hu).setRsp _
  · cases ht
    exact h.poison (h.mode_of_poisoned hp)

/-- Every command that goes on keeps the invariant. -/
theorem exec_inv (i : Instr) (s t : State) (h : s.Inv) (ht : exec i s = .next t) : t.Inv := by
  cases hp : s.poisoned with
  | false => exact exec_inv_of_defined i s t h hp ht
  | true => exact exec_inv_of_poisoned i s t h hp ht

theorem rejectWord_eq_next (s t : State) : rejectWord s = .next t ↔
    (s.poisoned = true ∧ t = s.poison) ∨
    (s.poisoned = false ∧ t = s.setRsp (faultResponse .illegalCommand s)) := by
  rw [rejectWord, whenDefined_eq_next, raise_eq_next]

theorem rejectWord_inv (s t : State) (h : s.Inv) (ht : rejectWord s = .next t) : t.Inv := by
  obtain ⟨hp, rfl⟩ | ⟨_, rfl⟩ := (rejectWord_eq_next s t).mp ht
  · exact h.poison (h.mode_of_poisoned hp)
  · exact h.setRsp _

/-- Everything a step that has a next state can do: hold the state, reset, reject a word, or run a well-formed pair's
command (00_scope R15, 30_encoding R60, R64, 60_exceptions R136). -/
theorem step_cases (s t : State) (h : step s = .next t) :
    (s.host = [] ∧ t = s) ∨
    (∃ a rest, s.host = .reset a :: rest ∧ t = s.assertReset rest) ∨
    (∃ c rest e, s.host = .command c :: rest ∧ decode c.word = .error e ∧
      rejectWord (s.accept c.payload rest) = .next t) ∨
    (∃ c rest i, s.host = .command c :: rest ∧ decode c.word = .ok i ∧ i.payloadWellFormed c.payload = true ∧
      exec i (s.accept c.payload rest) = .next t) := by
  unfold step fetch at h
  match hhost : s.host with
  | [] =>
    simp only [hhost] at h
    cases h
    exact .inl ⟨rfl, rfl⟩
  | .reset a :: rest =>
    simp only [hhost] at h
    cases h
    exact .inr (.inl ⟨a, rest, rfl, rfl⟩)
  | .command c :: rest =>
    match hdec : decode c.word with
    | .error e =>
      simp only [hhost, hdec] at h
      exact .inr (.inr (.inl ⟨c, rest, e, rfl, hdec, h⟩))
    | .ok i =>
      cases hwf : i.payloadWellFormed c.payload with
      | false => simp [hhost, hdec, hwf] at h
      | true =>
        simp only [hhost, hdec, hwf, if_true] at h
        exact .inr (.inr (.inr ⟨c, rest, i, rfl, hdec, hwf, h⟩))

/-- Reset leads to the invariant, in every state with a well-formed capacity (70_reset R155). -/
theorem assertReset_inv (s : State) (rest : List HostEvent) (hcap : s.cap.wellFormed = true) :
    (s.assertReset rest).Inv :=
  inv_of_engine_reset (s.assertReset rest) hcap rfl rfl

theorem resetWith_inv (cap : Capacity) (hcap : cap.wellFormed = true) : (State.resetWith cap).Inv :=
  inv_of_engine_reset (State.resetWith cap) hcap rfl rfl

theorem resetWith_rspInv (cap : Capacity) : (State.resetWith cap).RspInv :=
  rspInv_of_no_response (State.resetWith cap) rfl

/-! ### The obligations of 10_state -/

/-- Settles O11: everything is zero, the store lists nothing, and no response stands. -/
theorem resetSatisfiesTheInvariant : Obligations.ResetSatisfiesTheInvariant := by
  unfold Obligations.ResetSatisfiesTheInvariant
  exact ⟨fun cap hcap => ⟨resetWith_inv cap hcap, resetWith_rspInv cap, rfl⟩,
    resetWith_inv Config.resetCapacity rfl, resetWith_rspInv Config.resetCapacity⟩

/-- Settles O56: a marked run and a fault write no `MODE`, and a body writes it only as a construction. -/
theorem onlyConstructionWritesMode : Obligations.OnlyConstructionWritesMode := by
  unfold Obligations.OnlyConstructionWritesMode
  intro i s t h
  obtain ⟨rfl, _⟩ | ⟨_, u, v, d, hu, rfl⟩ | ⟨_, _, rfl⟩ := exec_cases i s t h
  · exact .inl rfl
  · exact commandBody_mode i s u v d hu
  · exact .inl rfl

/-- Settles O12: holding the state, reset, a rejected word and a command each keep the invariant. -/
theorem everyStepKeepsTheInvariant : Obligations.EveryStepKeepsTheInvariant := by
  unfold Obligations.EveryStepKeepsTheInvariant
  intro s t h hstep
  have ⟨hcap, _⟩ := h
  obtain ⟨_, rfl⟩ | ⟨_, rest, _, rfl⟩ | ⟨c, rest, _, _, _, hrej⟩ | ⟨c, rest, i, _, _, _, hrun⟩ := step_cases s t hstep
  · exact h
  · exact assertReset_inv s rest hcap
  · exact rejectWord_inv _ t (h.accept c.payload rest) hrej
  · exact exec_inv i _ t (h.accept c.payload rest) hrun

end Sys2Proof.Machine
end

section
/-! PROOFS. The memory (20_memory): the read path leaves the store and `LEN` alone, the read-outs leave everything but the
response, and no command can tell apart two states that differ in store bytes at and above `LEN`. -/

namespace Sys2Proof.Machine

/-! ### The read path writes no byte -/

theorem commandBody_store_len_of_read (i : Instr) (s u : State) (v : Value) (d : List Byte)
    (hi : i.mnemonic.capClass = .reader ∨ i.mnemonic.capClass = .both) (h : commandBody i s = some (u, v, d)) :
    u.store = s.store ∧ u.len = s.len := by
  obtain hi | hi := hi
  · obtain ⟨_, _, hlen, hstore⟩ := commandBody_readFrame i s u v d hi h
    exact ⟨hstore, hlen⟩
  · obtain rfl := commandBody_both_state i s u v d hi h
    exact ⟨rfl, rfl⟩

/-- A construction of a reader that fits the capacity has no staging byte: `LEN` is the payload's length
(40_construct_and_view R87). -/
theorem exec_createReader_len (k : BitVec 32) (s t : State) (hroom : capacityAdmits s.cap k.toNat = true)
    (h : exec (.createReader k) s = .next t) : t.len = k.toNat := by
  obtain ⟨_, hrun⟩ := (withPayload_eq_next _ _ _ _).mp h
  rw [if_pos (show capacityAdmits s.cap (countOperand k) = true from hroom)] at hrun
  obtain ⟨u, hu, rfl⟩ := (finishUnit_eq_next _ t).mp hrun
  obtain rfl := createReaderBody_eq_some k s.din s u hu
  rfl

/-- Settles O55: a marked run and a fault write neither, and a body of the read path moves the cursor only. -/
theorem readPathNeverWritesTheStore : Obligations.ReadPathNeverWritesTheStore := by
  unfold Obligations.ReadPathNeverWritesTheStore
  refine ⟨fun i s t hi h => ?_, fun k s t hroom h => exec_createReader_len k s t hroom h⟩
  obtain ⟨rfl, _⟩ | ⟨_, u, v, d, hu, rfl⟩ | ⟨_, _, rfl⟩ := exec_cases i s t h
  · exact ⟨rfl, rfl⟩
  · exact commandBody_store_len_of_read i s u v d hi hu
  · exact ⟨rfl, rfl⟩

/-! ### Two states that differ in stale bytes -/

/-- The state with another store and another response: everything a command tests is as it was. -/
def State.restock (s : State) (m : Store) (r : Option Response) : State := { s with store := m, rsp := r }

@[simp] theorem State.restock_bitOffset (s : State) (m : Store) (r : Option Response) :
    (s.restock m r).bitOffset = s.bitOffset := rfl
@[simp] theorem State.restock_aligned0 (s : State) (m : Store) (r : Option Response) :
    (s.restock m r).aligned0 = s.aligned0 := rfl

/-- The states differ in the response and in store bytes at and above index `n` only. -/
def State.AgreeBelow (n : Nat) (s s' : State) : Prop :=
  ∃ m r, s' = s.restock m r ∧ ∀ a < n, Store.read m a = Store.read s.store a

/-- The states differ in the response and in stale bytes only. -/
def State.ValidAgree (s s' : State) : Prop := State.AgreeBelow s.len s s'

/-- `SameValid` is agreement on the valid bytes with the same response. -/
theorem State.sameValid_iff (s s' : State) : s.SameValid s' ↔ s.ValidAgree s' ∧ s'.rsp = s.rsp := by
  constructor
  · rintro ⟨hmode, hlen, hidx, hoff, hcap, hhost, hdin, hrsp, hp, hfree, hread⟩
    refine ⟨⟨s'.store, s'.rsp, ?_, hread⟩, hrsp⟩
    cases s'
    simp only [State.restock, State.mk.injEq]
    exact ⟨hmode, hlen, hidx, hoff, trivial, hcap, hhost, hdin, trivial, hp, hfree⟩
  · rintro ⟨⟨m, r, rfl, hread⟩, hrsp⟩
    exact ⟨rfl, rfl, rfl, rfl, rfl, rfl, rfl, hrsp, rfl, rfl, hread⟩

theorem State.SameValid.refl (s : State) : s.SameValid s :=
  ⟨rfl, rfl, rfl, rfl, rfl, rfl, rfl, rfl, rfl, rfl, fun _ _ => rfl⟩

theorem State.SameValid.rsp_eq {s s' : State} (h : s.SameValid s') : s'.rsp = s.rsp := by
  obtain ⟨_, hrsp⟩ := (State.sameValid_iff s s').mp h
  exact hrsp

/-- The response is no part of the agreement. -/
theorem State.validAgree_setRsp (s : State) (r : Response) : s.ValidAgree (s.setRsp r) :=
  ⟨s.store, some r, rfl, fun _ _ => rfl⟩

section Registers
variable {n : Nat} {s s' : State}

theorem State.AgreeBelow.len_eq (h : s.AgreeBelow n s') : s'.len = s.len := by
  obtain ⟨_, _, rfl, _⟩ := h
  rfl

theorem State.AgreeBelow.byteIndex_eq (h : s.AgreeBelow n s') : s'.byteIndex = s.byteIndex := by
  obtain ⟨_, _, rfl, _⟩ := h
  rfl

theorem State.AgreeBelow.bitOffset_eq (h : s.AgreeBelow n s') : s'.bitOffset = s.bitOffset := by
  obtain ⟨_, _, rfl, _⟩ := h
  rfl

theorem State.AgreeBelow.host_eq (h : s.AgreeBelow n s') : s'.host = s.host := by
  obtain ⟨_, _, rfl, _⟩ := h
  rfl

theorem State.AgreeBelow.din_eq (h : s.AgreeBelow n s') : s'.din = s.din := by
  obtain ⟨_, _, rfl, _⟩ := h
  rfl

theorem State.AgreeBelow.poisoned_eq (h : s.AgreeBelow n s') : s'.poisoned = s.poisoned := by
  obtain ⟨_, _, rfl, _⟩ := h
  rfl

theorem State.AgreeBelow.aligned0_eq (h : s.AgreeBelow n s') : s'.aligned0 = s.aligned0 := by
  obtain ⟨_, _, rfl, _⟩ := h
  rfl

theorem State.AgreeBelow.indexValid_eq (h : s.AgreeBelow n s') (a : Nat) : s'.indexValid a = s.indexValid a := by
  obtain ⟨_, _, rfl, _⟩ := h
  rfl

theorem State.AgreeBelow.firstStatus_eq (h : s.AgreeBelow n s') (i : Instr) : firstStatus i s' = firstStatus i s := by
  obtain ⟨_, _, rfl, _⟩ := h
  rfl

theorem State.AgreeBelow.undefinedCond_eq (h : s.AgreeBelow n s') (i : Instr) :
    undefinedCond i s' = undefinedCond i s := by
  obtain ⟨_, _, rfl, _⟩ := h
  rfl

theorem State.AgreeBelow.faultResponse_eq (h : s.AgreeBelow n s') (st : Status) :
    faultResponse st s' = faultResponse st s := by
  obtain ⟨_, _, rfl, _⟩ := h
  rfl

/-- An operation on the registers neither reads nor writes the store and the response. -/
def RegistersOnly (f : State → State) : Prop := ∀ s m r, f (s.restock m r) = (f s).restock m r

/-- An operation on the registers writes no store: it does the same with its own store put back. -/
theorem RegistersOnly.store_eq {f : State → State} (hf : RegistersOnly f) (s : State) : (f s).store = s.store := by
  have hself : f s = (f s).restock s.store s.rsp := hf s s.store s.rsp
  rw [hself]
  rfl

theorem State.AgreeBelow.map (h : s.AgreeBelow n s') {f : State → State} (hf : RegistersOnly f) :
    (f s).AgreeBelow n (f s') := by
  obtain ⟨m, r, rfl, hread⟩ := h
  exact ⟨m, r, hf s m r, by rwa [hf.store_eq]⟩

theorem State.ValidAgree.map (h : s.ValidAgree s') {f : State → State} (hf : RegistersOnly f)
    (hlen : (f s).len = s.len) : (f s).ValidAgree (f s') := by
  unfold State.ValidAgree
  rw [hlen]
  exact AgreeBelow.map h hf

theorem registersOnly_checkRead : RegistersOnly checkRead := by
  intro s m r
  by_cases hc : s.bitOffset.val = 8
  · simp only [checkRead, State.restock_bitOffset, hc, if_true]
    rfl
  · simp only [checkRead, State.restock_bitOffset, hc, if_false]

theorem registersOnly_alignReadBody : RegistersOnly alignReadBody := by
  intro s m r
  cases hc : s.aligned0 with
  | true => simp only [alignReadBody, State.restock_aligned0, hc, if_true]
  | false =>
    simp only [alignReadBody, State.restock_aligned0, hc, Bool.false_eq_true, if_false]
    rfl

theorem State.ValidAgree.setRsp (h : s.ValidAgree s') (r : Response) : (s.setRsp r).SameValid (s'.setRsp r) := by
  obtain ⟨m, _, rfl, hread⟩ := h
  exact (State.sameValid_iff _ _).mpr ⟨⟨m, some r, rfl, hread⟩, rfl⟩

end Registers

/-! ### Related answers

Two runs of one operation: both answer, with related answers, or neither does. -/

theorem optionRel_bind {α β : Type} {R : α → α → Prop} {S : β → β → Prop} {o o' : Option α} {f f' : α → Option β}
    (h : Option.Rel R o o') (hf : ∀ x x', R x x' → Option.Rel S (f x) (f' x')) :
    Option.Rel S (o.bind f) (o'.bind f') := by
  cases h with
  | none => exact .none
  | some hx => exact hf _ _ hx

theorem optionRel_map {α β : Type} {R : α → α → Prop} {S : β → β → Prop} {o o' : Option α} {f f' : α → β}
    (h : Option.Rel R o o') (hf : ∀ x x', R x x' → S (f x) (f' x')) : Option.Rel S (o.map f) (o'.map f') := by
  cases h with
  | none => exact .none
  | some hx => exact .some (hf _ _ hx)

/-- One answer turned into two related ones. -/
theorem optionRel_map_self {α β : Type} {S : β → β → Prop} {f f' : α → β} (o : Option α)
    (hf : ∀ x, S (f x) (f' x)) : Option.Rel S (o.map f) (o.map f') := by
  cases o with
  | none => exact .none
  | some x => exact .some (hf x)

theorem optionRel_mono {α : Type} {R S : α → α → Prop} {o o' : Option α} (h : Option.Rel R o o')
    (hS : ∀ x x', R x x' → S x x') : Option.Rel S o o' := by
  cases h with
  | none => exact .none
  | some hx => exact .some (hS _ _ hx)

theorem optionRel_some_left {α : Type} {R : α → α → Prop} {o o' : Option α} {x : α} (h : Option.Rel R o o')
    (ho : o = some x) : ∃ x', o' = some x' ∧ R x x' := by
  subst ho
  cases h with
  | some hx => exact ⟨_, rfl, hx⟩

/-- The same value read, and states that agree on the valid bytes. -/
def ReadAgree {α : Type} (x y : α × State) : Prop := y.1 = x.1 ∧ x.2.ValidAgree y.2

/-- The same `RESULT` and the same bytes for the host, and states that agree on the valid bytes. -/
def BodyAgree (x y : State × Value × List Byte) : Prop := y.2 = x.2 ∧ x.1.ValidAgree y.1

theorem unitResult_agree {r r' : Option State} (h : Option.Rel State.ValidAgree r r') :
    Option.Rel BodyAgree (unitResult r) (unitResult r') :=
  optionRel_map h fun _ _ hx => ⟨rfl, hx⟩

theorem valueResult_agree {r r' : Option (Value × State)} (h : Option.Rel ReadAgree r r') :
    Option.Rel BodyAgree (valueResult r) (valueResult r') :=
  optionRel_map h fun _ _ ⟨hv, hx⟩ => ⟨congrArg (·, []) hv, hx⟩

theorem bytesResult_agree {r r' : Option (List Byte × State)} (h : Option.Rel ReadAgree r r') :
    Option.Rel BodyAgree (bytesResult r) (bytesResult r') :=
  optionRel_map h fun _ _ ⟨hd, hx⟩ => ⟨congrArg (fun d => (indexField d.length, d)) hd, hx⟩

/-! ### Reading sees valid bytes only -/

section Reading
variable {s s' : State}

theorem State.ValidAgree.memRead_eq (h : s.ValidAgree s') (a : Nat) : memRead s' a = memRead s a := by
  unfold memRead
  rw [h.indexValid_eq]
  split
  · next hvalid =>
    obtain ⟨m, r, rfl, hread⟩ := h
    exact congrArg some (hread a (s.indexValid_lt a hvalid))
  · rfl

theorem State.ValidAgree.memReadRun_eq (h : s.ValidAgree s') (a n : Nat) : memReadRun s' a n = memReadRun s a n := by
  induction n generalizing a with
  | zero => rfl
  | succ n ih => rw [memReadRun, memReadRun, h.memRead_eq, ih]

theorem State.ValidAgree.readWordAt_eq (h : s.ValidAgree s') (a : Nat) : readWordAt s' a = readWordAt s a := by
  rw [readWordAt, readWordAt, h.memRead_eq, h.memRead_eq]

theorem State.ValidAgree.readDwordAt_eq (h : s.ValidAgree s') (a : Nat) : readDwordAt s' a = readDwordAt s a := by
  rw [readDwordAt, readDwordAt, h.readWordAt_eq, h.readWordAt_eq]

theorem State.ValidAgree.readBit_eq (h : s.ValidAgree s') : readBit s' = readBit s := by
  rw [readBit, readBit, h.memRead_eq, h.byteIndex_eq, h.bitOffset_eq]

theorem State.ValidAgree.committedView_eq (h : s.ValidAgree s') : committedView s' = committedView s := by
  simp only [committedView, lastIndex, h.memReadRun_eq, h.aligned0_eq, h.len_eq]

theorem State.ValidAgree.remainingBytes_eq (h : s.ValidAgree s') : remainingBytes s' = remainingBytes s := by
  simp only [remainingBytes, remaining, h.memReadRun_eq, h.byteIndex_eq, h.len_eq]

theorem State.ValidAgree.checkRead (h : s.ValidAgree s') : (checkRead s).ValidAgree (checkRead s') := by
  obtain ⟨_, _, hlen, _⟩ := checkRead_readFrame s
  exact h.map registersOnly_checkRead hlen

theorem State.ValidAgree.alignReadBody (h : s.ValidAgree s') : (alignReadBody s).ValidAgree (alignReadBody s') := by
  obtain ⟨_, _, hlen, _⟩ := alignReadBody_readFrame s
  exact h.map registersOnly_alignReadBody hlen

theorem State.ValidAgree.advance (h : s.ValidAgree s') (n : Nat) : (advance s n).ValidAgree (advance s' n) :=
  h.map (f := (Machine.advance · n)) (fun _ _ _ => rfl) rfl

theorem State.ValidAgree.nextBit (h : s.ValidAgree s') : s.nextBit.ValidAgree s'.nextBit :=
  h.map (fun _ _ _ => rfl) rfl

theorem takeBytes_agree (h : s.ValidAgree s') (n : Nat) : Option.Rel ReadAgree (takeBytes s n) (takeBytes s' n) := by
  rw [takeBytes, takeBytes, h.memReadRun_eq, h.byteIndex_eq]
  exact optionRel_map_self _ fun _ => ⟨rfl, h.advance n⟩

theorem takeValue_agree (h : s.ValidAgree s') (v : Option Value) (n : Nat) :
    Option.Rel ReadAgree (takeValue s v n) (takeValue s' v n) :=
  optionRel_map_self v fun _ => ⟨rfl, h.advance n⟩

theorem collectBit_agree (h : s.ValidAgree s') : Option.Rel ReadAgree (collectBit s) (collectBit s') := by
  rw [collectBit, collectBit, h.checkRead.readBit_eq]
  exact optionRel_map_self _ fun _ => ⟨rfl, h.checkRead.nextBit.checkRead⟩

theorem collectBits_agree (h : s.ValidAgree s') (n : Nat) (v : Value) :
    Option.Rel ReadAgree (collectBits n v s) (collectBits n v s') := by
  induction n generalizing s s' v with
  | zero => exact .some ⟨rfl, h⟩
  | succ n ih =>
    refine optionRel_bind (collectBit_agree h) ?_
    rintro ⟨b, t⟩ ⟨_, t'⟩ ⟨rfl, ht⟩
    exact ih ht _

/-- A body of the read path gives the host the same answer whatever the stale bytes are. -/
theorem commandBody_agree_of_reader (h : s.ValidAgree s') (i : Instr) (hi : i.mnemonic.capClass = .reader) :
    Option.Rel BodyAgree (commandBody i s) (commandBody i s') := by
  cases i with
  | alignR => exact unitResult_agree (.some h.alignReadBody)
  | collectAll =>
    rw [commandBody, commandBody, h.alignReadBody.remainingBytes_eq]
    exact bytesResult_agree (optionRel_map_self _ fun _ => ⟨rfl, h.alignReadBody⟩)
  | deconcat k | deappend k => exact bytesResult_agree (takeBytes_agree h _)
  | collect n => exact valueResult_agree (collectBits_agree h _ _)
  | collectByte =>
    rw [commandBody, commandBody, h.memRead_eq, h.byteIndex_eq]
    exact valueResult_agree (takeValue_agree h _ _)
  | collectWord =>
    rw [commandBody, commandBody, h.readWordAt_eq, h.byteIndex_eq]
    exact valueResult_agree (takeValue_agree h _ _)
  | collectDword =>
    rw [commandBody, commandBody, h.readDwordAt_eq, h.byteIndex_eq]
    exact valueResult_agree (takeValue_agree h _ _)
  | _ => exact nomatch hi

/-- A read-out: the command looks and changes nothing (20_memory R46). -/
def IsReadOut (i : Instr) : Prop := i = .buffer ∨ i.mnemonic.capClass = .both

theorem commandBody_agree_of_readOut (h : s.ValidAgree s') (i : Instr) (hi : IsReadOut i) :
    Option.Rel BodyAgree (commandBody i s) (commandBody i s') := by
  obtain rfl | hi := hi
  · rw [commandBody, commandBody, h.committedView_eq]
    exact bytesResult_agree (optionRel_map_self _ fun _ => ⟨rfl, h⟩)
  · cases i with
    | rawview =>
      rw [commandBody, commandBody, h.memReadRun_eq, h.len_eq]
      exact bytesResult_agree (optionRel_map_self _ fun _ => ⟨rfl, h⟩)
    | getByteIndex =>
      rw [commandBody, commandBody, h.byteIndex_eq]
      exact valueResult_agree (.some ⟨rfl, h⟩)
    | getBitOffset =>
      rw [commandBody, commandBody, h.bitOffset_eq]
      exact valueResult_agree (.some ⟨rfl, h⟩)
    | hasMore =>
      rw [commandBody, commandBody, State.hasMoreBytes, State.hasMoreBytes, h.byteIndex_eq,
        h.len_eq]
      exact valueResult_agree (.some ⟨rfl, h⟩)
    | _ => exact nomatch hi

theorem commandBody_readOut_state (i : Instr) (s u : State) (v : Value) (d : List Byte) (hi : IsReadOut i)
    (h : commandBody i s = some (u, v, d)) : u = s := by
  obtain rfl | hi := hi
  · exact bytesResult_map_state h
  · exact commandBody_both_state i s u v d hi h

end Reading

/-! ### A command whose body agrees, agrees -/

/-- Two runs of a defined command in states that agree on the valid bytes, neither of which is the undefined raw
extract: where the one goes on, so does the other, with the same response. -/
theorem exec_agree (i : Instr) (s s' t : State) (h : s.ValidAgree s') (hp : s.poisoned = false)
    (hbody : PayloadFits i s → Option.Rel BodyAgree (commandBody i s) (commandBody i s')) (ht : exec i s = .next t)
    (hpt : t.poisoned = false) : ∃ t', exec i s' = .next t' ∧ t.SameValid t' := by
  have hpay := payloadFits_of_exec i s t ht
  have hpay' : PayloadFits i s' := fun hform => (congrArg _ h.din_eq).trans (hpay hform)
  rw [exec_eq_checkedRun i s hp hpay] at ht
  rw [exec_eq_checkedRun i s' (h.poisoned_eq.trans hp) hpay']
  unfold checkedRun runBody at ht ⊢
  rw [h.firstStatus_eq, h.undefinedCond_eq]
  split_ifs at ht ⊢
  · cases ht
    exact nomatch hpt
  · obtain ⟨u, v, d, hu, rfl⟩ := (finish_eq_next _ t).mp ht
    obtain ⟨⟨u', _⟩, hu', rfl, huu'⟩ := optionRel_some_left (hbody hpay) hu
    exact ⟨_, (finish_eq_next _ _).mpr ⟨u', v, d, hu', rfl⟩, huu'.setRsp _⟩
  · obtain rfl := (raise_eq_next _ s t).mp ht
    refine ⟨_, (raise_eq_next _ s' _).mpr rfl, ?_⟩
    rw [h.faultResponse_eq]
    exact h.setRsp _

/-! ### Read-outs -/

/-- Only a raw extract is ever undefined (60_exceptions R135). -/
theorem undefinedCond_of_readOut (i : Instr) (s : State) (hi : IsReadOut i) : undefinedCond i s = false := by
  obtain rfl | hi := hi
  · rfl
  · cases i with
    | deconcat k | deappend k => exact nomatch hi
    | _ => rfl

/-- Whatever a read-out answers in a defined run, only the response is written. -/
theorem exec_readOut_eq_setRsp (i : Instr) (s t : State) (hi : IsReadOut i) (hp : s.poisoned = false)
    (h : exec i s = .next t) : ∃ r, t = s.setRsp r := by
  obtain ⟨_, hmark⟩ | ⟨_, u, v, d, hu, rfl⟩ | ⟨_, _, rfl⟩ := exec_cases i s t h
  · simp [hp, undefinedCond_of_readOut i s hi] at hmark
  · obtain rfl := commandBody_readOut_state i s u v d hi hu
    exact ⟨_, rfl⟩
  · exact ⟨_, rfl⟩

/-- A read-out issued again sees the same valid bytes, so it answers the same and leaves the same state. -/
theorem exec_readOut_again (i : Instr) (s t : State) (hi : IsReadOut i) (hp : s.poisoned = false)
    (h : exec i s = .next t) : exec i t = .next t := by
  obtain ⟨r, rfl⟩ := exec_readOut_eq_setRsp i s t hi hp h
  have hagree := s.validAgree_setRsp r
  obtain ⟨t', ht', hsame⟩ :=
    exec_agree i s (s.setRsp r) (s.setRsp r) hagree hp (fun _ => commandBody_agree_of_readOut hagree i hi) h hp
  obtain ⟨r', rfl⟩ := exec_readOut_eq_setRsp i (s.setRsp r) t' hi hp ht'
  obtain rfl : r' = r := Option.some.inj hsame.rsp_eq
  exact ht'

/-- Settles O33: a read-out leaves everything but the response, and no command reads the response. -/
theorem readOutsChangeNothing : Obligations.ReadOutsChangeNothing := by
  unfold Obligations.ReadOutsChangeNothing
  intro i s t hi hp h
  have hread : IsReadOut i := by
    simp only [List.mem_cons, List.not_mem_nil, or_false] at hi
    obtain rfl | rfl | rfl | rfl | rfl := hi
    · exact .inl rfl
    all_goals exact .inr rfl
  refine ⟨?_, exec_readOut_again i s t hread hp h⟩
  obtain ⟨r, rfl⟩ := exec_readOut_eq_setRsp i s t hread hp h
  exact ⟨rfl, rfl, rfl, rfl, rfl, rfl⟩

/-! ### Writing keeps the agreement -/

/-- Agreement below `n` of two states with canonical stores, which writing keeps. -/
def State.WriteAgree (n : Nat) (s s' : State) : Prop :=
  s.AgreeBelow n s' ∧ Store.wf s.store = true ∧ Store.wf s'.store = true

/-- Canonical stores, and agreement on the valid bytes. -/
def State.Twins (s s' : State) : Prop := State.WriteAgree s.len s s'

section Writing
variable {n : Nat} {s s' : State}

theorem State.WriteAgree.agreeBelow (h : State.WriteAgree n s s') : s.AgreeBelow n s' := by
  obtain ⟨hagree, _, _⟩ := h
  exact hagree

theorem State.Twins.validAgree (h : s.Twins s') : s.ValidAgree s' := WriteAgree.agreeBelow h

theorem State.WriteAgree.twins (h : State.WriteAgree n s s') (hlen : s.len = n) : s.Twins s' := by
  subst hlen
  exact h

theorem State.WriteAgree.mono (h : State.WriteAgree n s s') {k : Nat} (hk : k ≤ n) : State.WriteAgree k s s' := by
  obtain ⟨⟨m, r, hs, hread⟩, hw, hw'⟩ := h
  exact ⟨⟨m, r, hs, fun a ha => hread a (ha.trans_le hk)⟩, hw, hw'⟩

theorem State.WriteAgree.map (h : State.WriteAgree n s s') {f : State → State} (hf : RegistersOnly f) :
    State.WriteAgree n (f s) (f s') := by
  obtain ⟨hagree, hw, hw'⟩ := h
  exact ⟨hagree.map hf, by rwa [hf.store_eq], by rwa [hf.store_eq]⟩

theorem State.Twins.map (h : s.Twins s') {f : State → State} (hf : RegistersOnly f) (hlen : (f s).len = s.len) :
    (f s).Twins (f s') :=
  (WriteAgree.map h hf).twins hlen

/-- The same byte written to both: the stores agree there too. -/
theorem State.WriteAgree.write (h : State.WriteAgree n s s') (k a : Nat) (v : Byte)
    (hcover : ∀ j < k, j < n ∨ j = a) :
    State.WriteAgree k (s.setStore (Store.write s.store a v)) (s'.setStore (Store.write s'.store a v)) := by
  obtain ⟨⟨m, r, rfl, hread⟩, hw, hw'⟩ := h
  refine ⟨⟨Store.write m a v, r, rfl, fun j hj => ?_⟩, Store.wf_write _ hw _ _, Store.wf_write _ hw' _ _⟩
  change Store.read (Store.write m a v) j = Store.read (Store.write s.store a v) j
  rw [Store.read_write m hw', Store.read_write s.store hw]
  split
  · rfl
  · next hne => exact hread j ((hcover j hj).resolve_right fun hja => hne hja.symm)

theorem memWrite_agree (h : State.WriteAgree n s s') (k a : Nat) (v : Byte) (hcover : ∀ j < k, j < n ∨ j = a) :
    Option.Rel (fun t t' => t.len = s.len ∧ State.WriteAgree k t t') (memWrite s a v) (memWrite s' a v) := by
  unfold memWrite
  rw [h.agreeBelow.indexValid_eq]
  split
  · exact .some ⟨rfl, h.write k a v hcover⟩
  · exact .none

/-- A run of bytes written from inside the agreement extends it to the run's end. -/
theorem memWriteRun_agree (h : State.WriteAgree n s s') (k a : Nat) (bs : List Byte) (ha : a ≤ n)
    (hk : k ≤ n ∨ k ≤ a + bs.length) :
    Option.Rel (fun t t' => t.len = s.len ∧ State.WriteAgree k t t') (memWriteRun s a bs) (memWriteRun s' a bs) := by
  induction bs generalizing n s s' a with
  | nil => exact .some ⟨rfl, h.mono (hk.elim id fun hka => hka.trans ha)⟩
  | cons b bs ih =>
    refine optionRel_bind (memWrite_agree h (max n (a + 1)) a b fun j hj => by omega) ?_
    rintro t t' ⟨hlen, ht⟩
    rw [← hlen]
    rw [List.length_cons] at hk
    exact ih ht (a + 1) (le_max_right _ _) (by omega)

theorem memWrite_twins (h : s.Twins s') (a : Nat) (v : Byte) :
    Option.Rel State.Twins (memWrite s a v) (memWrite s' a v) :=
  optionRel_mono (memWrite_agree h s.len a v fun _ hj => .inl hj) fun _ _ ⟨hlen, ht⟩ => ht.twins hlen

/-- The byte that was stale is zero in both after growing (20_memory R49). -/
theorem grow_twins (h : s.Twins s') : Option.Rel State.Twins (grow s) (grow s') := by
  rw [grow, grow, h.validAgree.len_eq]
  have hgrown : State.WriteAgree s.len (s.setLen (s.len + 1)) (s'.setLen (s.len + 1)) :=
    State.WriteAgree.map h (f := (·.setLen (s.len + 1))) fun _ _ _ => rfl
  exact optionRel_mono (memWrite_agree hgrown (s.len + 1) s.len 0x00#8 fun j hj => by omega)
    fun _ _ ⟨hlen, ht⟩ => ht.twins hlen

theorem State.Twins.advance (h : s.Twins s') (k : Nat) : (advance s k).Twins (advance s' k) :=
  h.map (f := (Machine.advance · k)) (fun _ _ _ => rfl) rfl

theorem State.Twins.setBitOffset (h : s.Twins s') (b : BitOffset) : (s.setBitOffset b).Twins (s'.setBitOffset b) :=
  h.map (f := (·.setBitOffset b)) (fun _ _ _ => rfl) rfl

theorem State.Twins.nextBit (h : s.Twins s') : s.nextBit.Twins s'.nextBit :=
  h.map (fun _ _ _ => rfl) rfl

theorem State.Twins.rewindDefined (h : s.Twins s') : s.rewind.setDefined.Twins s'.rewind.setDefined :=
  h.map (f := (·.rewind.setDefined)) (fun _ _ _ => rfl) rfl

theorem normaliseWrite_twins (h : s.Twins s') : Option.Rel State.Twins (normaliseWrite s) (normaliseWrite s') :=
  optionRel_map (grow_twins h) fun _ _ ht => (ht.advance 1).setBitOffset 0

theorem checkWrite_twins (h : s.Twins s') : Option.Rel State.Twins (checkWrite s) (checkWrite s') := by
  rw [checkWrite, checkWrite, h.validAgree.bitOffset_eq]
  split
  · exact normaliseWrite_twins h
  · exact .some h

theorem orBit_twins (h : s.Twins s') (b : Bool) : Option.Rel State.Twins (orBit b s) (orBit b s') := by
  rw [orBit, orBit, h.validAgree.memRead_eq, h.validAgree.byteIndex_eq, h.validAgree.bitOffset_eq]
  cases memRead s s.byteIndex with
  | none => exact .none
  | some old => exact memWrite_twins h _ _

theorem emitBit_twins (h : s.Twins s') (b : Bool) : Option.Rel State.Twins (emitBit b s) (emitBit b s') :=
  optionRel_bind (checkWrite_twins h) fun _ _ ht =>
    optionRel_bind (orBit_twins ht b) fun _ _ hu => checkWrite_twins hu.nextBit

theorem emitBits_twins (h : s.Twins s') (v : Value) (k : Nat) :
    Option.Rel State.Twins (emitBits v k s) (emitBits v k s') := by
  induction k generalizing s s' with
  | zero => exact .some h
  | succ k ih => exact optionRel_bind (emitBit_twins h _) fun _ _ ht => ih ht

theorem emitByteBody_twins (h : s.Twins s') (x : Byte) :
    Option.Rel State.Twins (emitByteBody s x) (emitByteBody s' x) := by
  rw [emitByteBody, emitByteBody, h.validAgree.byteIndex_eq]
  exact optionRel_bind (memWrite_twins h _ _) fun _ _ ht => normaliseWrite_twins ht

theorem emitBytesBody_twins (h : s.Twins s') (xs : List Byte) :
    Option.Rel State.Twins (emitBytesBody s xs) (emitBytesBody s' xs) := by
  induction xs generalizing s s' with
  | nil => exact .some h
  | cons x xs ih => exact optionRel_bind (emitByteBody_twins h x) fun _ _ ht => ih ht

theorem alignWriteBody_twins (h : s.Twins s') :
    Option.Rel State.Twins (alignWriteBody s) (alignWriteBody s') :=
  grow_twins ((h.setBitOffset 0).advance 1)

/-- The payload overwrites the staging byte and what is stale after it, and the new staging byte is zero
(42_write_path R103). -/
theorem appendBody_twins (h : s.Twins s') (bs : List Byte) :
    Option.Rel State.Twins (appendBody bs s) (appendBody bs s') := by
  rw [appendBody, appendBody, lastIndex, lastIndex, h.validAgree.len_eq]
  split
  · exact .none
  · next hlen =>
    have hgrown : State.WriteAgree s.len (s.setLen (s.len + bs.length)) (s'.setLen (s.len + bs.length)) :=
      State.WriteAgree.map h (f := (·.setLen (s.len + bs.length))) fun _ _ _ => rfl
    rw [Option.bind_some, Option.bind_some]
    refine optionRel_bind (memWriteRun_agree hgrown (s.len - 1 + bs.length) (s.len - 1) bs (Nat.sub_le _ _)
      (.inr le_rfl)) ?_
    rintro t t' ⟨hlent, ht⟩
    rw [State.setLen_len] at hlent
    rw [ht.agreeBelow.len_eq]
    refine optionRel_map (memWrite_agree ht t.len (t.len - 1) 0x00#8 fun j hj => by omega) ?_
    rintro u u' ⟨hlenu, hu⟩
    exact (hu.twins hlenu).advance _

/-- The staging byte of a new writer is zero whatever was stale there (40_construct_and_view R86). -/
theorem createWriterBody_twins (h : s.Twins s') :
    Option.Rel State.Twins (createWriterBody s) (createWriterBody s') := by
  have hnew : State.WriteAgree 0 ((s.setMode .writer).setLen 1) ((s'.setMode .writer).setLen 1) :=
    State.WriteAgree.map (f := fun t => (t.setMode .writer).setLen 1) (State.WriteAgree.mono h (Nat.zero_le _))
      fun _ _ _ => rfl
  refine optionRel_map (memWrite_agree hnew 1 0 0x00#8 fun j hj => by omega) ?_
  rintro t t' ⟨hlen, ht⟩
  exact (ht.twins hlen).rewindDefined

/-- The payload of a new reader covers its `LEN` (40_construct_and_view R87). -/
theorem createReaderBody_twins (h : s.Twins s') (k : BitVec 32) (bytes : List Byte) (hk : bytes.length = k.toNat) :
    Option.Rel State.Twins (createReaderBody k bytes s) (createReaderBody k bytes s') := by
  have hnew : State.WriteAgree 0 ((s.setMode .reader).setLen k.toNat) ((s'.setMode .reader).setLen k.toNat) :=
    State.WriteAgree.map (f := fun t => (t.setMode .reader).setLen k.toNat)
      (State.WriteAgree.mono h (Nat.zero_le _)) fun _ _ _ => rfl
  refine optionRel_map (memWriteRun_agree hnew k.toNat 0 bytes le_rfl (.inr (by omega))) ?_
  rintro t t' ⟨hlen, ht⟩
  exact (ht.twins hlen).rewindDefined

theorem unitResult_twins {r r' : Option State} (h : Option.Rel State.Twins r r') :
    Option.Rel BodyAgree (unitResult r) (unitResult r') :=
  unitResult_agree (optionRel_mono h fun _ _ ht => ht.validAgree)

theorem commandBody_agree_of_writer (h : s.Twins s') (i : Instr) (hi : i.mnemonic.capClass = .writer) :
    Option.Rel BodyAgree (commandBody i s) (commandBody i s') := by
  cases i with
  | buffer => exact commandBody_agree_of_readOut h.validAgree _ (.inl rfl)
  | alignW =>
    rw [commandBody, commandBody, h.validAgree.aligned0_eq]
    split
    · exact unitResult_twins (.some h)
    · exact unitResult_twins (alignWriteBody_twins h)
  | appendBytes k =>
    rw [commandBody, commandBody, h.validAgree.din_eq]
    exact unitResult_twins (appendBody_twins h _)
  | emit k v => exact unitResult_twins (emitBits_twins h v _)
  | emitByte v => exact unitResult_twins (emitByteBody_twins h v)
  | emitWord v | emitDword v => exact unitResult_twins (emitBytesBody_twins h _)
  | _ => exact nomatch hi

theorem commandBody_agree_of_construction (h : s.Twins s') (i : Instr) (hi : i.mnemonic.capClass = .any)
    (hpay : PayloadFits i s) : Option.Rel BodyAgree (commandBody i s) (commandBody i s') := by
  cases i with
  | createWriter => exact unitResult_twins (createWriterBody_twins h)
  | createReader k =>
    rw [commandBody, commandBody, h.validAgree.din_eq]
    exact unitResult_twins (createReaderBody_twins h k s.din (hpay rfl))
  | _ => exact nomatch hi

/-- No body lets the host see a stale byte, or leaves one valid. -/
theorem commandBody_agree (h : s.Twins s') (i : Instr) (hpay : PayloadFits i s) :
    Option.Rel BodyAgree (commandBody i s) (commandBody i s') := by
  cases hi : i.mnemonic.capClass with
  | any => exact commandBody_agree_of_construction h i hi hpay
  | writer => exact commandBody_agree_of_writer h i hi
  | reader => exact commandBody_agree_of_reader h.validAgree i hi
  | both => exact commandBody_agree_of_readOut h.validAgree i (.inr hi)

end Writing

/-! ### A step sees valid bytes only -/

theorem State.Twins.accept {s s' : State} (h : s.Twins s') (payload : List Byte) (rest : List HostEvent) :
    (s.accept payload rest).Twins (s'.accept payload rest) :=
  h.map (f := (·.accept payload rest)) (fun _ _ _ => rfl) rfl

theorem State.Inv.twins {s s' : State} (h : s.Inv) (h' : s'.Inv) (hagree : s.ValidAgree s') : s.Twins s' := by
  obtain ⟨_, _, hw, _⟩ := h
  obtain ⟨_, _, hw', _⟩ := h'
  exact ⟨hagree, hw, hw'⟩

/-- Reset forgets the store and the response, the only things in which the states differ. -/
theorem State.ValidAgree.assertReset_eq {s s' : State} (h : s.ValidAgree s') (rest : List HostEvent) :
    s'.assertReset rest = s.assertReset rest := by
  obtain ⟨_, _, rfl, _⟩ := h
  rfl

theorem rejectWord_agree (s s' t : State) (h : s.ValidAgree s') (hp : s.poisoned = false)
    (ht : rejectWord s = .next t) : ∃ t', rejectWord s' = .next t' ∧ t.SameValid t' := by
  obtain ⟨hmark, _⟩ | ⟨_, rfl⟩ := (rejectWord_eq_next s t).mp ht
  · exact absurd hmark (by simp [hp])
  · refine ⟨_, (rejectWord_eq_next s' _).mpr (.inr ⟨h.poisoned_eq.trans hp, rfl⟩), ?_⟩
    rw [h.faultResponse_eq]
    exact h.setRsp _

/-- Settles O16: holding the state and reset see no byte at all, a rejected word sees the registers only, and a command's
body sees the valid bytes only and writes the same bytes wherever it makes a stale one valid. -/
theorem staleBytesAreNeverObserved : Obligations.StaleBytesAreNeverObserved := by
  unfold Obligations.StaleBytesAreNeverObserved
  intro s s' t hinv hinv' hp hsame hstep hpt
  obtain ⟨hagree, hrsp⟩ := (State.sameValid_iff s s').mp hsame
  have hhost' := hagree.host_eq
  suffices h : ∃ t', step s' = .next t' ∧ t.SameValid t' by
    obtain ⟨t', ht', htt'⟩ := h
    exact ⟨t', ht', htt', htt'.rsp_eq⟩
  obtain ⟨hhost, rfl⟩ | ⟨a, rest, hhost, rfl⟩ | ⟨c, rest, e, hhost, hdec, hrej⟩ | ⟨c, rest, i, hhost, hdec, hwf, hrun⟩ :=
    step_cases s t hstep <;> rw [hhost] at hhost'
  · exact ⟨s', by simp only [step, fetch, hhost'], hsame⟩
  · refine ⟨s'.assertReset rest, by simp only [step, fetch, hhost'], ?_⟩
    rw [hagree.assertReset_eq]
    exact .refl _
  · have htwins := (hinv.twins hinv' hagree).accept c.payload rest
    obtain ⟨t', ht', htt'⟩ := rejectWord_agree _ _ t htwins.validAgree hp hrej
    exact ⟨t', by simpa only [step, fetch, hhost', hdec] using ht', htt'⟩
  · have htwins := (hinv.twins hinv' hagree).accept c.payload rest
    obtain ⟨t', ht', htt'⟩ :=
      exec_agree i _ _ t htwins.validAgree hp (commandBody_agree htwins i) hrun hpt
    exact ⟨t', (step_of_fetch_run s' _ i (fetch_eq_run s' c rest i hhost' hdec hwf)).trans ht', htt'⟩

end Sys2Proof.Machine
end

section
/-! PROOFS. The encoding (30_encoding): the opcode map selects at most one row for a word, the decoder is that selection,
and it and the encoder invert each other. -/

namespace Sys2Proof

/-! ### The opcode map -/

/-- The rows stand in the map in the order of their opcodes, from 0x01 on (30_encoding R65). -/
theorem Mnemonic.all_getElem?_opcode (m : Mnemonic) : Mnemonic.all[m.opcode.toNat - 1]? = some m := by
  cases m <;> rfl

theorem Mnemonic.mem_all (m : Mnemonic) : m ∈ Mnemonic.all :=
  List.mem_of_getElem? m.all_getElem?_opcode

theorem Mnemonic.opcode_injective {m m' : Mnemonic} (h : m.opcode = m'.opcode) : m = m' := by
  have hrow := m.all_getElem?_opcode
  rw [h, m'.all_getElem?_opcode] at hrow
  exact (Option.some.inj hrow).symm

/-- The defined opcodes are 0x01 to 0x15 (30_encoding R65, R66). -/
theorem Mnemonic.opcode_range (m : Mnemonic) : m.opcode ≠ 0x00#8 ∧ m.opcode.toNat < 0x16 := by
  cases m <;> decide

theorem Mnemonic.selects_iff_and_mask (m : Mnemonic) (w : CmdWord) : m.selects w = true ↔ w &&& m.mask = m.pattern :=
  beq_iff_eq

/-- Two rows that select a word have its opcode, so they are one row (30_encoding R65). -/
theorem Mnemonic.eq_of_selects {w : CmdWord} {m m' : Mnemonic} (h : m.selects w = true) (h' : m'.selects w = true) :
    m = m' := by
  obtain ⟨hop, _⟩ := (m.selects_iff w).mp h
  obtain ⟨hop', _⟩ := (m'.selects_iff w).mp h'
  exact opcode_injective (hop.symm.trans hop')

theorem Mnemonic.opField_pattern (m : Mnemonic) : opField m.pattern = m.opcode := by
  rw [m.pattern_eq, opField_packWord]

theorem Mnemonic.pattern_and_mask (m : Mnemonic) : m.pattern &&& m.mask = m.pattern := by
  rw [m.pattern_eq, m.mask_eq, packWord_and, BitVec.zero_and, BitVec.zero_and]
  congr 1
  exact BitVec.and_allOnes

/-! ### Searching the map -/

/-- A search for a property that at most one row has finds exactly the row that has it. -/
theorem Mnemonic.find?_all_eq_some_iff (p : Mnemonic → Bool) (hp : ∀ m m', p m = true → p m' = true → m = m')
    (m : Mnemonic) : Mnemonic.all.find? p = some m ↔ p m = true := by
  refine ⟨List.find?_some, fun hm => ?_⟩
  obtain ⟨m', hm'⟩ := Option.isSome_iff_exists.mp (List.find?_isSome.mpr ⟨m, m.mem_all, hm⟩)
  rwa [hp m m' hm (List.find?_some hm')]

theorem Mnemonic.find?_all_eq_none_iff (p : Mnemonic → Bool) :
    Mnemonic.all.find? p = none ↔ ∀ m, p m = false := by
  simp [List.find?_eq_none, Mnemonic.mem_all]

theorem find?_selects_eq_some_iff (w : CmdWord) (m : Mnemonic) :
    Mnemonic.all.find? (fun m => m.selects w) = some m ↔ m.selects w = true :=
  Mnemonic.find?_all_eq_some_iff _ (fun _ _ => Mnemonic.eq_of_selects) m

theorem find?_opcode_eq_some_iff (op : BitVec 8) (m : Mnemonic) :
    Mnemonic.all.find? (fun m => m.opcode == op) = some m ↔ m.opcode = op := by
  rw [Mnemonic.find?_all_eq_some_iff, beq_iff_eq]
  intro m m' h h'
  exact Mnemonic.opcode_injective ((beq_iff_eq.mp h).trans (beq_iff_eq.mp h').symm)

/-! ### The decoder -/

/-- A word that a row selects is that row's command. -/
theorem decode_of_selects {w : CmdWord} {m : Mnemonic} (h : m.selects w = true) :
    decode w = .ok (m.build (nbitsField w) (argField w)) := by
  rw [decode, (find?_selects_eq_some_iff w m).mpr h]

/-- A word that no row selects is no command. -/
theorem decode_of_not_selects {w : CmdWord} (h : ∀ m : Mnemonic, m.selects w = false) : ∃ e, decode w = .error e := by
  simp only [decode, (Mnemonic.find?_all_eq_none_iff _).mpr h]
  split
  · exact ⟨_, rfl⟩
  · exact ⟨_, rfl⟩

theorem decode_eq_ok_iff (w : CmdWord) (i : Instr) : decode w = .ok i ↔
    ∃ m : Mnemonic, m.selects w = true ∧ i = m.build (nbitsField w) (argField w) := by
  constructor
  · intro h
    by_cases hsel : ∃ m : Mnemonic, m.selects w = true
    · obtain ⟨m, hm⟩ := hsel
      rw [decode_of_selects hm] at h
      exact ⟨m, hm, (Except.ok.inj h).symm⟩
    · obtain ⟨e, he⟩ := decode_of_not_selects fun m => Bool.eq_false_of_not_eq_true fun hm => hsel ⟨m, hm⟩
      rw [he] at h
      exact nomatch h
  · rintro ⟨m, hm, rfl⟩
    exact decode_of_selects hm

theorem decode_eq_error_iff (w : CmdWord) : (∃ e, decode w = .error e) ↔ ∀ m : Mnemonic, m.selects w = false := by
  refine ⟨fun ⟨e, he⟩ m => Bool.eq_false_of_not_eq_true fun hm => ?_, decode_of_not_selects⟩
  rw [decode_of_selects hm] at he
  exact nomatch he

/-- A word of a defined opcode with a nonzero must-be-zero field is rejected under its row (30_encoding R67). -/
theorem decode_of_nonzero_field {w : CmdWord} {m : Mnemonic} (hop : opField w = m.opcode)
    (hfields : m.form.fieldsWellFormed (nbitsField w) (argField w) = false) :
    decode w = .error (.nonzeroReservedField m) := by
  have hnone : ∀ m' : Mnemonic, m'.selects w = false := by
    intro m'
    refine Bool.eq_false_of_not_eq_true fun hm' => ?_
    obtain ⟨hop', hfields'⟩ := (m'.selects_iff w).mp hm'
    rw [← Mnemonic.opcode_injective (hop.symm.trans hop'), hfields] at hfields'
    exact nomatch hfields'
  rw [decode, (Mnemonic.find?_all_eq_none_iff _).mpr hnone, (find?_opcode_eq_some_iff _ m).mpr hop.symm]

/-- A word whose opcode no row has is rejected under its opcode (30_encoding R66). -/
theorem decode_of_reserved_opcode {w : CmdWord} (h : ∀ m : Mnemonic, m.opcode ≠ opField w) :
    decode w = .error (.reservedOpcode (opField w)) := by
  have hnone : ∀ m : Mnemonic, m.selects w = false := fun m =>
    Bool.eq_false_of_not_eq_true fun hm => h m ((m.selects_iff w).mp hm).1.symm
  have hop : ∀ m : Mnemonic, (m.opcode == opField w) = false := fun m => beq_false_of_ne (h m)
  rw [decode, (Mnemonic.find?_all_eq_none_iff _).mpr hnone, (Mnemonic.find?_all_eq_none_iff _).mpr hop]

/-! ### Commands and their fields -/

@[simp] theorem Mnemonic.build_mnemonic (m : Mnemonic) (nbits : BitVec 8) (arg : BitVec 32) :
    (m.build nbits arg).mnemonic = m := by
  cases m <;> rfl

/-- The low bits of an operand that was extended to `ARG` are the operand (30_encoding R63). -/
theorem extractLsb'_zeroExtend (n : Nat) (hn : n ≤ 32) (v : BitVec n) : (v.zeroExtend 32).extractLsb' 0 n = v :=
  (BitVec.extractLsb'_setWidth_of_le (by omega)).trans BitVec.extractLsb'_eq_self

/-- An `ARG` without bits above a width is its low bits, extended. -/
theorem zeroExtend_extractLsb' (n : Nat) (a : BitVec 32) (h : a &&& (BitVec.allOnes 32 <<< n) = 0#32) :
    (a.extractLsb' 0 n).zeroExtend 32 = a := by
  refine BitVec.eq_of_getLsbD_eq fun i hi => ?_
  have hbit := congrArg (·.getLsbD i) h
  simp only [BitVec.getLsbD_and, BitVec.getLsbD_shiftLeft, BitVec.getLsbD_allOnes, BitVec.getLsbD_zero] at hbit
  simp only [BitVec.truncate_eq_setWidth, BitVec.getLsbD_setWidth, BitVec.getLsbD_extractLsb', Nat.zero_add]
  by_cases hin : i < n
  · simp [hi, hin]
  · simpa [hi, hin, show i - n < 32 by omega] using hbit

/-- A row reads a command's own fields back as that command. -/
theorem Instr.build_fields (i : Instr) : i.mnemonic.build i.nbits i.arg = i := by
  cases i with
  | emitByte v => exact congrArg Instr.emitByte (extractLsb'_zeroExtend 8 (by omega) v)
  | emitWord v => exact congrArg Instr.emitWord (extractLsb'_zeroExtend 16 (by omega) v)
  | _ => rfl

/-- What a form leaves of well-formed fields is all of them: a command built from them has them as its own fields. -/
theorem Mnemonic.build_nbits_arg (m : Mnemonic) (nbits : BitVec 8) (arg : BitVec 32)
    (h : m.form.fieldsWellFormed nbits arg = true) : (m.build nbits arg).nbits = nbits ∧ (m.build nbits arg).arg = arg := by
  obtain ⟨hn, ha⟩ := Bool.and_eq_true_iff.mp h
  replace hn := beq_iff_eq.mp hn
  replace ha := beq_iff_eq.mp ha
  have hzero (hmask : m.form.nbitsMask = BitVec.allOnes 8) : 0#8 = nbits := by
    rwa [hmask, BitVec.and_allOnes, eq_comm] at hn
  cases m with
  | emit => exact ⟨rfl, rfl⟩
  | emitByte => exact ⟨hzero rfl, zeroExtend_extractLsb' 8 arg ha⟩
  | emitWord => exact ⟨hzero rfl, zeroExtend_extractLsb' 16 arg ha⟩
  | emitDword | createReader | appendBytes | deconcat | deappend => exact ⟨hzero rfl, rfl⟩
  | collect => exact ⟨rfl, (BitVec.and_allOnes.symm.trans ha).symm⟩
  | _ => exact ⟨hzero rfl, (BitVec.and_allOnes.symm.trans ha).symm⟩

/-- The must-be-zero bits of every command's word are zero (30_encoding R62). -/
theorem Laws.EncodeFields.statement (i : Instr) : Statement i := by
  cases i with
  | createWriter => exact createWriter
  | createReader k => exact createReader k
  | buffer => exact buffer
  | rawview => exact rawview
  | getByteIndex => exact getByteIndex
  | getBitOffset => exact getBitOffset
  | alignW => exact alignW
  | alignR => exact alignR
  | collectAll => exact collectAll
  | hasMore => exact hasMore
  | appendBytes k => exact appendBytes k
  | emit n v => exact emit n v
  | emitByte v => exact emitByte v
  | emitWord v => exact emitWord v
  | emitDword v => exact emitDword v
  | deconcat k => exact deconcat k
  | deappend k => exact deappend k
  | collect n => exact collect n
  | collectByte => exact collectByte
  | collectWord => exact collectWord
  | collectDword => exact collectDword

theorem Instr.fieldsWellFormed (i : Instr) : i.mnemonic.form.fieldsWellFormed i.nbits i.arg = true := by
  obtain ⟨_, _, _, hfields⟩ := Laws.EncodeFields.statement i
  exact hfields

/-- The form of a pair, by the row's form (30_encoding R64). -/
theorem Instr.payloadWellFormed_iff (i : Instr) (payload : List Byte) : i.payloadWellFormed payload = true ↔
    if i.mnemonic.form = .p then payload.length = i.arg.toNat else payload = [] := by
  unfold Instr.payloadWellFormed
  cases i.mnemonic.form <;> simp

/-! ### Encoding and decoding -/

/-- A row encodes well-formed fields as its opcode and those fields (30_encoding R61). -/
theorem encode_build (m : Mnemonic) (nbits : BitVec 8) (arg : BitVec 32)
    (h : m.form.fieldsWellFormed nbits arg = true) : encode (m.build nbits arg) = packWord m.opcode nbits arg := by
  obtain ⟨hn, ha⟩ := m.build_nbits_arg nbits arg h
  rw [encode_eq_packWord, m.build_mnemonic, hn, ha]

/-- The word packed from a command's own fields decodes to the command. -/
theorem decode_packWord_fields (i : Instr) : decode (packWord i.mnemonic.opcode i.nbits i.arg) = .ok i := by
  refine (decode_eq_ok_iff _ i).mpr ⟨i.mnemonic, ?_, ?_⟩
  · rw [Mnemonic.selects_iff, opField_packWord, nbitsField_packWord, argField_packWord]
    exact ⟨rfl, i.fieldsWellFormed⟩
  · rw [nbitsField_packWord, argField_packWord, i.build_fields]

theorem decode_encode (i : Instr) : decode (encode i) = .ok i := by
  rw [encode_eq_packWord, decode_packWord_fields]

/-- A word is the encoding of the command it decodes to. -/
theorem encode_of_decode {w : CmdWord} {i : Instr} (h : decode w = .ok i) : encode i = w := by
  obtain ⟨m, hm, rfl⟩ := (decode_eq_ok_iff w i).mp h
  obtain ⟨hop, hfields⟩ := (m.selects_iff w).mp hm
  rw [encode_build m _ _ hfields, ← hop, packWord_fields]

/-- Encoding is the row's match ORed with the operand fields (30_encoding R69). -/
theorem encode_eq_pattern_or (i : Instr) : encode i = i.mnemonic.pattern ||| packWord 0#8 i.nbits i.arg := by
  simp [encode, packWord, BitVec.or_assoc]

/-- Every word of `EMIT`'s opcode is an `EMIT`: its form asks for no zero (30_encoding R62, R67). -/
theorem decode_of_opField_emit {w : CmdWord} (h : opField w = 0x0C#8) :
    decode w = .ok (.emit (nbitsField w) (argField w)) := by
  have hw := packWord_fields w
  rw [h] at hw
  rw [← congrArg decode hw]
  exact decode_packWord_fields (.emit (nbitsField w) (argField w))

/-! ### The obligations of 30_encoding on words -/

/-- Settles O2: the decoder is the search for the selecting row, of which there is at most one, and a row's command carries
the fields it was read from. -/
theorem decodeIsTheTableAndInvertsEncode : Obligations.DecodeIsTheTableAndInvertsEncode := by
  unfold Obligations.DecodeIsTheTableAndInvertsEncode
  simp only [← Mnemonic.selects_iff_and_mask, ne_eq, Bool.not_eq_true]
  exact ⟨decode_eq_ok_iff, decode_eq_error_iff, encode_eq_pattern_or, decode_encode, fun _ _ => encode_of_decode⟩

/-- Settles O3: two rows that select a word share its opcode, and the opcodes differ. -/
theorem atMostOneRowMatchesAWord : Obligations.AtMostOneRowMatchesAWord := by
  unfold Obligations.AtMostOneRowMatchesAWord
  refine ⟨fun w m m' h h' => ?_, fun m => ⟨m.opField_pattern, m.pattern_and_mask⟩, fun _ _ => Mnemonic.opcode_injective⟩
  exact Mnemonic.eq_of_selects ((m.selects_iff_and_mask w).mpr h) ((m'.selects_iff_and_mask w).mpr h')

/-- Settles O6: each listed word is packed from its command's own opcode and fields. -/
theorem operandsAreReadFromTheirFields : Obligations.OperandsAreReadFromTheirFields := by
  unfold Obligations.OperandsAreReadFromTheirFields
  exact ⟨fun n v => decode_packWord_fields (.emit n v), fun n => decode_packWord_fields (.collect n),
    fun v => decode_packWord_fields (.emitByte v), fun v => decode_packWord_fields (.emitWord v),
    fun v => decode_packWord_fields (.emitDword v),
    fun k => ⟨decode_packWord_fields (.createReader k), decode_packWord_fields (.appendBytes k),
      decode_packWord_fields (.deconcat k), decode_packWord_fields (.deappend k)⟩⟩

end Sys2Proof
end

section
/-! PROOFS. The assembler's commands (30_encoding R73): for each operand form, what a mnemonic of that form takes and the
word it gives. -/

namespace Sys2Proof

/-! ### Operands and payloads that the assembler accepts -/

theorem asmBounded_eq_ok_iff (bound : Nat) (e : AsmError) (n k : Nat) :
    asmBounded bound e n = .ok k ↔ n < bound ∧ k = n := by
  unfold asmBounded
  split <;> simp_all [eq_comm]

theorem except_map_eq_ok_iff {ε α β : Type} (x : Except ε α) (f : α → β) (y : β) :
    x.map f = .ok y ↔ ∃ a, x = .ok a ∧ y = f a := by
  cases x <;> simp [Except.map, eq_comm]

theorem except_bind_eq_ok_iff {ε α β : Type} (x : Except ε α) (f : α → Except ε β) (y : β) :
    x.bind f = .ok y ↔ ∃ a, x = .ok a ∧ f a = .ok y := by
  cases x <;> simp [Except.bind]

/-- A bounded number given to a command. -/
theorem asmBounded_map_eq_ok_iff {α : Type} (bound : Nat) (e : AsmError) (n : Nat) (f : Nat → α) (c : α) :
    (asmBounded bound e n).map f = .ok c ↔ n < bound ∧ c = f n := by
  simp [except_map_eq_ok_iff, asmBounded_eq_ok_iff, and_assoc]

theorem asmNone_eq_ok_iff (m : Mnemonic) (operands : List Nat) (c : Command) :
    asmNone m operands = .ok c ↔ operands = [] ∧ c = asmPlain m 0 0 := by
  cases operands <;> simp [asmNone, eq_comm]

theorem asmOne_eq_ok_iff (bound : Nat) (e : AsmError) (f : Nat → Command) (operands : List Nat) (c : Command) :
    asmOne bound e f operands = .ok c ↔ ∃ n, operands = [n] ∧ n < bound ∧ c = f n := by
  match operands with
  | [] => simp [asmOne]
  | [n] => simp [asmOne, asmBounded_map_eq_ok_iff]
  | _ :: _ :: _ => simp [asmOne]

theorem asmEmit_eq_ok_iff (m : Mnemonic) (operands : List Nat) (c : Command) : asmEmit m operands = .ok c ↔
    ∃ v n, operands = [v, n] ∧ n < 2 ^ 8 ∧ v < 2 ^ 32 ∧ c = asmPlain m n v := by
  match operands with
  | [] | [_] | _ :: _ :: _ :: _ => simp [asmEmit]
  | [v, n] => simp [asmEmit, except_bind_eq_ok_iff, asmBounded_map_eq_ok_iff, asmBounded_eq_ok_iff, and_assoc]

theorem asmPayload_eq_ok_iff (m : Mnemonic) (bytes : List Nat) (c : Command) : asmPayload m bytes = .ok c ↔
    (∀ b ∈ bytes, b < 2 ^ 8) ∧ bytes.length < 2 ^ 32 ∧
      c = ⟨encode (m.build 0#8 (BitVec.ofNat 32 bytes.length)), bytes.map (BitVec.ofNat 8)⟩ := by
  unfold asmPayload
  split
  · next hwide =>
    obtain ⟨b, hb, hle⟩ := List.any_eq_true.mp hwide
    exact ⟨nofun, fun ⟨hall, _⟩ => absurd (hall b hb) (Nat.not_lt.mpr (of_decide_eq_true hle))⟩
  · next hfit =>
    have hall : ∀ b ∈ bytes, b < 2 ^ 8 := by simpa using hfit
    rw [asmBounded_map_eq_ok_iff]
    exact (and_iff_right hall).symm

/-! ### A mnemonic by its form -/

section Forms

variable (m : Mnemonic) (operands : List Nat) (payload : Option (List Nat)) (c : Command)

/-- A mnemonic that takes no payload is given its operands alone. -/
theorem assembleCommand_eq_ok_of_no_payload (hm : m.form ≠ .p) : assembleCommand m operands payload = .ok c ↔
    payload = none ∧ assembleCommand m operands none = .ok c := by
  cases payload with
  | none => exact (and_iff_right rfl).symm
  | some bytes =>
    refine ⟨fun h => ?_, nofun⟩
    unfold assembleCommand at h
    cases hf : m.form with
    | p => exact absurd hf hm
    | _ => simp [hf] at h

theorem assembleCommand_of_z (hm : m.form = .z) : assembleCommand m operands payload = .ok c ↔
    operands = [] ∧ payload = none ∧ c = asmPlain m 0 0 := by
  rw [assembleCommand_eq_ok_of_no_payload m _ _ _ (by simp [hm])]
  simp only [assembleCommand, hm, asmNone_eq_ok_iff, and_left_comm]

theorem assembleCommand_of_nv (hm : m.form = .nv) : assembleCommand m operands payload = .ok c ↔
    ∃ v n, operands = [v, n] ∧ payload = none ∧ n < 2 ^ 8 ∧ v < 2 ^ 32 ∧ c = asmPlain m n v := by
  rw [assembleCommand_eq_ok_of_no_payload m _ _ _ (by simp [hm])]
  simp only [assembleCommand, hm, asmEmit_eq_ok_iff, ← exists_and_left, and_left_comm (a := payload = none)]

theorem assembleCommand_of_n (hm : m.form = .n) : assembleCommand m operands payload = .ok c ↔
    ∃ n, operands = [n] ∧ payload = none ∧ n < 2 ^ 8 ∧ c = asmPlain m n 0 := by
  rw [assembleCommand_eq_ok_of_no_payload m _ _ _ (by simp [hm])]
  simp only [assembleCommand, hm, asmOne_eq_ok_iff, ← exists_and_left, and_left_comm (a := payload = none)]

/-- The forms with one operand in `ARG`, and its width (30_encoding R62). -/
def Form.argWidth : Form → Option Nat
  | .v8 => some 8
  | .v16 => some 16
  | .v32 | .c => some 32
  | .z | .nv | .n | .p => none

theorem assembleCommand_of_argWidth (width : Nat) (hm : m.form.argWidth = some width) :
    assembleCommand m operands payload = .ok c ↔
      ∃ v, operands = [v] ∧ payload = none ∧ v < 2 ^ width ∧ c = asmPlain m 0 v := by
  have hp : m.form ≠ .p := fun hp => by rw [hp] at hm; exact nomatch hm
  rw [assembleCommand_eq_ok_of_no_payload m _ _ _ hp]
  cases hf : m.form with
  | v8 | v16 | v32 | c =>
    obtain rfl : _ = width := Option.some.inj (hf ▸ hm)
    simp only [assembleCommand, hf, asmOne_eq_ok_iff, ← exists_and_left, and_left_comm (a := payload = none)]
  | _ => exact nomatch hf ▸ hm

theorem assembleCommand_of_p (hm : m.form = .p) : assembleCommand m operands payload = .ok c ↔
    ∃ bytes, operands = [] ∧ payload = some bytes ∧ (∀ b ∈ bytes, b < 2 ^ 8) ∧ bytes.length < 2 ^ 32 ∧
      c = ⟨encode (m.build 0#8 (BitVec.ofNat 32 bytes.length)), bytes.map (BitVec.ofNat 8)⟩ := by
  cases payload with
  | none => simp [assembleCommand, hm]
  | some bytes => cases operands <;> simp [assembleCommand, hm, asmPayload_eq_ok_iff]

end Forms

/-! ### The word of an accepted command -/

/-- A number below a width has no bit at or above it. -/
theorem ofNat_and_high (n v : Nat) (h : v < 2 ^ n) : BitVec.ofNat 32 v &&& (BitVec.allOnes 32 <<< n) = 0#32 := by
  refine BitVec.eq_of_getLsbD_eq fun i hi => ?_
  simp only [BitVec.getLsbD_and, BitVec.getLsbD_shiftLeft, BitVec.getLsbD_ofNat]
  by_cases hin : i < n
  · simp [hin]
  · simp [Nat.testBit_lt_two_pow (h.trans_le (Nat.pow_le_pow_right Nat.two_pos (Nat.not_lt.mp hin)))]

/-- The word of a row's command, where the operands fit the row's form. -/
theorem asmPlain_eq_packWord (m : Mnemonic) (nbits arg : Nat)
    (h : m.form.fieldsWellFormed (BitVec.ofNat 8 nbits) (BitVec.ofNat 32 arg) = true) :
    asmPlain m nbits arg = ⟨packWord m.opcode (BitVec.ofNat 8 nbits) (BitVec.ofNat 32 arg), []⟩ := by
  rw [asmPlain, encode_build m _ _ h]

/-- One operand below the width of its form leaves the must-be-zero bits zero (30_encoding R62, R73). -/
theorem fieldsWellFormed_of_lt_argWidth (f : Form) (width v : Nat) (hf : f.argWidth = some width) (hv : v < 2 ^ width) :
    f.fieldsWellFormed 0#8 (BitVec.ofNat 32 v) = true := by
  refine Bool.and_eq_true_iff.mpr ⟨beq_iff_eq.mpr BitVec.zero_and, beq_iff_eq.mpr ?_⟩
  cases f with
  | v8 | v16 =>
    obtain rfl := Option.some.inj hf
    exact ofNat_and_high _ v hv
  | v32 | c => exact BitVec.and_zero
  | _ => exact nomatch hf

/-- What the assembler accepts is a row's command, encoded, with the payload that command calls for (30_encoding R64,
R73). -/
theorem assembleCommand_word (m : Mnemonic) (operands : List Nat) (payload : Option (List Nat)) (c : Command)
    (h : assembleCommand m operands payload = .ok c) :
    ∃ nbits arg, c.word = encode (m.build nbits arg) ∧ (m.build nbits arg).payloadWellFormed c.payload = true := by
  have hempty (nbits : BitVec 8) (arg : BitVec 32) (hm : m.form ≠ .p) :
      (m.build nbits arg).payloadWellFormed [] = true := by
    rw [Instr.payloadWellFormed_iff, m.build_mnemonic, if_neg hm]
  cases hf : m.form with
  | z =>
    obtain ⟨_, _, rfl⟩ := (assembleCommand_of_z m _ _ c hf).mp h
    exact ⟨_, _, rfl, hempty _ _ (by simp [hf])⟩
  | nv =>
    obtain ⟨_, _, _, _, _, _, rfl⟩ := (assembleCommand_of_nv m _ _ c hf).mp h
    exact ⟨_, _, rfl, hempty _ _ (by simp [hf])⟩
  | n =>
    obtain ⟨_, _, _, _, rfl⟩ := (assembleCommand_of_n m _ _ c hf).mp h
    exact ⟨_, _, rfl, hempty _ _ (by simp [hf])⟩
  | v8 | v16 | v32 | c =>
    obtain ⟨_, _, _, _, rfl⟩ := (assembleCommand_of_argWidth m _ _ c _ (congrArg Form.argWidth hf)).mp h
    exact ⟨_, _, rfl, hempty _ _ (by simp [hf])⟩
  | p =>
    obtain ⟨bytes, _, _, _, hlen, rfl⟩ := (assembleCommand_of_p m _ _ c hf).mp h
    refine ⟨_, _, rfl, ?_⟩
    have hfields : m.form.fieldsWellFormed 0#8 (BitVec.ofNat 32 bytes.length) = true := by
      simp [hf, Form.fieldsWellFormed, Form.argMask]
    obtain ⟨_, harg⟩ := m.build_nbits_arg _ _ hfields
    rw [Instr.payloadWellFormed_iff, m.build_mnemonic, if_pos hf, harg, List.length_map, BitVec.toNat_ofNat,
      Nat.mod_eq_of_lt hlen]

/-! ### The rows of the table of R73 -/

/-- An operand-free row gives its one word, which is its match (30_encoding R65, R73). -/
theorem asmPlain_zero_eq_pattern (m : Mnemonic) : asmPlain m 0 0 = ⟨m.pattern, []⟩ := by
  rw [asmPlain_eq_packWord m 0 0 (Bool.and_eq_true_iff.mpr
    ⟨beq_iff_eq.mpr BitVec.zero_and, beq_iff_eq.mpr BitVec.zero_and⟩), m.pattern_eq]

/-- What holds of every row of a list, by its test, holds of a row in it. -/
theorem of_mem_of_all {α : Type} {l : List α} {x : α} (p : α → Prop) [DecidablePred p] (h : x ∈ l)
    (hall : (l.all fun r => decide (p r)) = true) : p x :=
  of_decide_eq_true (List.all_eq_true.mp hall x h)

/-- Settles O7: each form's rows take what the form says, and the word is packed from the fields, which the bounds keep
well formed. -/
theorem assembledCommandsFollowTheSyntax : Obligations.AssembledCommandsFollowTheSyntax := by
  unfold Obligations.AssembledCommandsFollowTheSyntax
  have hbyte (n : Nat) : n < 2 ^ 8 ↔ n ≤ 255 := Nat.lt_succ_iff
  refine ⟨fun m operands payload c h => ?_, fun m w operands payload c hrow => ?_,
    fun m op operands payload c hrow => ?_, fun operands payload c => ?_, fun operands payload c => ?_,
    fun m op width operands payload c hrow => ?_⟩
  · obtain ⟨nbits, arg, hword, hpay⟩ := assembleCommand_word m operands payload c h
    exact ⟨m.build nbits arg, by rw [hword, decode_encode], m.build_mnemonic nbits arg, hpay⟩
  · obtain ⟨hform, rfl⟩ : m.form = .z ∧ m.pattern = w :=
      of_mem_of_all (fun r => r.1.form = .z ∧ r.1.pattern = r.2) hrow (by decide)
    rw [assembleCommand_of_z m _ _ _ hform, asmPlain_zero_eq_pattern]
  · obtain ⟨hform, rfl⟩ : m.form = .p ∧ m.opcode = op :=
      of_mem_of_all (fun r => r.1.form = .p ∧ r.1.opcode = r.2) hrow (by decide)
    have hword (k : BitVec 32) : encode (m.build 0#8 k) = packWord m.opcode 0#8 k :=
      encode_build m 0#8 k (by simp [hform, Form.fieldsWellFormed, Form.argMask])
    simp only [assembleCommand_of_p m _ _ _ hform, hword]
  · have hword (n v : Nat) := asmPlain_eq_packWord .emit n v (Instr.fieldsWellFormed (.emit _ _))
    simp only [assembleCommand_of_nv .emit _ _ _ rfl, hword, hbyte, Mnemonic.opcode]
  · have hword (n : Nat) := asmPlain_eq_packWord .collect n 0 (Instr.fieldsWellFormed (.collect _))
    simp only [assembleCommand_of_n .collect _ _ _ rfl, hword, hbyte, Mnemonic.opcode]
  · obtain ⟨hform, rfl⟩ : m.form.argWidth = some width ∧ m.opcode = op :=
      of_mem_of_all (fun r => r.1.form.argWidth = some r.2.2 ∧ r.1.opcode = r.2.1) hrow (by decide)
    rw [assembleCommand_of_argWidth m _ _ _ width hform]
    refine exists_congr fun v => and_congr_right fun _ => and_congr_right fun _ => and_congr_right fun hv => ?_
    rw [asmPlain_eq_packWord m 0 v (fieldsWellFormed_of_lt_argWidth m.form width v hform hv)]

end Sys2Proof
end

section
/-! PROOFS. The step at each event (30_encoding R60, R64, R70, R75): which words and pairs it rejects, and that it answers
every other command with one well-formed response. -/

namespace Sys2Proof.Machine

/-! ### The step at each event -/

theorem step_of_no_event {s : State} (hhost : s.host = []) : step s = .next s := by
  simp only [step, fetch, hhost]

theorem step_of_reset {s : State} {a : Option Command} {rest : List HostEvent} (hhost : s.host = .reset a :: rest) :
    step s = .next (s.assertReset rest) := by
  simp only [step, fetch, hhost]

theorem step_of_illegal_word {s : State} {c : Command} {rest : List HostEvent} {e : DecodeError}
    (hhost : s.host = .command c :: rest) (hdec : decode c.word = .error e) :
    step s = rejectWord (s.accept c.payload rest) := by
  simp only [step, fetch, hhost, hdec]

theorem step_of_ill_formed_pair {s : State} {c : Command} {rest : List HostEvent} {i : Instr}
    (hhost : s.host = .command c :: rest) (hdec : decode c.word = .ok i)
    (hwf : i.payloadWellFormed c.payload = false) : step s = .refused .illFormedCommand := by
  simp [step, fetch, hhost, hdec, hwf]

/-- In a defined run a word that decodes to nothing answers `ILLEGAL_COMMAND` and changes no state (60_exceptions R136,
R141). -/
theorem step_faultsWith_of_illegal_word {s : State} {c : Command} {rest : List HostEvent} {e : DecodeError}
    (hp : s.poisoned = false) (hhost : s.host = .command c :: rest) (hdec : decode c.word = .error e) :
    FaultsWith (step s) .illegalCommand (s.accept c.payload rest) := by
  refine ⟨(s.accept c.payload rest).setRsp (faultResponse .illegalCommand (s.accept c.payload rest)), ?_, rfl,
    rfl, rfl, rfl, rfl, rfl, rfl⟩
  rw [step_of_illegal_word hhost hdec]
  exact (rejectWord_eq_next _ _).mpr (.inr ⟨hp, rfl⟩)

/-! ### `EMIT` reads the low bits of its value only -/

theorem emitBits_congr {v v' : Value} {n : Nat} (h : ∀ i < n, v.getLsbD i = v'.getLsbD i) :
    emitBits v n = emitBits v' n := by
  induction n with
  | zero => rfl
  | succ n ih =>
    funext s
    rw [emitBits, emitBits, h n n.lt_succ_self, ih fun i hi => h i (hi.trans n.lt_succ_self)]

theorem exec_emit_congr (n : BitVec 8) {v v' : BitVec 32} (s : State) (h : ∀ i < n.toNat, v.getLsbD i = v'.getLsbD i) :
    exec (.emit n v) s = exec (.emit n v') s := by
  change execEmit n v s = execEmit n v' s
  rw [execEmit, execEmit, emitBits_congr (n := numBitsOperand n) h]

/-! ### Every step goes on, but at an ill-formed pair -/

theorem rejectWord_goes_on (s : State) : ∃ t, rejectWord s = .next t := by
  cases hp : s.poisoned with
  | true => exact ⟨_, whenDefined_of_poisoned s _ hp⟩
  | false => exact ⟨_, whenDefined_of_defined s _ hp⟩

theorem finish_goes_on_of_bodyCompletes {i : Instr} {s : State} (h : BodyCompletes i s) :
    ∃ t, finish (commandBody i s) = .next t := by
  obtain ⟨u, v, d, hbody, _⟩ := h
  exact ⟨_, (finish_eq_next _ _).mpr ⟨u, v, d, hbody, rfl⟩⟩

/-- From the invariant every command of a well-formed pair has a next state (60_exceptions R143). -/
theorem exec_goes_on (i : Instr) (s : State) (h : s.Inv) (hpay : PayloadFits i s) : ∃ t, exec i s = .next t := by
  cases hp : s.poisoned with
  | true =>
    rw [exec_of_poisoned i s hp hpay]
    split
    · next hrun =>
      obtain ⟨hi, hok⟩ := hrun
      obtain ⟨_, _, _, _, hroom⟩ := (firstStatus_eq_ok_iff i s).mp hok
      obtain ⟨hcap, _⟩ := h
      exact finish_goes_on_of_bodyCompletes (bodyCompletes_of_construction i s hi hcap hpay hroom)
    · exact ⟨_, rfl⟩
  | false =>
    rw [exec_eq_checkedRun i s hp hpay, checkedRun, runBody]
    split_ifs with hok hundef
    · exact ⟨_, rfl⟩
    · exact finish_goes_on_of_bodyCompletes
        (bodyCompletes_of_firstStatus_ok i s h hp hpay hok (Bool.eq_false_of_not_eq_true hundef))
    · exact ⟨_, rfl⟩

/-- The host presents a command pair whose payload is not the one its word calls for (30_encoding R64). -/
def State.AtIllFormedPair (s : State) : Prop :=
  ∃ c rest i, s.host = .command c :: rest ∧ decode c.word = .ok i ∧ i.payloadWellFormed c.payload = false

/-- From the invariant a step goes on, or refuses an ill-formed pair. -/
theorem step_goes_on_or_refuses (s : State) (h : s.Inv) :
    (∃ t, step s = .next t) ∨ (step s = .refused .illFormedCommand ∧ s.AtIllFormedPair) := by
  match hhost : s.host with
  | [] => exact .inl ⟨_, step_of_no_event hhost⟩
  | .reset a :: rest => exact .inl ⟨_, step_of_reset hhost⟩
  | .command c :: rest =>
    match hdec : decode c.word with
    | .error e =>
      rw [step_of_illegal_word hhost hdec]
      exact .inl (rejectWord_goes_on _)
    | .ok i =>
      cases hwf : i.payloadWellFormed c.payload with
      | false => exact .inr ⟨step_of_ill_formed_pair hhost hdec hwf, c, rest, i, hhost, hdec, hwf⟩
      | true =>
        rw [step_of_fetch_run s _ i (fetch_eq_run s c rest i hhost hdec hwf)]
        exact .inl (exec_goes_on i _ (h.accept c.payload rest) (payloadFits_of_wellFormed i _ hwf))

/-! ### One event, one response -/

/-- No body touches the host's events or the capacity. -/
theorem commandBody_host_cap (i : Instr) (s u : State) (v : Value) (d : List Byte)
    (h : commandBody i s = some (u, v, d)) : u.host = s.host ∧ u.cap = s.cap := by
  have hframe : s.WriteFrame u → u.host = s.host ∧ u.cap = s.cap := fun ⟨⟨_, hcap, hhost, _⟩, _⟩ => ⟨hhost, hcap⟩
  cases hi : i.mnemonic.capClass with
  | any =>
    cases i with
    | createWriter =>
      obtain rfl := createWriterBody_eq_some s u (unitResult_state h)
      exact ⟨rfl, rfl⟩
    | createReader k =>
      obtain rfl := createReaderBody_eq_some k s.din s u (unitResult_state h)
      exact ⟨rfl, rfl⟩
    | _ => exact nomatch hi
  | writer => exact hframe (commandBody_writeFrame i s u v d hi h)
  | reader => exact hframe (commandBody_readFrame i s u v d hi h).writeFrame
  | both =>
    obtain rfl := commandBody_both_state i s u v d hi h
    exact ⟨rfl, rfl⟩

/-- The state `t` answers a command taken in `s`: a response stands, and neither the host's further events nor the capacity
has changed (30_encoding R70, R75, 00_scope R11). -/
def State.Answers (s t : State) : Prop := t.host = s.host ∧ t.cap = s.cap ∧ ∃ r, t.rsp = some r

theorem State.answers_poison (s : State) : s.Answers s.poison := ⟨rfl, rfl, _, rfl⟩

theorem State.answers_setRsp (s : State) (r : Response) : s.Answers (s.setRsp r) := ⟨rfl, rfl, r, rfl⟩

theorem rejectWord_answers (s t : State) (h : rejectWord s = .next t) : s.Answers t := by
  obtain ⟨_, rfl⟩ | ⟨_, rfl⟩ := (rejectWord_eq_next s t).mp h
  · exact s.answers_poison
  · exact s.answers_setRsp _

theorem exec_answers (i : Instr) (s t : State) (h : exec i s = .next t) : s.Answers t := by
  obtain ⟨rfl, _⟩ | ⟨_, u, v, d, hu, rfl⟩ | ⟨_, _, rfl⟩ := exec_cases i s t h
  · exact s.answers_poison
  · obtain ⟨hhost, hcap⟩ := commandBody_host_cap i s u v d hu
    exact ⟨hhost, hcap, _, rfl⟩
  · exact s.answers_setRsp _

/-! ### The response is well formed -/

/-- A read answers valid bytes only, so no more than there are from its index on (00_scope R14). -/
theorem memReadRun_fits (s : State) (a n : Nat) (d : List Byte) (h : memReadRun s a n = some d) :
    d = [] ∨ a + d.length ≤ s.len := by
  induction n generalizing a d with
  | zero => exact .inl (Option.some.inj h).symm
  | succ n ih =>
    obtain ⟨b, hb, h⟩ := Option.bind_eq_some_iff.mp h
    obtain ⟨rest, hrest, rfl⟩ := Option.map_eq_some_iff.mp h
    obtain ⟨hvalid, _⟩ := (memRead_eq_some s a b).mp hb
    have hlt := s.indexValid_lt a hvalid
    right
    obtain rfl | hfit := ih (a + 1) rest hrest
    · exact hlt
    · rw [List.length_cons]
      omega

theorem memReadRun_length_le {s : State} {a n : Nat} {d : List Byte} (h : memReadRun s a n = some d) :
    d.length ≤ s.len := by
  obtain rfl | hfit := memReadRun_fits s a n d h
  · exact Nat.zero_le _
  · omega

theorem committedView_length_le {s : State} {d : List Byte} (h : committedView s = some d) : d.length ≤ s.len := by
  unfold committedView at h
  split at h
  · obtain ⟨_, _, hread⟩ := Option.bind_eq_some_iff.mp h
    exact memReadRun_length_le hread
  · exact memReadRun_length_le h

theorem remainingBytes_length_le {s : State} {d : List Byte} (h : remainingBytes s = some d) : d.length ≤ s.len := by
  obtain ⟨_, _, hread⟩ := Option.bind_eq_some_iff.mp h
  exact memReadRun_length_le hread

theorem takeBytes_length_le {s u : State} {n : Nat} {d : List Byte} (h : takeBytes s n = some (d, u)) :
    d.length ≤ u.len := by
  obtain rfl := takeBytes_state s u n d h
  obtain ⟨_, hread, heq⟩ := Option.map_eq_some_iff.mp h
  obtain ⟨rfl, _⟩ := Prod.mk.inj heq
  exact memReadRun_length_le (s := s) hread

theorem unitResult_dout {r : Option State} {u : State} {v : Value} {d : List Byte}
    (h : unitResult r = some (u, v, d)) : d = [] := by
  obtain ⟨_, _, heq⟩ := Option.map_eq_some_iff.mp h
  exact (Prod.mk.inj (Prod.mk.inj heq).2).2.symm

theorem valueResult_dout {r : Option (Value × State)} {u : State} {v : Value} {d : List Byte}
    (h : valueResult r = some (u, v, d)) : d = [] := by
  obtain ⟨_, _, heq⟩ := Option.map_eq_some_iff.mp h
  exact (Prod.mk.inj (Prod.mk.inj heq).2).2.symm

/-- A body that returns bytes it has read answers these bytes beside the state it was given. -/
theorem bytesResult_map_dout {r : Option (List Byte)} {s u : State} {v : Value} {d : List Byte}
    (h : bytesResult (r.map fun d => (d, s)) = some (u, v, d)) : r = some d := by
  obtain ⟨_, hr, heq⟩ := Option.map_eq_some_iff.mp (bytesResult_state h)
  obtain ⟨rfl, _⟩ := Prod.mk.inj heq
  exact hr

/-- A completed command returns at most `LEN` bytes (30_encoding R71, R72). -/
theorem commandBody_dout_length_le (i : Instr) (s u : State) (v : Value) (d : List Byte)
    (h : commandBody i s = some (u, v, d)) : d.length ≤ u.len := by
  have hnone : d = [] → d.length ≤ u.len := by
    rintro rfl
    exact Nat.zero_le _
  cases i with
  | buffer =>
    obtain rfl := bytesResult_map_state h
    exact committedView_length_le (bytesResult_map_dout h)
  | rawview =>
    obtain rfl := bytesResult_map_state h
    exact memReadRun_length_le (bytesResult_map_dout h)
  | collectAll =>
    obtain rfl := bytesResult_map_state h
    exact remainingBytes_length_le (bytesResult_map_dout h)
  | deconcat k | deappend k => exact takeBytes_length_le (bytesResult_state h)
  | createWriter | createReader k | alignW | alignR | appendBytes k | emit n x | emitByte x | emitWord x
  | emitDword x => exact hnone (unitResult_dout h)
  | getByteIndex | getBitOffset | hasMore | collect n | collectByte | collectWord | collectDword =>
    exact hnone (valueResult_dout h)

theorem okay_wellFormedIn {s : State} (v : Value) {d : List Byte} (h : d.length ≤ s.len) :
    (Response.okay v d).WellFormedIn s :=
  ⟨h, rfl, rfl, rfl⟩

/-- A fault reports no result and the registers (60_exceptions R141, R142). -/
theorem faultResponse_wellFormedIn {st : Status} (hst : st ≠ .ok) (s : State) : (faultResponse st s).WellFormedIn s := by
  rw [Response.WellFormedIn, if_neg (show (faultResponse st s).status ≠ .ok from hst)]
  refine ⟨rfl, rfl, indexField_toNat s.len, indexField_toNat s.byteIndex, ?_⟩
  exact (BitVec.toNat_ofNat _ _).trans (Nat.mod_eq_of_lt (by omega))

/-- A response that was put into a state is well formed there when it was so before. -/
theorem State.rspInv_setRsp {s : State} {r : Response} (h : r.WellFormedIn s) : (s.setRsp r).RspInv := by
  intro _ r' hr'
  obtain rfl := Option.some.inj hr'
  exact h

/-- Nothing is claimed of the response of a run that has met the undefined case (43_read_path R114 (b)). -/
theorem State.rspInv_poison (s : State) : s.poison.RspInv := nofun

theorem rejectWord_rspInv (s t : State) (h : rejectWord s = .next t) : t.RspInv := by
  obtain ⟨_, rfl⟩ | ⟨_, rfl⟩ := (rejectWord_eq_next s t).mp h
  · exact s.rspInv_poison
  · exact State.rspInv_setRsp (faultResponse_wellFormedIn (st := .illegalCommand) (by decide) s)

theorem exec_rspInv (i : Instr) (s t : State) (h : exec i s = .next t) : t.RspInv := by
  obtain ⟨rfl, _⟩ | ⟨_, u, v, d, hu, rfl⟩ | ⟨_, hst, rfl⟩ := exec_cases i s t h
  · exact s.rspInv_poison
  · exact State.rspInv_setRsp (okay_wellFormedIn v (commandBody_dout_length_le i s u v d hu))
  · exact State.rspInv_setRsp (faultResponse_wellFormedIn hst s)

/-! ### The obligations of 30_encoding on steps -/

/-- Settles O4: no row has a reserved opcode, and the step rejects a word that no row selects. -/
theorem reservedOpcodesAreIllegal : Obligations.ReservedOpcodesAreIllegal := by
  unfold Obligations.ReservedOpcodesAreIllegal
  intro w hop
  have hreserved : ∀ m : Mnemonic, m.opcode ≠ opField w := by
    intro m hm
    obtain ⟨hzero, hhigh⟩ := m.opcode_range
    rw [hm] at hzero hhigh
    obtain h0 | h16 := hop
    · exact hzero h0
    · omega
  have hdec := decode_of_reserved_opcode hreserved
  exact ⟨hdec, fun s payload rest hp hhost => step_faultsWith_of_illegal_word hp hhost hdec⟩

/-- Settles O5: a word with a nonzero must-be-zero field is rejected under its row; a word is the encoding of its command;
`EMIT`'s form asks for no zero; and its loop reads the low `num_bits` bits. -/
theorem nonzeroReservedFieldsAreIllegal : Obligations.NonzeroReservedFieldsAreIllegal := by
  unfold Obligations.NonzeroReservedFieldsAreIllegal
  refine ⟨fun m w hop hfields => ?_, fun w w' i h h' => ?_, fun _ => decode_of_opField_emit,
    fun n _ _ s h => exec_emit_congr n s h⟩
  · have hdec := decode_of_nonzero_field hop hfields
    exact ⟨hdec, fun s payload rest hp hhost => step_faultsWith_of_illegal_word hp hhost hdec⟩
  · exact (encode_of_decode h).symm.trans (encode_of_decode h')

/-- Settles O9: the fetch checks the pair's form after the word. -/
theorem illFormedPairsAreRefused : Obligations.IllFormedPairsAreRefused := by
  unfold Obligations.IllFormedPairsAreRefused
  intro s w payload rest i hhost hdec hpay
  refine step_of_ill_formed_pair hhost hdec (Bool.eq_false_of_not_eq_true fun hwf => ?_)
  have hform := (i.payloadWellFormed_iff payload).mp hwf
  split_ifs at hpay hform with hp <;> exact hpay hform

/-- Settles O13: holding the state keeps its response, reset leaves none, and a rejected word and a command each leave a
well-formed one. -/
theorem everyStepLeavesAWellFormedResponse : Obligations.EveryStepLeavesAWellFormedResponse := by
  unfold Obligations.EveryStepLeavesAWellFormedResponse
  intro s t h hstep
  obtain ⟨_, rfl⟩ | ⟨_, rest, _, rfl⟩ | ⟨_, _, _, _, _, hrej⟩ | ⟨_, _, i, _, _, _, hrun⟩ := step_cases s t hstep
  · exact h
  · exact rspInv_of_no_response (s.assertReset rest) rfl
  · exact rejectWord_rspInv _ t hrej
  · exact exec_rspInv i _ t hrun

/-- Settles O14: every step from the invariant goes on or is the refusal of an ill-formed pair. -/
theorem noStepFaultsFromTheInvariant : Obligations.NoStepFaultsFromTheInvariant := by
  unfold Obligations.NoStepFaultsFromTheInvariant
  intro s h
  obtain ⟨t, ht⟩ | ⟨href, hpair⟩ := step_goes_on_or_refuses s h
  · rw [ht]
    exact ⟨nofun, nofun⟩
  · rw [href]
    refine ⟨nofun, fun r hr => ?_⟩
    cases hr
    exact ⟨rfl, hpair⟩

/-- Settles O15: the port takes the event before the command runs, and a rejected word and a command each answer it. -/
theorem everyCommandGetsOneResponse : Obligations.EveryCommandGetsOneResponse := by
  unfold Obligations.EveryCommandGetsOneResponse
  intro s t hstep
  obtain ⟨hhost, rfl⟩ | ⟨_, rest, hhost, rfl⟩ | ⟨c, rest, _, hhost, _, hrej⟩ | ⟨c, rest, i, hhost, _, _, hrun⟩ :=
    step_cases s t hstep <;> rw [hhost]
  · exact ⟨rfl, rfl, nofun, nofun⟩
  · exact ⟨rfl, rfl, nofun, fun _ _ _ => rfl⟩
  · obtain ⟨htaken, hcap, hrsp⟩ := rejectWord_answers _ t hrej
    exact ⟨htaken, hcap, fun _ _ _ => hrsp, nofun⟩
  · obtain ⟨htaken, hcap, hrsp⟩ := exec_answers i _ t hrun
    exact ⟨htaken, hcap, fun _ _ _ => hrsp, nofun⟩

end Sys2Proof.Machine
end

section
/-! PROOFS. Construction, views and position accessors (40_construct_and_view): the state each construction leaves, what
each view and accessor answers, and that only a construction moves the stream position back. -/

namespace Sys2Proof.Machine

/-! ### Answers that change nothing -/

theorem State.sameButRsp_setRsp (s : State) (r : Response) : s.SameButRsp (s.setRsp r) :=
  ⟨rfl, rfl, rfl, rfl, rfl, rfl⟩

theorem faultsWith_raise (st : Status) (s : State) : FaultsWith (raise st s) st s :=
  ⟨_, rfl, rfl, s.sameButRsp_setRsp _⟩

theorem classAdmits_both_iff (m : Mode) : classAdmits .both m = true ↔ m ≠ .idle := by
  cases m <;> decide

/-- A read-out asks for a defined run and its class, and for nothing else (60_exceptions R140). -/
theorem exec_readOut_eq_checks (i : Instr) (s : State) (hi : IsReadOut i) :
    exec i s = whenDefined s (whenClass i.mnemonic.capClass s (finish (commandBody i s))) := by
  obtain rfl | hi := hi
  · rfl
  · cases i with
    | rawview | getByteIndex | getBitOffset | hasMore => rfl
    | _ => exact nomatch hi

/-- In a defined run and a `MODE` of its class a read-out answers what its body reads, and only the response is
written. -/
theorem exec_readOut_completes {i : Instr} {s : State} {v : Value} {d : List Byte} (hi : IsReadOut i)
    (hp : s.poisoned = false) (hadmits : classAdmits i.mnemonic.capClass s.mode = true)
    (hbody : commandBody i s = some (s, v, d)) : exec i s = .next (s.setRsp (Response.okay v d)) := by
  rw [exec_readOut_eq_checks i s hi, whenDefined_of_defined s _ hp, whenClass, if_pos hadmits, hbody]
  rfl

/-! ### The views -/

@[simp] theorem State.bytesFrom_length (s : State) (a n : Nat) : (s.bytesFrom a n).length = n := by
  simp [State.bytesFrom]

/-- The committed content: all valid bytes, at a byte boundary without the staging byte (40_construct_and_view R88). -/
def State.committedBytes (s : State) : List Byte :=
  if s.bitOffset = 0 then s.bytesFrom 0 (s.len - 1) else s.bytesFrom 0 s.len

theorem committedView_eq (s : State) (hlen : s.len ≠ 0) (hc : capacityAdmits s.cap s.len = true) :
    committedView s = some s.committedBytes := by
  unfold committedView State.committedBytes
  by_cases h0 : s.bitOffset = 0
  · rw [if_pos (s.aligned0_iff.mpr h0), if_pos h0, (lastIndex_eq_some s (s.len - 1)).mpr (by omega), Option.bind_some]
    exact memReadRun_eq s hc 0 _ (by omega)
  · rw [if_neg (mt s.aligned0_iff.mp h0), if_neg h0]
    exact memReadRun_eq s hc 0 _ (by omega)

theorem exec_buffer (s : State) (hp : s.poisoned = false) (hm : s.mode = .writer) (hlen : s.len ≠ 0)
    (hc : capacityAdmits s.cap s.len = true) :
    exec .buffer s = .next (s.setRsp (Response.okay (indexField s.committedBytes.length) s.committedBytes)) :=
  exec_readOut_completes (.inl rfl) hp ((classAdmits_writer_iff _).mpr hm)
    (by rw [commandBody, committedView_eq s hlen hc]; rfl)

theorem exec_rawview (s : State) (hp : s.poisoned = false) (hm : s.mode ≠ .idle)
    (hc : capacityAdmits s.cap s.len = true) :
    exec .rawview s = .next (s.setRsp (Response.okay (indexField s.len) (s.bytesFrom 0 s.len))) := by
  refine exec_readOut_completes (.inr rfl) hp ((classAdmits_both_iff _).mpr hm) ?_
  have hread : memReadRun s 0 s.len = some (s.bytesFrom 0 s.len) := memReadRun_eq s hc 0 s.len (by omega)
  simp only [commandBody, hread, bytesResult, Option.map_some, State.bytesFrom_length]

/-! ### The position accessors -/

theorem exec_getByteIndex (s : State) (hp : s.poisoned = false) (hm : s.mode ≠ .idle) :
    exec .getByteIndex s = .next (s.setRsp (Response.okay (indexField s.byteIndex) [])) :=
  exec_readOut_completes (.inr rfl) hp ((classAdmits_both_iff _).mpr hm) rfl

theorem exec_getBitOffset (s : State) (hp : s.poisoned = false) (hm : s.mode ≠ .idle) :
    exec .getBitOffset s = .next (s.setRsp (Response.okay (BitVec.ofNat 32 s.bitOffset.val) [])) :=
  exec_readOut_completes (.inr rfl) hp ((classAdmits_both_iff _).mpr hm) rfl

/-- A defined run never rests at the sentinel offset 8 (10_state R36, R32 (b), R33 (b)). -/
theorem State.Inv.bitOffset_le {s : State} (h : s.Inv) (hp : s.poisoned = false) : s.bitOffset.val ≤ 7 := by
  obtain ⟨_, _, _, _, _, hmode⟩ := h
  obtain ⟨hidle, hwriter, hreader⟩ := hmode hp
  cases hm : s.mode with
  | idle =>
    obtain ⟨_, _, hoff⟩ := hidle hm
    omega
  | writer =>
    obtain ⟨_, hoff, _⟩ := hwriter hm
    exact hoff
  | reader =>
    obtain ⟨_, hoff, _⟩ := hreader hm
    exact hoff

/-! ### The constructions -/

/-- The writer that `CREATE_WRITER` leaves: one zero staging byte and the cursor before it (40_construct_and_view R86). -/
def State.freshWriter (s : State) : State :=
  (((s.setMode .writer).setLen 1).setStore (Store.write s.store 0 0x00#8)).rewind.setDefined

/-- The reader that `CREATE_READER` leaves: the payload as its store and the cursor at its start (40_construct_and_view
R87). -/
def State.freshReader (s : State) (k : BitVec 32) : State :=
  (((s.setMode .reader).setLen k.toNat).setStore (Store.writeRun s.store 0 s.din)).rewind.setDefined

/-- A well-formed capacity holds one byte (00_scope R11). -/
theorem capacityAdmits_one_iff (c : Capacity) : capacityAdmits c 1 = true ↔ c.wellFormed = true := by
  cases c <;> exact Iff.rfl

theorem exec_createWriter (s : State) (hc : s.cap.wellFormed = true) :
    exec .createWriter s = .next (s.freshWriter.setRsp (Response.okay 0#32 [])) := by
  obtain ⟨u, hu⟩ := createWriterBody_isSome s hc
  obtain rfl := createWriterBody_eq_some s u hu
  exact (finishUnit_eq_next _ _).mpr ⟨_, hu, rfl⟩

theorem read_freshWriter (s : State) (hw : Store.wf s.store = true) (a : Nat) :
    Store.read s.freshWriter.store a = if a = 0 then 0x00#8 else Store.read s.store a :=
  (Store.read_write s.store hw 0 0x00#8 a).trans (if_congr eq_comm rfl rfl)

/-- The raw view of a new writer is its zero staging byte. -/
theorem bytesFrom_freshWriter (s : State) (hw : Store.wf s.store = true) : s.freshWriter.bytesFrom 0 1 = [0x00#8] :=
  congrArg (fun b => [b]) (read_freshWriter s hw 0)

/-- A well-formed pair of `CREATE_READER` meets the capacity check and no other (40_construct_and_view R87, log
entry 15). -/
theorem exec_createReader_eq (k : BitVec 32) (s : State) (hdin : s.din.length = k.toNat) :
    exec (.createReader k) s = if capacityAdmits s.cap k.toNat = true then finishUnit (createReaderBody k s.din s)
      else whenDefined s (raise .capacityExceeded s) :=
  withPayload_of_length k s _ hdin

theorem exec_createReader (k : BitVec 32) (s : State) (hdin : s.din.length = k.toNat)
    (hroom : capacityAdmits s.cap k.toNat = true) :
    exec (.createReader k) s = .next ((s.freshReader k).setRsp (Response.okay 0#32 [])) := by
  obtain ⟨u, hu, _⟩ := createReaderBody_len k s s.din hdin hroom
  obtain rfl := createReaderBody_eq_some k s.din s u hu
  rw [exec_createReader_eq k s hdin, if_pos hroom]
  exact (finishUnit_eq_next _ _).mpr ⟨_, hu, rfl⟩

theorem exec_createReader_faults (k : BitVec 32) (s : State) (hdin : s.din.length = k.toNat)
    (hroom : capacityAdmits s.cap k.toNat = false) (hp : s.poisoned = false) :
    FaultsWith (exec (.createReader k) s) .capacityExceeded s := by
  rw [exec_createReader_eq k s hdin, if_neg (by rw [hroom]; decide), whenDefined_of_defined s _ hp]
  exact faultsWith_raise .capacityExceeded s

theorem read_freshReader (k : BitVec 32) (s : State) (hdin : s.din.length = k.toNat) (hw : Store.wf s.store = true)
    (a : Nat) : Store.read (s.freshReader k).store a =
      if a < k.toNat then s.din.getD a 0x00#8 else Store.read s.store a := by
  refine (Store.read_writeRun s.store hw 0 s.din a).trans ?_
  rw [if_pos a.zero_le, Nat.sub_zero]
  by_cases ha : a < k.toNat
  · rw [if_pos ha, List.getD_eq_getElem?_getD, List.getElem?_eq_getElem (by omega), Option.getD_some, Option.getD_some]
  · rw [if_neg ha, List.getElem?_eq_none (by omega), Option.getD_none]

/-! ### The stream position -/

theorem State.pos_le_of_byteIndex_lt {s t : State} (h : s.byteIndex < t.byteIndex) : s.pos ≤ t.pos := by
  unfold State.pos
  omega

theorem State.pos_le_of_cursor_le {s t : State} (hidx : s.byteIndex ≤ t.byteIndex) (hoff : s.bitOffset ≤ t.bitOffset) :
    s.pos ≤ t.pos :=
  Nat.add_le_add (Nat.mul_le_mul_left 8 hidx) hoff

theorem State.pos_le_advance (s : State) (n : Nat) : s.pos ≤ (advance s n).pos :=
  State.pos_le_of_cursor_le (Nat.le_add_right _ n) (Fin.le_refl _)

theorem pos_le_alignReadBody (s : State) : s.pos ≤ (alignReadBody s).pos := by
  unfold alignReadBody
  split
  · exact le_rfl
  · exact State.pos_le_of_byteIndex_lt (Nat.lt_succ_self s.byteIndex)

theorem emitBytesBody_pos_le (xs : List Byte) (s u : State) (h : s.WriteReady) (hroom : s.HasRoom xs.length)
    (hu : emitBytesBody s xs = some u) : s.pos ≤ u.pos := by
  obtain ⟨t, ht, _, _, _, hidx, hnil, _⟩ := emitBytesBody_spec xs s h hroom
  obtain rfl := Option.mem_unique ht hu
  cases xs with
  | nil => rw [hnil rfl]
  | cons x xs => exact State.pos_le_of_byteIndex_lt (by rw [hidx, List.length_cons]; omega)

/-- A writer that has passed the checks of a writer command does not move back: it stays, moves by the bits it emits, or
moves to a later byte. -/
theorem commandBody_pos_le_of_writer (i : Instr) (s u : State) (v : Value) (d : List Byte)
    (hi : i.mnemonic.capClass = .writer) (h : s.WriteReady) (hpay : PayloadFits i s)
    (halign : alignmentCond i s = false) (hroom : capacityAdmits s.cap (neededLen i s) = true)
    (hu : commandBody i s = some (u, v, d)) : s.pos ≤ u.pos := by
  cases i with
  | buffer =>
    obtain rfl := bytesResult_map_state hu
    exact le_rfl
  | alignW =>
    have hbody := unitResult_state hu
    split at hbody
    · obtain rfl := Option.some.inj hbody
      exact le_rfl
    · obtain ⟨_, rfl⟩ := (grow_eq_some _ u).mp hbody
      exact State.pos_le_of_byteIndex_lt (Nat.lt_succ_self s.byteIndex)
  | appendBytes k =>
    have hdin : s.din.length = k.toNat := hpay rfl
    have h0 : s.bitOffset = 0 := s.aligned0_iff.mp (by simpa [alignmentCond, State.aligned0] using halign)
    obtain ⟨t, ht, _, _, _, hidx, _⟩ := appendBody_spec s.din s h h0 (by rw [hdin]; exact hroom)
    obtain rfl := Option.mem_unique ht (unitResult_state hu)
    exact State.pos_le_of_cursor_le (hidx ▸ Nat.le_add_right _ _) (h0 ▸ Fin.zero_le _)
  | emit n x =>
    obtain ⟨t, ht, _, _, hpos, _⟩ := emitBits_spec x n.toNat s h hroom
    obtain rfl := Option.mem_unique ht (unitResult_state hu)
    omega
  | emitByte x =>
    obtain ⟨t, ht, _, _, _, hidx, _⟩ := emitByteBody_spec s x h hroom
    obtain rfl := Option.mem_unique ht (unitResult_state hu)
    exact State.pos_le_of_byteIndex_lt (by omega)
  | emitWord x => exact emitBytesBody_pos_le (wordBytes x) s u h hroom (unitResult_state hu)
  | emitDword x => exact emitBytesBody_pos_le (dwordBytes x) s u h hroom (unitResult_state hu)
  | _ => exact nomatch hi

/-- A reader that has passed the checks of a reader command does not move back: it aligns forward, or moves past what it
takes. -/
theorem commandBody_pos_le_of_reader (i : Instr) (s u : State) (v : Value) (d : List Byte)
    (hi : i.mnemonic.capClass = .reader) (h : s.ReadReady) (hbits : invalidParameterCond i = false)
    (hover : overrunCond i s = false) (hu : commandBody i s = some (u, v, d)) : s.pos ≤ u.pos := by
  cases i with
  | alignR =>
    obtain rfl := Option.some.inj (unitResult_state hu)
    exact pos_le_alignReadBody s
  | collectAll =>
    obtain rfl := bytesResult_map_state hu
    exact pos_le_alignReadBody s
  | deconcat k | deappend k =>
    obtain rfl := takeBytes_state s u _ d (bytesResult_state hu)
    exact s.pos_le_advance _
  | collect n =>
    obtain ⟨_, hn⟩ := (numBitsValid_iff n.toNat).mp (by simpa [invalidParameterCond] using hbits)
    obtain ⟨x, t, ht, _, _, hpos, _⟩ := collectBits_spec n.toNat hn 0#32 s h (by simpa [overrunCond] using hover)
    obtain ⟨_, rfl⟩ := Prod.mk.inj (Option.mem_unique ht (valueResult_state hu))
    omega
  | collectByte | collectWord | collectDword =>
    obtain rfl := takeValue_state s u _ _ v (valueResult_state hu)
    exact s.pos_le_advance _
  | _ => exact nomatch hi

/-- In a defined run the body of a command without a fault, but for a construction, does not move back. -/
theorem commandBody_pos_le (i : Instr) (s u : State) (v : Value) (d : List Byte) (h : s.Inv) (hp : s.poisoned = false)
    (hi : i.mnemonic.capClass ≠ .any) (hpay : PayloadFits i s) (hok : firstStatus i s = .ok)
    (hu : commandBody i s = some (u, v, d)) : s.pos ≤ u.pos := by
  have hadmits := classAdmits_of_firstStatus_ok i s hok
  have hroom := hasNeededRoom_of_firstStatus_ok i s hok
  obtain ⟨hbits, _, halign, hover, _⟩ := (firstStatus_eq_ok_iff i s).mp hok
  cases hclass : i.mnemonic.capClass with
  | any => exact absurd hclass hi
  | writer =>
    have hm : s.mode = .writer := (classAdmits_writer_iff _).mp (hclass ▸ hadmits)
    exact commandBody_pos_le_of_writer i s u v d hclass (h.writeReady hp hm) hpay halign hroom hu
  | reader =>
    have hm : s.mode = .reader := (classAdmits_reader_iff _).mp (hclass ▸ hadmits)
    exact commandBody_pos_le_of_reader i s u v d hclass (h.readReady hp hm) hbits hover hu
  | both =>
    obtain rfl := commandBody_both_state i s u v d hclass hu
    exact le_rfl

/-- No command but a construction makes a marked run defined again (93 U1). -/
theorem defined_of_exec_defined (i : Instr) (s t : State) (hi : i.mnemonic.capClass ≠ .any)
    (h : exec i s = .next t) (ht : t.poisoned = false) : s.poisoned = false := by
  refine Bool.eq_false_of_not_eq_true fun hp => ?_
  rw [exec_of_poisoned i s hp (payloadFits_of_exec i s t h), if_neg fun ⟨hany, _⟩ => hi hany] at h
  cases h
  exact nomatch ht

/-! ### The obligations of 40_construct_and_view -/

/-- Settles O28: the fresh writer's fields are the rule's, and its two views are those of one zero staging byte. -/
theorem createWriterStartsAFreshWriter : Obligations.CreateWriterStartsAFreshWriter := by
  unfold Obligations.CreateWriterStartsAFreshWriter
  intro s hc hw
  have hone : capacityAdmits s.cap 1 = true := (capacityAdmits_one_iff s.cap).mpr hc
  refine ⟨_, exec_createWriter s hc, rfl, rfl, rfl, rfl, read_freshWriter s hw, rfl, rfl, rfl, rfl, rfl, rfl,
    ⟨_, exec_buffer _ rfl rfl Nat.one_ne_zero hone, rfl⟩, ⟨_, exec_rawview _ rfl nofun hone, ?_⟩⟩
  exact congrArg (fun d => some (Response.okay 1#32 d)) (bytesFrom_freshWriter s hw)

/-- Settles O29: with room the fresh reader's fields are the rule's; without, the capacity check raises the fault. -/
theorem createReaderLoadsThePayload : Obligations.CreateReaderLoadsThePayload := by
  unfold Obligations.CreateReaderLoadsThePayload
  intro k s hdin hw
  refine ⟨fun hroom => ?_, exec_createReader_faults k s hdin⟩
  exact ⟨_, exec_createReader k s hdin hroom, rfl, rfl, rfl, rfl, read_freshReader k s hdin hw, rfl, rfl, rfl, rfl, rfl,
    rfl⟩

/-- Settles O30: a writer has a staging byte, so its committed content is readable. -/
theorem bufferReturnsTheCommittedView : Obligations.BufferReturnsTheCommittedView := by
  unfold Obligations.BufferReturnsTheCommittedView
  intro s h hp hm
  obtain ⟨⟨hlen, _, _⟩, hc, _, _⟩ := h.writeReady hp hm
  exact ⟨_, _, _, exec_buffer s hp hm (by omega) hc, s.sameButRsp_setRsp _, rfl, rfl, indexField_toNat _⟩

/-- Settles O31: the valid bytes fit the capacity, so all of them are readable. -/
theorem rawviewReturnsAllValidBytes : Obligations.RawviewReturnsAllValidBytes := by
  unfold Obligations.RawviewReturnsAllValidBytes
  intro s h hp hm
  obtain ⟨_, hc, _⟩ := h
  exact ⟨_, _, exec_rawview s hp hm hc, s.sameButRsp_setRsp _, rfl, indexField_toNat s.len⟩

/-- Settles O32: both accessors report the cursor, whose offset a defined run keeps at most 7. -/
theorem accessorsReturnTheCursor : Obligations.AccessorsReturnTheCursor := by
  unfold Obligations.AccessorsReturnTheCursor
  intro s h hp hm
  have hoff := h.bitOffset_le hp
  have hval : (BitVec.ofNat 32 s.bitOffset.val).toNat = s.bitOffset.val :=
    (BitVec.toNat_ofNat _ _).trans (Nat.mod_eq_of_lt (by omega))
  exact ⟨⟨_, _, exec_getByteIndex s hp hm, s.sameButRsp_setRsp _, rfl, indexField_toNat s.byteIndex⟩,
    ⟨_, _, exec_getBitOffset s hp hm, s.sameButRsp_setRsp _, rfl, hval, hval.trans_le hoff⟩⟩

/-- Settles O57: a fault leaves the cursor, a body does not move it back, and a marked run is left out. -/
theorem streamPositionNeverMovesBack : Obligations.StreamPositionNeverMovesBack := by
  unfold Obligations.StreamPositionNeverMovesBack
  intro i s t h ht hi hrun
  have hp := defined_of_exec_defined i s t hi hrun ht
  obtain ⟨rfl, _⟩ | ⟨hok, u, v, d, hu, rfl⟩ | ⟨_, _, rfl⟩ := exec_cases i s t hrun
  · exact nomatch ht
  · exact commandBody_pos_le i s u v d h hp hi (payloadFits_of_exec i s _ hrun) hok hu
  · exact le_rfl

end Sys2Proof.Machine
end

section
/-! PROOFS. Alignment, drain and has-more (41_align_and_drain): the state each command leaves and what it answers, from
its checks and its body. -/

namespace Sys2Proof.Machine

/-! ### A command from its first status -/

/-- A command without a fault that is not the undefined raw extract answers what its body reads, in the state its body
leaves. -/
theorem exec_of_commandBody {i : Instr} {s u : State} {v : Value} {d : List Byte} (hp : s.poisoned = false)
    (hpay : PayloadFits i s) (hok : firstStatus i s = .ok) (hundef : undefinedCond i s = false)
    (hbody : commandBody i s = some (u, v, d)) : exec i s = .next (u.setRsp (Response.okay v d)) := by
  rw [exec_eq_checkedRun i s hp hpay, checkedRun, if_pos hok, runBody, if_neg (by rw [hundef]; decide), hbody]
  rfl

/-- In a defined run a first status other than `OK` is the fault the command takes (60_exceptions R140, R141). -/
theorem exec_faultsWith {i : Instr} {s : State} {st : Status} (hp : s.poisoned = false) (hpay : PayloadFits i s)
    (hst : firstStatus i s = st) (hne : st ≠ .ok) : FaultsWith (exec i s) st s := by
  rw [exec_eq_checkedRun i s hp hpay, checkedRun, hst, if_neg hne]
  exact faultsWith_raise st s

/-! ### `ALIGN_W` -/

/-- The only check of `ALIGN_W` beside its class is its room. -/
theorem firstStatus_alignW (s : State) (hm : s.mode = .writer) : firstStatus .alignW s =
    if capacityAdmits s.cap (neededLen .alignW s) = true then .ok else .capacityExceeded := by
  have hmode : wrongModeCond .alignW s = false := congrArg Bool.not ((classAdmits_writer_iff _).mpr hm)
  by_cases hroom : capacityAdmits s.cap (neededLen .alignW s) = true
  · rw [if_pos hroom]
    exact (firstStatus_eq_ok_iff _ s).mpr ⟨rfl, hmode, rfl, rfl, congrArg Bool.not hroom⟩
  · simp [firstStatus, invalidParameterCond, hmode, alignmentCond, overrunCond, capacityCond, hroom]

theorem neededLen_alignW (s : State) : neededLen .alignW s = if s.bitOffset = 0 then 0 else s.len + 1 :=
  if_congr Fin.val_eq_zero_iff rfl rfl

theorem exec_alignW_of_aligned (s : State) (hp : s.poisoned = false) (hm : s.mode = .writer) (h0 : s.bitOffset = 0) :
    exec .alignW s = .next (s.setRsp (Response.okay 0#32 [])) := by
  refine exec_of_commandBody hp nofun ?_ rfl ?_
  · rw [firstStatus_alignW s hm, neededLen_alignW, if_pos h0, if_pos (capacityAdmits_zero _)]
  · rw [commandBody, if_pos (s.aligned0_iff.mpr h0)]
    rfl

theorem exec_alignW_of_room {s u : State} (hp : s.poisoned = false) (hm : s.mode = .writer) (h0 : s.bitOffset ≠ 0)
    (hroom : s.HasRoom 1) (hu : alignWriteBody s = some u) :
    exec .alignW s = .next (u.setRsp (Response.okay 0#32 [])) := by
  refine exec_of_commandBody hp nofun ?_ rfl ?_
  · rw [firstStatus_alignW s hm, neededLen_alignW, if_neg h0, if_pos hroom]
  · rw [commandBody, if_neg (mt s.aligned0_iff.mp h0), hu]
    rfl

theorem exec_alignW_of_full (s : State) (hp : s.poisoned = false) (hm : s.mode = .writer) (h0 : s.bitOffset ≠ 0)
    (hfull : capacityAdmits s.cap (s.len + 1) = false) : FaultsWith (exec .alignW s) .capacityExceeded s := by
  refine exec_faultsWith hp nofun ?_ nofun
  rw [firstStatus_alignW s hm, neededLen_alignW, if_neg h0, hfull]
  rfl

/-- From inside a byte the next byte boundary is the stream position rounded up to whole bytes (10_state R35). -/
theorem State.nextByte_pos (s : State) (h0 : s.bitOffset ≠ 0) (h8 : s.bitOffset.val ≤ 7) :
    8 * (s.byteIndex + 1) = 8 * ((s.pos + 7) / 8) := by
  have hne : s.bitOffset.val ≠ 0 := mt Fin.val_eq_zero_iff.mp h0
  unfold State.pos
  omega

/-! ### `ALIGN_R` and `COLLECT_ALL` -/

theorem alignReadBody_of_aligned (s : State) (h0 : s.bitOffset = 0) : alignReadBody s = s :=
  if_pos (s.aligned0_iff.mpr h0)

theorem alignReadBody_bitOffset (s : State) : (alignReadBody s).bitOffset = 0 := by
  by_cases h0 : s.bitOffset = 0
  · rw [alignReadBody_of_aligned s h0, h0]
  · rw [alignReadBody, if_neg (mt s.aligned0_iff.mp h0)]
    rfl

theorem alignReadBody_byteIndex (s : State) :
    (alignReadBody s).byteIndex = if s.bitOffset = 0 then s.byteIndex else s.byteIndex + 1 := by
  by_cases h0 : s.bitOffset = 0
  · rw [alignReadBody_of_aligned s h0, if_pos h0]
  · rw [alignReadBody, if_neg (mt s.aligned0_iff.mp h0), if_neg h0]
    rfl

/-- `ALIGN_R` and `COLLECT_ALL` check nothing but their class (41_align_and_drain R96, R97). -/
theorem firstStatus_of_alignsRead (i : Instr) (s : State) (hi : i = .alignR ∨ i = .collectAll) (hm : s.mode = .reader) :
    firstStatus i s = .ok := by
  have hadmits := (classAdmits_reader_iff _).mpr hm
  have hzero := capacityAdmits_zero s.cap
  obtain rfl | rfl := hi <;>
    exact (firstStatus_eq_ok_iff _ s).mpr
      ⟨rfl, congrArg Bool.not hadmits, rfl, rfl, congrArg Bool.not hzero⟩

theorem exec_alignR (s : State) (hp : s.poisoned = false) (hm : s.mode = .reader) :
    exec .alignR s = .next ((alignReadBody s).setRsp (Response.okay 0#32 [])) :=
  exec_of_commandBody hp nofun (firstStatus_of_alignsRead _ s (.inl rfl) hm) rfl rfl

/-- The bytes from the cursor's byte to the end of the store (41_align_and_drain R97). -/
def State.bytesToEnd (s : State) : List Byte := s.bytesFrom s.byteIndex (s.len - s.byteIndex)

theorem remainingBytes_eq (s : State) (h : s.ReadReady) : remainingBytes s = some s.bytesToEnd := by
  obtain ⟨⟨hidx, _, _⟩, hc⟩ := h
  rw [remainingBytes, (remaining_eq_some s (s.len - s.byteIndex)).mpr (by omega), Option.bind_some]
  exact memReadRun_eq s hc s.byteIndex _ (by omega)

/-- The answer that hands over the rest of the store. -/
def State.answerRest (s : State) : State := s.setRsp (Response.okay (indexField (s.len - s.byteIndex)) s.bytesToEnd)

/-- The rest does not include the response, so that handing it over twice is handing it over once. -/
theorem State.answerRest_answerRest (s : State) : s.answerRest.answerRest = s.answerRest := rfl

theorem exec_collectAll (s : State) (h : s.ReadReady) (hp : s.poisoned = false) (hm : s.mode = .reader) :
    exec .collectAll s = .next (alignReadBody s).answerRest := by
  obtain ⟨_, hready, _⟩ := alignReadBody_spec s h
  refine exec_of_commandBody hp nofun (firstStatus_of_alignsRead _ s (.inr rfl) hm) rfl ?_
  simp only [commandBody, remainingBytes_eq _ hready, bytesResult, Option.map_some, State.bytesToEnd,
    State.bytesFrom_length]

/-- At a byte boundary the drain moves nothing, so issued again it answers the same. -/
theorem exec_collectAll_again (s : State) (h : s.ReadReady) (hp : s.poisoned = false) (hm : s.mode = .reader)
    (h0 : s.bitOffset = 0) : exec .collectAll s.answerRest = .next s.answerRest := by
  rw [exec_collectAll s.answerRest h hp hm, alignReadBody_of_aligned s.answerRest h0, State.answerRest_answerRest]

/-! ### `HAS_MORE` -/

theorem exec_hasMore (s : State) (hp : s.poisoned = false) (hm : s.mode ≠ .idle) :
    exec .hasMore s =
      .next (s.setRsp (Response.okay (if s.byteIndex + 1 < s.len then 1#32 else 0#32) [])) := by
  refine exec_readOut_completes (.inr rfl) hp ((classAdmits_both_iff _).mpr hm) ?_
  simp only [commandBody, State.hasMoreBytes, decide_eq_true_eq]
  rfl

/-! ### The obligations of 41_align_and_drain -/

/-- Settles O34: the body grows the store at the old `LEN`, which is the byte after a writer's cursor. -/
theorem alignWAdvancesToAFreshByte : Obligations.AlignWAdvancesToAFreshByte := by
  unfold Obligations.AlignWAdvancesToAFreshByte
  intro s h hp hm
  have hready := h.writeReady hp hm
  have ⟨⟨hlen, hoff, _⟩, _⟩ := hready
  refine ⟨fun h0 => ⟨_, exec_alignW_of_aligned s hp hm h0, s.sameButRsp_setRsp _, rfl⟩, fun h0 hroom => ?_,
    exec_alignW_of_full s hp hm⟩
  obtain ⟨u, hu, ⟨hsame, _⟩, _, hlen', hidx', hoff', hread⟩ := alignWriteBody_spec s hready hroom
  rw [← hlen] at hread
  have hpos : u.pos = 8 * ((s.pos + 7) / 8) := by
    rw [← s.nextByte_pos h0 hoff, ← hidx', State.pos, hoff']
    rfl
  exact ⟨_, exec_alignW_of_room hp hm h0 hroom hu, hsame, rfl, hlen', hidx', hoff', hread, hpos⟩

/-- Settles O35: the body writes the cursor only, and a misaligned reader stands before the end. -/
theorem alignRAdvancesWithoutGrowing : Obligations.AlignRAdvancesWithoutGrowing := by
  unfold Obligations.AlignRAdvancesWithoutGrowing
  intro s h hp hm
  obtain ⟨⟨hsame, _, hlen, hstore⟩, ⟨⟨hidx, _, _⟩, _⟩, _, _⟩ := alignReadBody_spec s (h.readReady hp hm)
  exact ⟨_, exec_alignR s hp hm, hsame, rfl, hlen, hstore, alignReadBody_bitOffset s, alignReadBody_byteIndex s, hidx⟩

/-- Settles O36: the drain answers the rest from the aligned cursor and leaves the cursor there. -/
theorem collectAllReturnsTheRest : Obligations.CollectAllReturnsTheRest := by
  unfold Obligations.CollectAllReturnsTheRest
  intro s h hp hm
  have hready := h.readReady hp hm
  obtain ⟨⟨hsame, _, hlen, hstore⟩, hready', h0, _⟩ := alignReadBody_spec s hready
  have ⟨hmode, _, _, _, hdef, _⟩ := hsame
  have hrest : (alignReadBody s).bytesToEnd =
      s.bytesFrom (alignReadBody s).byteIndex (s.len - (alignReadBody s).byteIndex) := by
    rw [State.bytesToEnd, State.bytesFrom, hlen, hstore]
    rfl
  refine ⟨_, indexField (s.len - (alignReadBody s).byteIndex), exec_collectAll s hready hp hm, hsame, hlen, hstore, h0,
    alignReadBody_byteIndex s, ?_, indexField_toNat _,
    exec_collectAll_again _ hready' (hdef.trans hp) (hmode.trans hm) h0⟩
  rw [State.answerRest, hrest, hlen]
  rfl

/-- Settles O37: the test is the rule's, and a writer's cursor stands at its last byte. -/
theorem hasMoreAssumesATrailingSentinel : Obligations.HasMoreAssumesATrailingSentinel := by
  unfold Obligations.HasMoreAssumesATrailingSentinel
  intro s h hp hm
  refine ⟨_, exec_hasMore s hp hm, s.sameButRsp_setRsp _, rfl, fun hw => ?_⟩
  have ⟨⟨hlen, _, _⟩, _⟩ := h.writeReady hp hw
  rw [State.setRsp_rsp, if_neg (by omega)]

end Sys2Proof.Machine
end

section
/-! PROOFS. The write path (42_write_path): when each write command completes, that the bodies ignore the response
channel and compose, the closed forms of `EMIT` and of the byte commands, and how the commands relate. -/

namespace Sys2Proof.Machine

/-! ### The checks of a writer command -/

/-- What a writer command has behind it when only its capacity check is left (60_exceptions R140): a defined run, a
writer, legal operands, and an aligned cursor where it asks for one. -/
structure WriterChecks (i : Instr) (s : State) : Prop where
  capClass : i.mnemonic.capClass = .writer
  defined : s.poisoned = false
  writer : s.mode = .writer
  numBits : invalidParameterCond i = false
  aligned : alignmentCond i s = false
  payload : PayloadFits i s

theorem overrunCond_of_writer (i : Instr) (s : State) (hi : i.mnemonic.capClass = .writer) :
    overrunCond i s = false := by
  cases i with
  | collect _ | collectByte | collectWord | collectDword => exact nomatch hi
  | _ => rfl

theorem undefinedCond_of_writer (i : Instr) (s : State) (hi : i.mnemonic.capClass = .writer) :
    undefinedCond i s = false := by
  cases i with
  | deconcat _ | deappend _ => exact nomatch hi
  | _ => rfl

/-- After its other checks a writer command asks for its room and for nothing else (20_memory R52). -/
theorem WriterChecks.firstStatus_eq {i : Instr} {s : State} (h : WriterChecks i s) :
    firstStatus i s = if capacityAdmits s.cap (neededLen i s) = true then .ok else .capacityExceeded := by
  obtain ⟨hi, _, hm, hbits, halign, _⟩ := h
  have hmode : wrongModeCond i s = false := by
    rw [wrongModeCond, hi, (classAdmits_writer_iff _).mpr hm]
    rfl
  have hover := overrunCond_of_writer i s hi
  by_cases hroom : capacityAdmits s.cap (neededLen i s) = true
  · rw [if_pos hroom]
    exact (firstStatus_eq_ok_iff i s).mpr ⟨hbits, hmode, halign, hover, congrArg Bool.not hroom⟩
  · simp [firstStatus, hbits, hmode, halign, hover, capacityCond, hroom]

theorem WriterChecks.completes {i : Instr} {s u : State} (h : WriterChecks i s)
    (hroom : capacityAdmits s.cap (neededLen i s) = true) (hbody : commandBody i s = unitResult (some u)) :
    exec i s = .next (u.setRsp (Response.okay 0#32 [])) :=
  exec_of_commandBody h.defined h.payload (h.firstStatus_eq.trans (if_pos hroom))
    (undefinedCond_of_writer i s h.capClass) hbody

theorem WriterChecks.faults {i : Instr} {s : State} (h : WriterChecks i s)
    (hfull : capacityAdmits s.cap (neededLen i s) = false) : FaultsWith (exec i s) .capacityExceeded s :=
  exec_faultsWith h.defined h.payload (h.firstStatus_eq.trans (if_neg (by rw [hfull]; decide))) nofun

/-- A writer command that has answered `OK` had its room, and left what its body leaves. -/
theorem WriterChecks.of_completed {i : Instr} {s t : State} {v : Value} {d : List Byte} (h : WriterChecks i s)
    (hrun : exec i s = .next t) (hrsp : t.rsp = some (Response.okay v d)) :
    capacityAdmits s.cap (neededLen i s) = true ∧
      ∃ u v d, commandBody i s = some (u, v, d) ∧ t = u.setRsp (Response.okay v d) := by
  obtain ⟨_, hmarked⟩ | ⟨hok, hbody⟩ | ⟨_, hfault, rfl⟩ := exec_cases i s t hrun
  · simp [h.defined, undefinedCond_of_writer i s h.capClass] at hmarked
  · exact ⟨hasNeededRoom_of_firstStatus_ok i s hok, hbody⟩
  · exact absurd (congrArg Response.status (Option.some.inj hrsp)) hfault

/-- Two writer commands that ask for the same room, and do the same where they have it, are the same command. -/
theorem WriterChecks.exec_congr {i j : Instr} {s : State} (hi : WriterChecks i s) (hj : WriterChecks j s)
    (hneed : neededLen i s = neededLen j s)
    (hbody : capacityAdmits s.cap (neededLen j s) = true → commandBody i s = commandBody j s) :
    exec i s = exec j s := by
  rw [exec_eq_checkedRun i s hi.defined hi.payload, exec_eq_checkedRun j s hj.defined hj.payload, checkedRun, checkedRun,
    hi.firstStatus_eq, hj.firstStatus_eq, hneed]
  by_cases hroom : capacityAdmits s.cap (neededLen j s) = true
  · simp only [runBody, undefinedCond_of_writer _ s hi.capClass, undefinedCond_of_writer _ s hj.capClass, hbody hroom]
  · rw [if_neg hroom, if_neg nofun, if_neg nofun]

/-! ### The bodies do not see the response -/

theorem memWrite_setRsp (s : State) (r : Response) (a : Nat) (v : Byte) :
    memWrite (s.setRsp r) a v = (memWrite s a v).map fun t => t.setRsp r := by
  unfold memWrite
  rw [apply_ite (Option.map _)]
  rfl

theorem normaliseWrite_setRsp (s : State) (r : Response) :
    normaliseWrite (s.setRsp r) = (normaliseWrite s).map fun t => t.setRsp r := by
  have hgrow : grow (s.setRsp r) = (grow s).map fun t => t.setRsp r := memWrite_setRsp (s.setLen (s.len + 1)) r _ _
  rw [normaliseWrite, hgrow, normaliseWrite, Option.map_map, Option.map_map]
  rfl

theorem checkWrite_setRsp (s : State) (r : Response) :
    checkWrite (s.setRsp r) = (checkWrite s).map fun t => t.setRsp r := by
  unfold checkWrite
  rw [apply_ite (Option.map _), ← normaliseWrite_setRsp]
  rfl

theorem orBit_setRsp (b : Bool) (s : State) (r : Response) :
    orBit b (s.setRsp r) = (orBit b s).map fun t => t.setRsp r := by
  rw [orBit, orBit, Option.map_bind]
  exact congrArg (Option.bind (memRead s s.byteIndex)) (funext fun _ => memWrite_setRsp s r _ _)

theorem emitBit_setRsp (b : Bool) (s : State) (r : Response) :
    emitBit b (s.setRsp r) = (emitBit b s).map fun t => t.setRsp r := by
  have hpost : ∀ u : State, checkWrite (u.setRsp r).nextBit = (checkWrite u.nextBit).map fun t => t.setRsp r :=
    fun u => checkWrite_setRsp u.nextBit r
  simp only [emitBit, checkWrite_setRsp, orBit_setRsp, Option.bind_map, Option.map_bind, Function.comp_def, hpost]

theorem emitBits_setRsp (v : Value) (n : Nat) (s : State) (r : Response) :
    emitBits v n (s.setRsp r) = (emitBits v n s).map fun t => t.setRsp r := by
  induction n generalizing s with
  | zero => rfl
  | succ n ih => simp only [emitBits, emitBit_setRsp, Option.bind_map, Option.map_bind, Function.comp_def, ih]

theorem emitByteBody_setRsp (s : State) (r : Response) (x : Byte) :
    emitByteBody (s.setRsp r) x = (emitByteBody s x).map fun t => t.setRsp r := by
  have hpost : ∀ u : State, normaliseWrite (u.setRsp r) = (normaliseWrite u).map fun t => t.setRsp r :=
    fun u => normaliseWrite_setRsp u r
  simp only [emitByteBody, State.setRsp_byteIndex, memWrite_setRsp, Option.bind_map, Option.map_bind,
    Function.comp_def, hpost]

theorem emitBytesBody_setRsp (s : State) (r : Response) (xs : List Byte) :
    emitBytesBody (s.setRsp r) xs = (emitBytesBody s xs).map fun t => t.setRsp r := by
  induction xs generalizing s with
  | nil => rfl
  | cons x xs ih =>
    simp only [emitBytesBody, emitByteBody_setRsp, Option.bind_map, Option.map_bind, Function.comp_def, ih]

/-! ### The bodies compose -/

theorem emitBytesBody_append (s : State) (xs ys : List Byte) :
    emitBytesBody s (xs ++ ys) = (emitBytesBody s xs).bind fun t => emitBytesBody t ys := by
  induction xs generalizing s with
  | nil => rfl
  | cons x xs ih => simp only [List.cons_append, emitBytesBody, ih, Option.bind_assoc]

theorem emitBytesBody_singleton (s : State) (x : Byte) : emitBytesBody s [x] = emitByteBody s x :=
  Option.bind_fun_some _

/-- `EMIT` of `m + n` bits is `EMIT` of the upper `m` and then of the lower `n` of them. -/
theorem emitBits_add (v : Value) (m n : Nat) (s : State) :
    emitBits v (m + n) s = (emitBits (v >>> n) m s).bind (emitBits v n) := by
  induction m generalizing s with
  | zero => rw [Nat.zero_add]; rfl
  | succ m ih =>
    simp only [Nat.succ_add, emitBits, BitVec.getLsbD_ushiftRight, Nat.add_comm n m, Option.bind_assoc, ih]


/-! ### What determines the state a write leaves -/

/-- The registers of a ready writer from its stream position (10_state R32, R35). -/
theorem State.WriteReady.cursor_eq {s : State} (h : s.WriteReady) :
    s.byteIndex = s.pos / 8 ∧ s.bitOffset.val = s.pos % 8 ∧ s.len = s.byteIndex + 1 := by
  obtain ⟨⟨hlen, hoff, _⟩, _⟩ := h
  unfold State.pos
  exact ⟨by omega, by omega, hlen⟩

theorem State.WriteReady.pos_lt {s : State} (h : s.WriteReady) : s.pos < 8 * s.len := by
  obtain ⟨hidx, hoff, hlen⟩ := h.cursor_eq
  omega

/-- A write frame says all but the architectural state. -/
theorem State.WriteFrame.eq_of_engine {s t u : State} (ht : s.WriteFrame t) (hu : s.WriteFrame u)
    (heng : u.engine = t.engine) : t = u := by
  obtain ⟨⟨_, hcap, hhost, hdin, hdef, hfree⟩, hrsp⟩ := ht
  obtain ⟨⟨_, hcap', hhost', hdin', hdef', hfree'⟩, hrsp'⟩ := hu
  obtain ⟨hmode, hlen, hidx, hoff, hstore⟩ := (State.engine_eq_iff t u).mp heng
  cases t
  cases u
  simp_all

/-- A ready writer's architectural state is its `MODE`, its stream position and what its store reads. -/
theorem State.WriteReady.engine_eq {t u : State} (ht : t.WriteReady) (hu : u.WriteReady) (hmode : u.mode = t.mode)
    (hpos : u.pos = t.pos) (hread : ∀ a, Store.read u.store a = Store.read t.store a) : u.engine = t.engine := by
  obtain ⟨hidx, hoff, hlen⟩ := ht.cursor_eq
  obtain ⟨hidx', hoff', hlen'⟩ := hu.cursor_eq
  obtain ⟨_, _, hwf, _⟩ := ht
  obtain ⟨_, _, hwf', _⟩ := hu
  exact (State.engine_eq_iff t u).mpr ⟨hmode, by omega, by omega, Fin.ext (by omega),
    Store.ext_of_read _ _ hwf' hwf hread⟩

/-! ### A byte at a byte boundary -/

/-- What `EMIT` of 8 bits at a byte boundary leaves in the store: stream bit `7 - j` of the cursor's byte is bit `j` of the
value's low byte, and the grown byte is zero. -/
theorem emitBits_eight_spec (v : Value) (s : State) (h : s.WriteReady) (h0 : s.bitOffset = 0) (hroom : s.HasRoom 1) :
    ∃ t, emitBits v 8 s = some t ∧ s.WriteFrame t ∧ t.WriteReady ∧ t.pos = s.pos + 8 ∧
      ∀ a, Store.read t.store a = if a = s.byteIndex then v.extractLsb' 0 8
        else if a = s.byteIndex + 1 then 0x00#8 else Store.read s.store a := by
  obtain ⟨t, ht, hframe, hready, hpos, hbits⟩ := emitBits_spec v 8 s h (by rw [h0]; exact hroom)
  refine ⟨t, ht, hframe, hready, hpos, fun a => byte_ext _ _ fun j hj => ?_⟩
  have hstart : s.pos = 8 * s.byteIndex := by rw [State.pos, h0]; rfl
  have hend := h.cursor_eq
  have hend' := hready.cursor_eq
  rw [t.getLsbD_read a j hj, hbits]
  by_cases ha : a = s.byteIndex
  · rw [if_pos (by omega), if_pos ha, BitVec.getLsbD_extractLsb', decide_eq_true hj, Bool.true_and]
    congr 1
    omega
  · rw [if_neg (by omega), if_neg ha]
    by_cases ha' : a = s.byteIndex + 1
    · rw [if_pos (by omega), if_pos ha', BitVec.getLsbD_zero]
    · rw [if_neg (by omega), if_neg ha', s.getLsbD_read a j hj]

/-- At a byte boundary `EMIT` of 8 bits does what `EmitByteBody` does with the value's low byte (42_write_path R109
(a)). -/
theorem emitBits_eight (v : Value) (s : State) (h : s.WriteReady) (h0 : s.bitOffset = 0) (hroom : s.HasRoom 1) :
    emitBits v 8 s = emitByteBody s (v.extractLsb' 0 8) := by
  obtain ⟨t, ht, hframe, hready, hpos, hread⟩ := emitBits_eight_spec v s h h0 hroom
  obtain ⟨u, hu, hframe', hready', _, hidx', hoff', hread'⟩ := emitByteBody_spec s (v.extractLsb' 0 8) h hroom
  have hpos' : u.pos = t.pos := by
    rw [hpos, State.pos, State.pos, hidx', hoff', h0, Nat.mul_succ]
    omega
  have hmode : u.mode = t.mode := hframe'.mode_eq.trans hframe.mode_eq.symm
  have heng : u.engine = t.engine := hready.engine_eq hready' hmode hpos' fun a => (hread' a).trans (hread a).symm
  rw [ht, hu, hframe.eq_of_engine hframe' heng]

/-- The low `n` bytes of a value, most significant first (20_memory R44). -/
def lowBytes (v : Value) : Nat → List Byte
  | 0 => []
  | n + 1 => v.extractLsb' (8 * n) 8 :: lowBytes v n

@[simp] theorem lowBytes_length (v : Value) (n : Nat) : (lowBytes v n).length = n := by
  induction n with
  | zero => rfl
  | succ n ih => rw [lowBytes, List.length_cons, ih]

/-- At a byte boundary `EMIT` of whole bytes writes them one by one (42_write_path R109 (a)). -/
theorem emitBits_bytes (v : Value) (n : Nat) (s : State) (h : s.WriteReady) (h0 : s.bitOffset = 0)
    (hroom : s.HasRoom n) : emitBits v (8 * n) s = emitBytesBody s (lowBytes v n) := by
  induction n generalizing s with
  | zero => rfl
  | succ n ih =>
    have hbyte : (v >>> (8 * n)).extractLsb' 0 8 = v.extractLsb' (8 * n) 8 := by
      refine byte_ext _ _ fun j hj => ?_
      simp [hj]
    obtain ⟨t, ht, hframe, hready, hlen, _, hoff, _⟩ :=
      emitByteBody_spec s (v.extractLsb' (8 * n) 8) h (hroom.mono (by omega))
    have ⟨⟨_, hcap, _⟩, _⟩ := hframe
    have hroom' : t.HasRoom n := by
      unfold State.HasRoom
      rwa [hcap, hlen, Nat.add_right_comm]
    rw [Nat.mul_succ, Nat.add_comm, emitBits_add, emitBits_eight _ s h h0 (hroom.mono (by omega)), hbyte, ht, lowBytes,
      emitBytesBody, ht, Option.bind_some, Option.bind_some, ih t hready hoff hroom']
/-! ### `APPEND_BYTES` -/

theorem writerChecks_appendBytes (k : BitVec 32) (s : State) (hp : s.poisoned = false) (hm : s.mode = .writer)
    (hdin : s.din.length = k.toNat) (h0 : s.bitOffset = 0) : WriterChecks (.appendBytes k) s :=
  ⟨rfl, hp, hm, rfl, by rw [alignmentCond, h0]; rfl, fun _ => hdin⟩

/-- Off a byte boundary `APPEND_BYTES` faults before its capacity check (60_exceptions R140). -/
theorem exec_appendBytes_misaligned (k : BitVec 32) (s : State) (hp : s.poisoned = false) (hm : s.mode = .writer)
    (hdin : s.din.length = k.toNat) (h0 : s.bitOffset ≠ 0) :
    FaultsWith (exec (.appendBytes k) s) .alignmentViolation s := by
  refine exec_faultsWith hp (fun _ => hdin) ?_ nofun
  have hmode : wrongModeCond (.appendBytes k) s = false := congrArg Bool.not ((classAdmits_writer_iff _).mpr hm)
  have halign : alignmentCond (.appendBytes k) s = true :=
    congrArg Bool.not (beq_eq_false_iff_ne.mpr (mt Fin.val_eq_zero_iff.mp h0))
  rw [firstStatus, hmode, halign]
  rfl

/-! ### `EMIT` -/

theorem writerChecks_emit (n : BitVec 8) (v : BitVec 32) (s : State) (hp : s.poisoned = false)
    (hm : s.mode = .writer) (h1 : 1 ≤ n.toNat) (h32 : n.toNat ≤ 32) : WriterChecks (.emit n v) s :=
  ⟨rfl, hp, hm, congrArg Bool.not ((numBitsValid_iff _).mpr ⟨h1, h32⟩), rfl, nofun⟩

theorem exec_emit_of_bad_numBits (n : BitVec 8) (v : BitVec 32) (s : State) (hp : s.poisoned = false)
    (hn : n.toNat = 0 ∨ 33 ≤ n.toNat) : FaultsWith (exec (.emit n v) s) .invalidParameter s := by
  refine exec_faultsWith hp nofun ?_ nofun
  have hbad : numBitsValid n.toNat = false :=
    Bool.eq_false_of_not_eq_true fun h => by have := (numBitsValid_iff _).mp h; omega
  rw [firstStatus, invalidParameterCond, hbad]
  rfl

theorem exec_emit_of_wrong_mode (n : BitVec 8) (v : BitVec 32) (s : State) (hp : s.poisoned = false)
    (h1 : 1 ≤ n.toNat) (h32 : n.toNat ≤ 32) (hm : s.mode ≠ .writer) :
    FaultsWith (exec (.emit n v) s) .wrongMode s := by
  refine exec_faultsWith hp nofun ?_ nofun
  have hgood : numBitsValid n.toNat = true := (numBitsValid_iff _).mpr ⟨h1, h32⟩
  have hmode : wrongModeCond (.emit n v) s = true :=
    congrArg Bool.not (Bool.eq_false_of_not_eq_true (mt (classAdmits_writer_iff _).mp hm))
  rw [firstStatus, invalidParameterCond, hgood, hmode]
  rfl

/-- Everything the closed form of `EMIT` says of the stream and the cursor it leaves (42_write_path R105). -/
theorem emitBits_closedForm (v : Value) (n : Nat) (s : State) (h : s.WriteReady)
    (hroom : s.HasRoom ((s.bitOffset.val + n) / 8)) :
    ∃ t, emitBits v n s = some t ∧ s.SameBeside t ∧
      (∀ j < n, t.streamBit (s.pos + j) = (v.toNat % 2 ^ n).testBit (n - 1 - j)) ∧
      (∀ p < s.pos, t.streamBit p = s.streamBit p) ∧ t.pos = s.pos + n ∧ t.byteIndex = (s.pos + n) / 8 ∧
      t.bitOffset.val = (s.pos + n) % 8 ∧ t.len = t.byteIndex + 1 ∧
      (∀ p, s.pos + n ≤ p → p < 8 * t.len → t.streamBit p = false) ∧
      (∀ a, t.len ≤ a → Store.read t.store a = Store.read s.store a) := by
  obtain ⟨t, ht, ⟨hsame, _⟩, hready, hpos, hbits⟩ := emitBits_spec v n s h hroom
  obtain ⟨hidx, hoff, hlen⟩ := hready.cursor_eq
  have hstart := h.pos_lt
  have hend := hready.pos_lt
  rw [hpos] at hidx hoff hend
  refine ⟨t, ht, hsame, fun j hj => ?_, fun p hp => ?_, hpos, hidx, hoff, hlen, fun p hp hp' => ?_, fun a ha => ?_⟩
  · rw [hbits, if_pos (by omega), Nat.add_sub_cancel_left, Nat.testBit_mod_two_pow, decide_eq_true (by omega),
      Bool.true_and, BitVec.testBit_toNat]
  · rw [hbits, if_neg (by omega), if_neg (by omega)]
  · exact hready.1.streamBit_eq_false p (by omega) hp'
  · refine byte_ext _ _ fun j hj => ?_
    rw [t.getLsbD_read a j hj, hbits, if_neg (by omega), if_neg (by omega), s.getLsbD_read a j hj]

/-! ### Consecutive emits -/

/-- The low `n1` bits of one value followed by the low `n2` bits of another (42_write_path R105). -/
def joinBits (n1 n2 : Nat) (v1 v2 : Value) : Value :=
  BitVec.ofNat 32 (((v1.toNat % 2 ^ n1) <<< n2) ||| (v2.toNat % 2 ^ n2))

theorem joinBits_getLsbD_low {n1 n2 i : Nat} (v1 v2 : Value) (h : n1 + n2 ≤ 32) (hi : i < n2) :
    (joinBits n1 n2 v1 v2).getLsbD i = v2.getLsbD i := by
  rw [joinBits, BitVec.getLsbD_ofNat, Nat.testBit_or, Nat.testBit_shiftLeft, Nat.testBit_mod_two_pow,
    Nat.testBit_mod_two_pow, BitVec.testBit_toNat, BitVec.testBit_toNat]
  simp [hi, show i < 32 by omega, show ¬n2 ≤ i by omega]

theorem joinBits_getLsbD_high {n1 n2 i : Nat} (v1 v2 : Value) (h : n1 + n2 ≤ 32) (hi : i < n1) :
    (joinBits n1 n2 v1 v2 >>> n2).getLsbD i = v1.getLsbD i := by
  rw [BitVec.getLsbD_ushiftRight, joinBits, BitVec.getLsbD_ofNat, Nat.testBit_or, Nat.testBit_shiftLeft,
    Nat.testBit_mod_two_pow, Nat.testBit_mod_two_pow, BitVec.testBit_toNat]
  simp [hi, show n2 + i < 32 by omega]

theorem emitBits_joinBits {n1 n2 : Nat} (v1 v2 : Value) (h : n1 + n2 ≤ 32) (s : State) :
    emitBits (joinBits n1 n2 v1 v2) (n1 + n2) s = (emitBits v1 n1 s).bind (emitBits v2 n2) := by
  rw [emitBits_add, emitBits_congr fun i hi => joinBits_getLsbD_high v1 v2 h hi,
    emitBits_congr fun i hi => joinBits_getLsbD_low v1 v2 h hi]

/-- An `EMIT` that has answered `OK` had its room, and left what its bit loop leaves. -/
theorem exec_emit_completed {n : BitVec 8} {v : BitVec 32} {s t : State} (h : WriterChecks (.emit n v) s)
    (hrun : exec (.emit n v) s = .next t) (hrsp : t.rsp = some (Response.okay 0#32 [])) :
    s.HasRoom ((s.bitOffset.val + n.toNat) / 8) ∧
      ∃ u, emitBits v n.toNat s = some u ∧ t = u.setRsp (Response.okay 0#32 []) := by
  obtain ⟨hroom, u, x, d, hbody, rfl⟩ := h.of_completed hrun hrsp
  exact ⟨hroom, u, unitResult_state hbody, congrArg (fun r => { u with rsp := r }) hrsp⟩

/-- The second of two emits asks for the `LEN` that one emit of both asks for at the start. -/
theorem emitBits_room_add {v : Value} {m : Nat} {s t : State} (n : Nat) (h : s.WriteReady)
    (hroom : s.HasRoom ((s.bitOffset.val + m) / 8)) (ht : emitBits v m s = some t) :
    s.len + (s.bitOffset.val + (m + n)) / 8 = t.len + (t.bitOffset.val + n) / 8 := by
  obtain ⟨t', ht', _, hready, hpos, _⟩ := emitBits_spec v m s h hroom
  obtain rfl := Option.mem_unique ht ht'
  have := h.cursor_eq
  have := hready.cursor_eq
  omega

theorem exec_emit_joinBits {n1 n2 : BitVec 8} {v1 v2 : BitVec 32} {s t u : State} (h : s.WriteReady)
    (hp : s.poisoned = false) (hm : s.mode = .writer) (h1 : 1 ≤ n1.toNat) (h2 : 1 ≤ n2.toNat)
    (h32 : n1.toNat + n2.toNat ≤ 32) (ht : exec (.emit n1 v1) s = .next t)
    (htr : t.rsp = some (Response.okay 0#32 [])) (hu : exec (.emit n2 v2) t = .next u)
    (hur : u.rsp = some (Response.okay 0#32 [])) :
    exec (.emit (n1 + n2) (joinBits n1.toNat n2.toNat v1 v2)) s = .next u := by
  obtain ⟨hroom1, w, hw, rfl⟩ := exec_emit_completed (writerChecks_emit n1 v1 s hp hm h1 (by omega)) ht htr
  have hframe := emitBits_writeFrame v1 _ s w hw
  have ⟨⟨hmode, hcap, _, _, hdef, _⟩, _⟩ := hframe
  obtain ⟨hroom2, x, hx, rfl⟩ := exec_emit_completed
    (writerChecks_emit n2 v2 (w.setRsp _) (hdef.trans hp) (hmode.trans hm) h2 (by omega)) hu hur
  have hadd : (n1 + n2).toNat = n1.toNat + n2.toNat := BitVec.toNat_add_of_lt (by omega)
  rw [emitBits_setRsp] at hx
  obtain ⟨y, hy, rfl⟩ := Option.map_eq_some_iff.mp hx
  refine (writerChecks_emit (n1 + n2) _ s hp hm (by omega) (by omega)).completes (u := y) ?_ ?_
  · rw [neededLen, hadd, emitBits_room_add n2.toNat h hroom1 hw, ← hcap]
    exact hroom2
  · rw [commandBody, numBitsOperand, hadd, emitBits_joinBits v1 v2 h32, hw, Option.bind_some, hy]

/-! ### The byte commands -/

/-- The commands that write whole bytes at the cursor, and the bytes they write (42_write_path R106 to R108). -/
inductive EmitsBytes : Instr → List Byte → Prop where
  | byte (v : BitVec 8) : EmitsBytes (.emitByte v) [v]
  | word (v : BitVec 16) : EmitsBytes (.emitWord v) (wordBytes v)
  | dword (v : BitVec 32) : EmitsBytes (.emitDword v) (dwordBytes v)

theorem EmitsBytes.ne_nil {i : Instr} {xs : List Byte} (hi : EmitsBytes i xs) : xs ≠ [] := by
  cases hi <;> exact List.cons_ne_nil _ _

theorem EmitsBytes.commandBody_eq {i : Instr} {xs : List Byte} (hi : EmitsBytes i xs) (s : State) :
    commandBody i s = unitResult (emitBytesBody s xs) := by
  cases hi with
  | byte v => exact congrArg unitResult (emitBytesBody_singleton s v).symm
  | word v | dword v => rfl

theorem EmitsBytes.neededLen_eq {i : Instr} {xs : List Byte} (hi : EmitsBytes i xs) (s : State) :
    neededLen i s = s.len + xs.length := by
  cases hi <;> rfl

/-- The byte commands check no alignment (42_write_path R106). -/
theorem EmitsBytes.checks {i : Instr} {xs : List Byte} (hi : EmitsBytes i xs) {s : State} (hp : s.poisoned = false)
    (hm : s.mode = .writer) : WriterChecks i s := by
  cases hi <;> exact ⟨rfl, hp, hm, rfl, rfl, nofun⟩

theorem EmitsBytes.exec_eq {i : Instr} {xs : List Byte} (hi : EmitsBytes i xs) {s u : State} (hp : s.poisoned = false)
    (hm : s.mode = .writer) (hroom : s.HasRoom xs.length) (hu : emitBytesBody s xs = some u) :
    exec i s = .next (u.setRsp (Response.okay 0#32 [])) :=
  (hi.checks hp hm).completes (by rwa [hi.neededLen_eq]) (by rw [hi.commandBody_eq, hu])

theorem EmitsBytes.exec_faults {i : Instr} {xs : List Byte} (hi : EmitsBytes i xs) {s : State}
    (hp : s.poisoned = false) (hm : s.mode = .writer) (hfull : capacityAdmits s.cap (s.len + xs.length) = false) :
    FaultsWith (exec i s) .capacityExceeded s :=
  (hi.checks hp hm).faults (by rwa [hi.neededLen_eq])

/-- A byte of an operand as a number. -/
theorem extractLsb'_toNat_eq {n : Nat} (v : BitVec n) (a : Nat) :
    (v.extractLsb' a 8).toNat = v.toNat / 2 ^ a % 2 ^ 8 := by
  rw [BitVec.extractLsb'_toNat, Nat.shiftRight_eq_div_pow]

/-- What a store with bytes placed from an index on reads, over what it reads elsewhere. -/
def placedByte (b : Nat) (xs : List Byte) (a : Nat) (elsewhere : Byte) : Byte :=
  if b ≤ a ∧ a < b + xs.length then xs.getD (a - b) 0x00#8 else elsewhere

theorem placedByte_nil (b a : Nat) (e : Byte) : placedByte b [] a e = e :=
  if_neg (by rw [List.length_nil]; omega)

theorem placedByte_cons (b : Nat) (x : Byte) (xs : List Byte) (a : Nat) (e : Byte) :
    placedByte b (x :: xs) a e = if a = b then x else placedByte (b + 1) xs a e := by
  unfold placedByte
  rw [List.length_cons]
  by_cases hab : a = b
  · subst hab
    rw [if_pos (by omega), if_pos rfl, Nat.sub_self, List.getD_cons_zero]
  · rw [if_neg hab]
    by_cases hin : b + 1 ≤ a ∧ a < b + 1 + xs.length
    · rw [if_pos (by omega), if_pos hin, show a - b = a - (b + 1) + 1 by omega, List.getD_cons_succ]
    · rw [if_neg (by omega), if_neg hin]

/-- A byte command from a writer with room: its bytes from the cursor's byte on, whatever the bit offset, and a zero
byte behind them (42_write_path R106 to R108). -/
theorem EmitsBytes.exec_completes {i : Instr} {xs : List Byte} (hi : EmitsBytes i xs) {s : State} (h : s.WriteReady)
    (hp : s.poisoned = false) (hm : s.mode = .writer) (hroom : s.HasRoom xs.length) :
    ∃ t, exec i s = .next t ∧ s.SameBeside t ∧ t.rsp = some (Response.okay 0#32 []) ∧
      t.len = s.len + xs.length ∧ t.byteIndex = s.byteIndex + xs.length ∧ t.bitOffset = 0 ∧
      ∀ a, Store.read t.store a = placedByte s.byteIndex xs a
        (if a = s.byteIndex + xs.length then 0x00#8 else Store.read s.store a) := by
  obtain ⟨u, hu, ⟨hsame, _⟩, _, hlen, hidx, _, hoff, hread⟩ := emitBytesBody_spec xs s h hroom
  refine ⟨_, hi.exec_eq hp hm hroom hu, hsame, rfl, hlen, hidx, hoff hi.ne_nil, fun a => (hread a).trans ?_⟩
  exact if_congr Iff.rfl rfl (if_congr (and_iff_right hi.ne_nil) rfl rfl)

/-- A byte command that writes the bytes of two is those two in turn (42_write_path R109 (c)). -/
theorem EmitsBytes.exec_append {i j k : Instr} {xs ys : List Byte} (hi : EmitsBytes i xs) (hj : EmitsBytes j ys)
    (hk : EmitsBytes k (xs ++ ys)) {s t u : State} (h : s.WriteReady) (hp : s.poisoned = false)
    (hm : s.mode = .writer) (hroom : s.HasRoom (xs ++ ys).length) (ht : exec i s = .next t)
    (hu : exec j t = .next u) : exec k s = .next u := by
  have hroom' : s.HasRoom (xs.length + ys.length) := by rwa [← List.length_append]
  obtain ⟨w, hw, ⟨⟨hmode, hcap, _, _, hdef, _⟩, _⟩, hready, hlen, _⟩ :=
    emitBytesBody_spec xs s h (hroom'.mono (by omega))
  have hroomw : w.HasRoom ys.length := by
    unfold State.HasRoom
    rwa [hcap, hlen, Nat.add_assoc]
  obtain ⟨x, hx, _⟩ := emitBytesBody_spec ys w hready hroomw
  rw [hi.exec_eq hp hm (hroom'.mono (by omega)) hw] at ht
  cases ht
  have hx' : emitBytesBody (w.setRsp (Response.okay 0#32 [])) ys = some (x.setRsp (Response.okay 0#32 [])) := by
    rw [emitBytesBody_setRsp, hx]
    rfl
  rw [hj.exec_eq (s := w.setRsp _) (hdef.trans hp) (hmode.trans hm) hroomw hx'] at hu
  cases hu
  exact hk.exec_eq (u := x) hp hm hroom (by rw [emitBytesBody_append, hw, Option.bind_some, hx])

/-! ### `EMIT` at a byte boundary -/

/-- A byte inside a zero-extended operand is that byte of the operand. -/
theorem extractLsb'_zeroExtend {n : Nat} (v : BitVec n) (a : Nat) (h : n ≤ 32) :
    (v.zeroExtend 32).extractLsb' a 8 = v.extractLsb' a 8 := by
  refine byte_ext _ _ fun j hj => ?_
  rw [BitVec.zeroExtend, BitVec.getLsbD_extractLsb', BitVec.getLsbD_extractLsb', BitVec.getLsbD_setWidth]
  by_cases hbit : a + j < 32
  · rw [decide_eq_true hbit, Bool.true_and]
  · rw [v.getLsbD_of_ge _ (by omega), Bool.and_false]

theorem singleton_eq_lowBytes (v : BitVec 8) : [v] = lowBytes (v.zeroExtend 32) 1 := by
  rw [lowBytes, extractLsb'_zeroExtend v _ (by decide), lowBytes, BitVec.extractLsb'_eq_self]

theorem wordBytes_eq_lowBytes (v : BitVec 16) : wordBytes v = lowBytes (v.zeroExtend 32) 2 := by
  simp only [wordBytes, lowBytes, extractLsb'_zeroExtend v _ (show 16 ≤ 32 by decide)]

theorem dwordBytes_eq_lowBytes (v : BitVec 32) : dwordBytes v = lowBytes v 4 := rfl

/-- A byte inside a half of an operand is that byte of the operand. -/
theorem extractLsb'_half (v : BitVec 32) (a b : Nat) (h : b + 8 ≤ 16) :
    (v.extractLsb' a 16).extractLsb' b 8 = v.extractLsb' (a + b) 8 := by
  refine byte_ext _ _ fun j hj => ?_
  simp only [BitVec.getLsbD_extractLsb', hj, show b + j < 16 by omega, decide_true, Bool.true_and, Nat.add_assoc]

theorem dwordBytes_eq_append (v : BitVec 32) :
    dwordBytes v = wordBytes (v.extractLsb' 16 16) ++ wordBytes (v.extractLsb' 0 16) := by
  simp only [wordBytes, extractLsb'_half v _ 8 (by decide), extractLsb'_half v _ 0 (by decide)]
  rfl

/-- At a byte boundary a byte command is `EMIT` of the same bytes, in the fault as well (42_write_path R109 (a)). -/
theorem EmitsBytes.exec_eq_emit {i : Instr} {n : BitVec 8} {v : Value} {m : Nat} (hi : EmitsBytes i (lowBytes v m))
    {s : State} (h : s.WriteReady) (hp : s.poisoned = false) (hm : s.mode = .writer) (h0 : s.bitOffset = 0)
    (hn : n.toNat = 8 * m) (h4 : m ≤ 4) : exec i s = exec (.emit n v) s := by
  have hpos : 0 < m := by
    simpa using List.length_pos_iff.mpr hi.ne_nil
  have hneed : neededLen (.emit n v) s = s.len + m := by
    rw [neededLen, h0, hn, Fin.val_zero, Nat.zero_add, Nat.mul_div_cancel_left m (by decide)]
  refine (hi.checks hp hm).exec_congr (writerChecks_emit n v s hp hm (by omega) (by omega)) ?_ fun hroom => ?_
  · rw [hi.neededLen_eq, lowBytes_length, hneed]
  · rw [hneed] at hroom
    rw [hi.commandBody_eq, commandBody, numBitsOperand, hn, emitBits_bytes v m s h h0 hroom]

/-! ### `APPEND_BYTES` and a list of byte commands -/

/-- At a byte boundary the staging byte of a writer is zero (10_state R32 (c)). -/
theorem State.WriteReady.staging_eq_zero {s : State} (h : s.WriteReady) (h0 : s.bitOffset = 0) :
    Store.read s.store s.byteIndex = 0x00#8 := by
  obtain ⟨⟨_, _, hzero⟩, _⟩ := h
  rw [h0] at hzero
  exact byte_ext _ _ fun j hj => (hzero j hj).trans BitVec.getLsbD_zero.symm

/-- At a byte boundary the payload as a whole and byte by byte leave the same architectural state: their bytes agree, and
both end on a zero staging byte (42_write_path R109 (a)). -/
theorem appendBody_engine (xs : List Byte) (s : State) (h : s.WriteReady) (h0 : s.bitOffset = 0)
    (hroom : s.HasRoom xs.length) :
    ∃ t u, appendBody xs s = some t ∧ emitBytesBody s xs = some u ∧ u.engine = t.engine := by
  obtain ⟨t, ht, hframe, hready, _, hidx, hoff, hread⟩ := appendBody_spec xs s h h0 hroom
  obtain ⟨u, hu, hframe', hready', _, hidx', hnil, hne, hread'⟩ := emitBytesBody_spec xs s h hroom
  have hoff' : u.bitOffset = 0 := by
    by_cases hxs : xs = []
    · rw [hnil hxs, h0]
    · exact hne hxs
  have hpos : u.pos = t.pos := by rw [State.pos, State.pos, hidx, hidx', hoff, hoff']
  refine ⟨t, u, ht, hu, hready.engine_eq hready' (hframe'.mode_eq.trans hframe.mode_eq.symm) hpos fun a => ?_⟩
  by_cases hstage : a = s.byteIndex + xs.length
  · rw [hstage, ← hidx, hready.staging_eq_zero hoff, hidx, ← hidx', hready'.staging_eq_zero hoff']
  · rw [hread, hread', if_neg hstage, if_neg (not_and_of_not_right _ hstage)]

/-- One `EMIT_BYTE` command for each byte leaves the architectural state that the bytes' bodies leave. -/
theorem emitByteCommands_engine (xs : List Byte) (s : State) (h : s.WriteReady) (hp : s.poisoned = false)
    (hm : s.mode = .writer) (hroom : s.HasRoom xs.length) :
    ∃ t u, emitBytesBody s xs = some t ∧ emitByteCommands xs s = .next u ∧ u.engine = t.engine := by
  induction xs generalizing s with
  | nil => exact ⟨s, s, rfl, rfl, rfl⟩
  | cons x xs ih =>
    obtain ⟨w, hw, ⟨⟨hmode, hcap, _, _, hdef, _⟩, _⟩, hready, hlen, _⟩ :=
      emitByteBody_spec s x h (hroom.mono (by rw [List.length_cons]; omega))
    have hroomw : w.HasRoom xs.length := by
      unfold State.HasRoom
      rwa [hcap, hlen, Nat.add_assoc, Nat.add_comm 1]
    have hx := (EmitsBytes.byte x).exec_eq hp hm (hroom.mono (by simp))
      ((emitBytesBody_singleton s x).trans hw)
    obtain ⟨t, u, ht, hu, heng⟩ := ih (w.setRsp (Response.okay 0#32 [])) hready (hdef.trans hp) (hmode.trans hm) hroomw
    rw [emitBytesBody_setRsp] at ht
    obtain ⟨y, hy, rfl⟩ := Option.map_eq_some_iff.mp ht
    refine ⟨y, u, ?_, ?_, heng⟩
    · rw [emitBytesBody, hw, Option.bind_some, hy]
    · rw [emitByteCommands, hx]
      exact hu

/-- At a byte boundary with room `APPEND_BYTES` and one `EMIT_BYTE` per byte leave the same architectural state
(42_write_path R109 (a)). -/
theorem exec_appendBytes_engine (k : BitVec 32) (s : State) (h : s.WriteReady) (hp : s.poisoned = false)
    (hm : s.mode = .writer) (h0 : s.bitOffset = 0) (hdin : s.din.length = k.toNat) (hroom : s.HasRoom k.toNat) :
    ∃ t u, exec (.appendBytes k) s = .next t ∧ emitByteCommands s.din s = .next u ∧ t.engine = u.engine := by
  have hroom' : s.HasRoom s.din.length := by rwa [hdin]
  obtain ⟨t, w, ht, hw, heng⟩ := appendBody_engine s.din s h h0 hroom'
  obtain ⟨w', u, hw', hu, heng'⟩ := emitByteCommands_engine s.din s h hp hm hroom'
  obtain rfl := Option.mem_unique hw hw'
  have hrun := (writerChecks_appendBytes k s hp hm hdin h0).completes (u := t) hroom (by rw [commandBody, ht])
  exact ⟨_, u, hrun, hu, (heng'.trans heng).symm⟩

/-! ### `EMIT` of 8 bits and `EMIT_BYTE` off a byte boundary -/

/-- From inside a byte 8 more bits cross one byte boundary. -/
theorem State.HasRoom.eight_bits {s : State} (hroom : s.HasRoom 1) (hoff : s.bitOffset.val ≤ 7) :
    s.HasRoom ((s.bitOffset.val + 8) / 8) :=
  hroom.mono (by omega)

/-- `EMIT` of 8 bits with room for one byte, as its bit loop. -/
theorem exec_emit_eight {v : BitVec 32} {s t : State} (h : s.WriteReady) (hp : s.poisoned = false)
    (hm : s.mode = .writer) (hroom : s.HasRoom 1) (ht : exec (.emit 8#8 v) s = .next t) :
    ∃ u, emitBits v 8 s = some u ∧ t = u.setRsp (Response.okay 0#32 []) := by
  have ⟨⟨_, hoff, _⟩, _⟩ := h
  obtain ⟨u, hu, _⟩ := emitBits_spec v 8 s h (hroom.eight_bits hoff)
  rw [(writerChecks_emit 8#8 v s hp hm (by decide) (by decide)).completes (u := u) (hroom.eight_bits hoff)
    (congrArg unitResult hu)] at ht
  cases ht
  exact ⟨u, hu, rfl⟩

/-- Eight bits more leave the place inside the byte. -/
theorem exec_emit_eight_bitOffset {v : BitVec 32} {s t : State} (h : s.WriteReady) (hp : s.poisoned = false)
    (hm : s.mode = .writer) (hroom : s.HasRoom 1) (ht : exec (.emit 8#8 v) s = .next t) :
    t.bitOffset = s.bitOffset := by
  obtain ⟨u, hu, rfl⟩ := exec_emit_eight h hp hm hroom ht
  have ⟨⟨_, hoff, _⟩, _⟩ := h
  obtain ⟨u', hu', _, hready, hpos, _⟩ := emitBits_spec v 8 s h (hroom.eight_bits hoff)
  obtain rfl := Option.mem_unique hu hu'
  have := h.cursor_eq
  have := hready.cursor_eq
  exact Fin.ext (by rw [State.setRsp_bitOffset]; omega)

/-- Off a byte boundary `EMIT` of 8 bits keeps the bit offset and `EMIT_BYTE` clears it (42_write_path R109 (b)). -/
theorem exec_emit_eight_ne_emitByte {v : BitVec 32} {x : BitVec 8} {s t u : State} (h : s.WriteReady)
    (hp : s.poisoned = false) (hm : s.mode = .writer) (hne : s.bitOffset ≠ 0) (hroom : s.HasRoom 1)
    (ht : exec (.emit 8#8 v) s = .next t) (hu : exec (.emitByte x) s = .next u) :
    t.bitOffset = s.bitOffset ∧ u.bitOffset = 0 ∧ t.engine ≠ u.engine := by
  have htoff := exec_emit_eight_bitOffset h hp hm hroom ht
  obtain ⟨u', hu', _, _, _, _, huoff, _⟩ := (EmitsBytes.byte x).exec_completes h hp hm hroom
  rw [hu] at hu'
  cases hu'
  exact ⟨htoff, huoff, fun heng => hne (htoff.symm.trans ((congrArg Engine.bitOffset heng).trans huoff))⟩

/-- The spec's example (42_write_path R109 (b)): after `101` in byte 0, `EMIT` of 8 bits packs `00001111` behind it. -/
theorem emit_example_bytes {s t : State} (h : s.WriteReady) (hp : s.poisoned = false) (hm : s.mode = .writer)
    (hpos : s.pos = 3) (hbyte : Store.read s.store 0 = 0xA0#8) (hroom : s.HasRoom 1)
    (ht : exec (.emit 8#8 0x0F#32) s = .next t) : t.bytesFrom 0 2 = [0xA1#8, 0xE0#8] := by
  obtain ⟨u, hu, rfl⟩ := exec_emit_eight h hp hm hroom ht
  obtain ⟨hidx, hoff, hlen⟩ := h.cursor_eq
  obtain ⟨u', hu', _, hready, hpos', hbits⟩ := emitBits_spec 0x0F#32 8 s h (hroom.eight_bits (by omega))
  obtain rfl := Option.mem_unique hu hu'
  obtain ⟨hidx', _, hlen'⟩ := hready.cursor_eq
  have hlen1 : s.len = 1 := by omega
  have hlen2 : u.len = 2 := by omega
  rw [hpos, hlen1, hlen2] at hbits
  have hfirst : Store.read u.store 0 = 0xA1#8 := by
    refine byte_ext _ _ fun j hj => ?_
    rw [u.getLsbD_read 0 j hj, hbits, ← s.getLsbD_read 0 j hj, hbyte]
    revert j
    decide
  have hsecond : Store.read u.store 1 = 0xE0#8 := by
    refine byte_ext _ _ fun j hj => ?_
    rw [u.getLsbD_read 1 j hj, hbits, if_pos (show 8 * 1 ≤ 8 * 1 + (7 - j) ∧ 8 * 1 + (7 - j) < 8 * 2 by omega)]
    revert j
    decide
  rw [← hfirst, ← hsecond]
  rfl

/-- The spec's example (42_write_path R109 (b)): `EMIT_BYTE` overwrites the `101` in byte 0. -/
theorem emitByte_example {s u : State} (h : s.WriteReady) (hp : s.poisoned = false) (hm : s.mode = .writer)
    (hpos : s.pos = 3) (hroom : s.HasRoom 1) (hu : exec (.emitByte 0x0F#8) s = .next u) :
    u.bytesFrom 0 2 = [0x0F#8, 0x00#8] ∧ u.bitOffset = 0 := by
  obtain ⟨u', hu', _, _, _, _, hoff, hread⟩ := (EmitsBytes.byte 0x0F#8).exec_completes h hp hm hroom
  rw [hu] at hu'
  cases hu'
  obtain ⟨hidx, _, _⟩ := h.cursor_eq
  have hidx0 : s.byteIndex = 0 := by omega
  have hbytes : u.bytesFrom 0 2 = [Store.read u.store 0, Store.read u.store 1] := rfl
  rw [hbytes, hread, hread, hidx0]
  exact ⟨rfl, hoff⟩

/-! ### The obligations of 42_write_path -/

/-- Settles O38: aligned with room the body leaves the rule's state; misaligned or without room a check faults. -/
theorem appendBytesAddsThePayload : Obligations.AppendBytesAddsThePayload := by
  unfold Obligations.AppendBytesAddsThePayload
  intro k s h hp hm hdin
  refine ⟨fun h0 hroom => ?_, exec_appendBytes_misaligned k s hp hm hdin,
    fun h0 hfull => (writerChecks_appendBytes k s hp hm hdin h0).faults hfull⟩
  rw [← hdin] at hroom ⊢
  obtain ⟨u, hu, ⟨hsame, _⟩, _, hlen, hidx, hoff, hread⟩ := appendBody_spec s.din s (h.writeReady hp hm) h0 hroom
  have hrun := (writerChecks_appendBytes k s hp hm hdin h0).completes (u := u) (by rw [neededLen, ← hdin]; exact hroom)
    (by rw [commandBody, hu])
  exact ⟨_, hrun, hsame, rfl, hlen, hidx, hoff, hread⟩

/-- Settles O39: the bit loop's closed form, and that the loop of both values' bits is the one loop after the other. -/
theorem emitPacksTheLowBitsMsbFirst : Obligations.EmitPacksTheLowBitsMsbFirst := by
  unfold Obligations.EmitPacksTheLowBitsMsbFirst
  refine ⟨fun n v s h hp hm h1 h32 hroom => ?_, fun n1 n2 v1 v2 s t u h hp hm h1 h2 h32 ht htr hu hur => ?_⟩
  · obtain ⟨t, ht, hsame, hstream⟩ := emitBits_closedForm v n.toNat s (h.writeReady hp hm) hroom
    have hrun := (writerChecks_emit n v s hp hm h1 h32).completes (u := t) hroom (by rw [commandBody, ← ht]; rfl)
    exact ⟨_, hrun, hsame, rfl, hstream⟩
  · exact exec_emit_joinBits (h.writeReady hp hm) hp hm h1 h2 h32 ht htr hu hur

/-- Settles O40: the checks of `EMIT` in the order of 60_exceptions R140. -/
theorem emitFaultsBeforeAnyWrite : Obligations.EmitFaultsBeforeAnyWrite := by
  unfold Obligations.EmitFaultsBeforeAnyWrite
  intro n v s hp
  exact ⟨exec_emit_of_bad_numBits n v s hp, exec_emit_of_wrong_mode n v s hp,
    fun h1 h32 hm _ hfull => (writerChecks_emit n v s hp hm h1 h32).faults hfull⟩

/-- Settles O41: the byte command that writes one byte. -/
theorem emitByteOverwritesAndGrows : Obligations.EmitByteOverwritesAndGrows := by
  unfold Obligations.EmitByteOverwritesAndGrows
  intro v s h hp hm
  refine ⟨fun hroom => ?_, fun hfull => (EmitsBytes.byte v).exec_faults hp hm hfull⟩
  obtain ⟨t, ht, hsame, hrsp, hlen, hidx, hoff, hread⟩ :=
    (EmitsBytes.byte v).exec_completes (h.writeReady hp hm) hp hm hroom
  refine ⟨t, ht, hsame, hrsp, hlen, hidx, hoff, fun a => ?_⟩
  rw [hread, placedByte_cons, placedByte_nil]
  rfl

/-- Settles O42: the byte command that writes the two bytes of a 16-bit operand. -/
theorem emitWordWritesBigEndian : Obligations.EmitWordWritesBigEndian := by
  unfold Obligations.EmitWordWritesBigEndian
  intro v s h hp hm
  refine ⟨fun hroom => ?_, fun hfull => (EmitsBytes.word v).exec_faults hp hm hfull⟩
  obtain ⟨t, ht, hsame, hrsp, hlen, hidx, hoff, hread⟩ :=
    (EmitsBytes.word v).exec_completes (h.writeReady hp hm) hp hm hroom
  refine ⟨t, ht, hsame, hrsp, hlen, hidx, hoff, fun a => ?_⟩
  have hhigh : (v.extractLsb' 8 8).toNat = v.toNat / 2 ^ 8 := by
    rw [extractLsb'_toNat_eq, Nat.mod_eq_of_lt (by omega)]
  rw [hread, wordBytes]
  simp only [placedByte_cons, placedByte_nil, apply_ite BitVec.toNat, hhigh, extractLsb'_toNat_eq]
  simp

/-- Settles O43: the byte command that writes the four bytes of a 32-bit operand. -/
theorem emitDwordWritesBigEndian : Obligations.EmitDwordWritesBigEndian := by
  unfold Obligations.EmitDwordWritesBigEndian
  intro v s h hp hm
  refine ⟨fun hroom => ?_, fun hfull => (EmitsBytes.dword v).exec_faults hp hm hfull⟩
  obtain ⟨t, ht, hsame, hrsp, hlen, hidx, hoff, hread⟩ :=
    (EmitsBytes.dword v).exec_completes (h.writeReady hp hm) hp hm hroom
  refine ⟨t, ht, hsame, hrsp, hlen, hidx, hoff, fun a => ?_⟩
  have hhigh : (v.extractLsb' 24 8).toNat = v.toNat / 2 ^ 24 := by
    rw [extractLsb'_toNat_eq, Nat.mod_eq_of_lt (by omega)]
  rw [hread, dwordBytes]
  simp only [placedByte_cons, placedByte_nil, apply_ite BitVec.toNat, hhigh, extractLsb'_toNat_eq]
  simp

/-- Settles O44: (a) at a byte boundary `EMIT` of whole bytes writes them one by one, as the byte commands do, and
`APPEND_BYTES` ends in the same state; (b) off it the two leave different bit offsets; (c) the bytes of a wide command are
those of its halves. -/
theorem writeCommandsRelateAsListed : Obligations.WriteCommandsRelateAsListed := by
  unfold Obligations.WriteCommandsRelateAsListed
  refine ⟨fun s h hp hm h0 => ⟨fun x => ?_, fun x => ?_, fun x => ?_, fun k hdin hroom => ?_⟩,
    fun s t u x h hp hm hne hroom ht hu => ?_, fun s t u h hm hp hpos hbyte hroom ht hu => ?_,
    fun s t u x h hp hm hroom ht hu => ?_, fun s t u x h hp hm hroom ht hu => ?_⟩
  · exact (singleton_eq_lowBytes x ▸ EmitsBytes.byte x).exec_eq_emit (h.writeReady hp hm) hp hm h0 rfl (by decide)
  · exact (wordBytes_eq_lowBytes x ▸ EmitsBytes.word x).exec_eq_emit (h.writeReady hp hm) hp hm h0 rfl (by decide)
  · exact (dwordBytes_eq_lowBytes x ▸ EmitsBytes.dword x).exec_eq_emit (h.writeReady hp hm) hp hm h0 rfl (by decide)
  · exact exec_appendBytes_engine k s (h.writeReady hp hm) hp hm h0 hdin hroom
  · exact exec_emit_eight_ne_emitByte (h.writeReady hp hm) hp hm hne hroom ht hu
  · have hready := h.writeReady hp hm
    obtain ⟨_, hoff, _⟩ := hready.cursor_eq
    have htoff := exec_emit_eight_bitOffset hready hp hm hroom ht
    exact ⟨emit_example_bytes hready hp hm hpos hbyte hroom ht, by rw [htoff, hoff, hpos],
      emitByte_example hready hp hm hpos hroom hu⟩
  · exact (EmitsBytes.byte _).exec_append (.byte _) (.word x) (h.writeReady hp hm) hp hm hroom ht hu
  · exact (EmitsBytes.word _).exec_append (.word _) (dwordBytes_eq_append x ▸ EmitsBytes.dword x) (h.writeReady hp hm) hp
      hm hroom ht hu

end Sys2Proof.Machine
end

section
/-! PROOFS. The read path (43_read_path): what a reader command reports once its leading checks have passed, the value of a
run of stream bits, the closed forms of `COLLECT` and of the byte commands, and the round trip with the write path. -/

namespace Sys2Proof.Machine

/-! ### The checks of a reader command -/

/-- What a reader command has behind it when only its alignment and its bytes are left to check (60_exceptions R140): a
defined run, a reader, and legal operands. -/
structure ReaderChecks (i : Instr) (s : State) : Prop where
  capClass : i.mnemonic.capClass = .reader
  defined : s.poisoned = false
  reader : s.mode = .reader
  numBits : invalidParameterCond i = false

/-- No reader command carries a payload (30_encoding R64). -/
theorem payloadFits_of_reader (i : Instr) (s : State) (hi : i.mnemonic.capClass = .reader) : PayloadFits i s := by
  cases i with
  | createReader _ | appendBytes _ => exact nomatch hi
  | _ => exact nofun

/-- No reader command grows the store (20_memory R53). -/
theorem neededLen_of_reader (i : Instr) (s : State) (hi : i.mnemonic.capClass = .reader) : neededLen i s = 0 := by
  cases i with
  | alignR | collectAll | deconcat _ | deappend _ | collect _ | collectByte | collectWord | collectDword => rfl
  | _ => exact nomatch hi

/-- After its other checks a reader command checks its alignment, then its bytes, and runs. -/
theorem ReaderChecks.exec_eq {i : Instr} {s : State} (h : ReaderChecks i s) :
    exec i s = if alignmentCond i s = true then raise .alignmentViolation s
      else if overrunCond i s = true then raise .overrun s else runBody i s := by
  obtain ⟨hi, hp, hm, hbits⟩ := h
  have hmode : wrongModeCond i s = false := by
    rw [wrongModeCond, hi, (classAdmits_reader_iff _).mpr hm]
    rfl
  rw [exec_eq_checkedRun i s hp (payloadFits_of_reader i s hi), checkedRun_eq_ite, hbits, hmode,
    capacityCond_of_no_growth i s (neededLen_of_reader i s hi)]
  rfl

theorem ReaderChecks.misaligned {i : Instr} {s : State} (h : ReaderChecks i s) (halign : alignmentCond i s = true) :
    FaultsWith (exec i s) .alignmentViolation s := by
  rw [h.exec_eq, if_pos halign]
  exact faultsWith_raise _ s

theorem ReaderChecks.overruns {i : Instr} {s : State} (h : ReaderChecks i s) (halign : alignmentCond i s = false)
    (hover : overrunCond i s = true) : FaultsWith (exec i s) .overrun s := by
  rw [h.exec_eq, if_neg (by rw [halign]; decide), if_pos hover]
  exact faultsWith_raise _ s

theorem ReaderChecks.runs {i : Instr} {s : State} (h : ReaderChecks i s) (halign : alignmentCond i s = false)
    (hover : overrunCond i s = false) : exec i s = runBody i s := by
  rw [h.exec_eq, if_neg (by rw [halign]; decide), if_neg (by rw [hover]; decide)]

theorem ReaderChecks.completes {i : Instr} {s u : State} {v : Value} {d : List Byte} (h : ReaderChecks i s)
    (halign : alignmentCond i s = false) (hover : overrunCond i s = false) (hundef : undefinedCond i s = false)
    (hbody : commandBody i s = some (u, v, d)) : exec i s = .next (u.setRsp (Response.okay v d)) := by
  rw [h.runs halign hover, runBody, if_neg (by rw [hundef]; decide), hbody]
  rfl

theorem bitOffset_beq_zero_of_ne {s : State} (h0 : s.bitOffset ≠ 0) : (s.bitOffset.val == 0) = false :=
  beq_eq_false_iff_ne.mpr (mt Fin.val_eq_zero_iff.mp h0)

/-! ### The leading faults of any command -/

theorem exec_of_invalidParameter {i : Instr} {s : State} (hp : s.poisoned = false) (hpay : PayloadFits i s)
    (h : invalidParameterCond i = true) : FaultsWith (exec i s) .invalidParameter s :=
  exec_faultsWith hp hpay (by rw [firstStatus, if_pos h]) nofun

theorem exec_of_wrongMode {i : Instr} {s : State} (hp : s.poisoned = false) (hpay : PayloadFits i s)
    (hbits : invalidParameterCond i = false) (h : wrongModeCond i s = true) : FaultsWith (exec i s) .wrongMode s :=
  exec_faultsWith hp hpay (by rw [firstStatus, hbits, if_pos h]; rfl) nofun

/-- In a defined run a command that has answered `OK` met no fault. -/
theorem firstStatus_ok_of_answer {i : Instr} {s t : State} {r : Response} (hp : s.poisoned = false)
    (hundef : undefinedCond i s = false) (hrun : exec i s = .next t) (hr : t.rsp = some r) (hok : r.status = .ok) :
    firstStatus i s = .ok := by
  obtain ⟨_, hmarked⟩ | ⟨hfirst, _⟩ | ⟨_, _, rfl⟩ := exec_cases i s t hrun
  · simp [hp, hundef] at hmarked
  · exact hfirst
  · obtain rfl := Option.some.inj hr
    exact hok

/-! ### `DEAPPEND` and `DECONCAT` -/

theorem readerChecks_deappend (k : BitVec 32) (s : State) (hp : s.poisoned = false) (hm : s.mode = .reader) :
    ReaderChecks (.deappend k) s :=
  ⟨rfl, hp, hm, rfl⟩

/-- The two raw extracts are one function of the state (43_read_path R115, R116). -/
theorem exec_deconcat_eq_deappend (k : BitVec 32) (s : State) : exec (.deconcat k) s = exec (.deappend k) s := rfl

theorem alignmentCond_deappend_of_aligned (k : BitVec 32) (s : State) (h0 : s.bitOffset = 0) :
    alignmentCond (.deappend k) s = false := by
  rw [alignmentCond, h0]
  rfl

theorem exec_deappend_misaligned (k : BitVec 32) (s : State) (hp : s.poisoned = false) (hm : s.mode = .reader)
    (h0 : s.bitOffset ≠ 0) : FaultsWith (exec (.deappend k) s) .alignmentViolation s :=
  (readerChecks_deappend k s hp hm).misaligned (by rw [alignmentCond, bitOffset_beq_zero_of_ne h0]; rfl)

/-- Past the end a raw extract is undefined (43_read_path R114 (b), log entry 7). -/
theorem exec_deappend_past_end (k : BitVec 32) (s : State) (hp : s.poisoned = false) (hm : s.mode = .reader)
    (h0 : s.bitOffset = 0) (hend : s.len < s.byteIndex + k.toNat) : exec (.deappend k) s = .next s.poison := by
  rw [(readerChecks_deappend k s hp hm).runs (alignmentCond_deappend_of_aligned k s h0) rfl]
  exact if_pos (decide_eq_true hend)

theorem exec_deappend (k : BitVec 32) (s : State) (hp : s.poisoned = false) (hm : s.mode = .reader)
    (hc : capacityAdmits s.cap s.len = true) (h0 : s.bitOffset = 0) (hend : s.byteIndex + k.toNat ≤ s.len) :
    exec (.deappend k) s =
      .next ((advance s k.toNat).setRsp (Response.okay k (s.bytesFrom s.byteIndex k.toNat))) := by
  have hread : memReadRun s s.byteIndex k.toNat = some (s.bytesFrom s.byteIndex k.toNat) :=
    memReadRun_eq s hc s.byteIndex k.toNat hend
  refine (readerChecks_deappend k s hp hm).completes (alignmentCond_deappend_of_aligned k s h0) rfl
    (decide_eq_false (by omega)) ?_
  simp only [commandBody, takeBytes, countOperand, hread, bytesResult, Option.map_some, State.bytesFrom_length,
    indexField_toNat_operand]

/-! ### The value of a run of stream bits -/

/-- The `n` stream bits from position `p` on as a number, the first of them the most significant (20_memory R42, R44). -/
def State.streamValue (s : State) (p n : Nat) : Nat :=
  ∑ j ∈ Finset.range n, (s.streamBit (p + j)).toNat * 2 ^ (n - 1 - j)

theorem State.streamValue_succ (s : State) (p n : Nat) :
    s.streamValue p (n + 1) = s.streamValue p n * 2 + (s.streamBit (p + n)).toNat := by
  have hdouble : ∀ j ∈ Finset.range n, (s.streamBit (p + j)).toNat * 2 ^ (n + 1 - 1 - j) =
      (s.streamBit (p + j)).toNat * 2 ^ (n - 1 - j) * 2 := by
    intro j hj
    have hj : j < n := Finset.mem_range.mp hj
    rw [show n + 1 - 1 - j = n - 1 - j + 1 by omega, Nat.pow_succ, Nat.mul_assoc]
  rw [State.streamValue, Finset.sum_range_succ, Finset.sum_congr rfl hdouble, ← Finset.sum_mul]
  simp [State.streamValue]

theorem State.streamValue_lt (s : State) (p n : Nat) : s.streamValue p n < 2 ^ n := by
  induction n with
  | zero => exact Nat.one_pos
  | succ n ih =>
    have := Bool.toNat_lt (s.streamBit (p + n))
    rw [s.streamValue_succ, Nat.pow_succ]
    omega

/-- The bits of two runs, one behind the other. -/
theorem State.streamValue_add (s : State) (p m n : Nat) :
    s.streamValue p (m + n) = s.streamValue p m * 2 ^ n + s.streamValue (p + m) n := by
  induction n with
  | zero => simp [State.streamValue]
  | succ n ih =>
    rw [← Nat.add_assoc, s.streamValue_succ, ih, s.streamValue_succ, Nat.pow_succ, Nat.add_assoc p m n]
    ring

/-- A run that holds the low `n` bits of a number, most significant first, has them as its value. -/
theorem State.streamValue_eq_mod (s : State) (p n x : Nat)
    (h : ∀ j < n, s.streamBit (p + j) = x.testBit (n - 1 - j)) : s.streamValue p n = x % 2 ^ n := by
  induction n generalizing x with
  | zero => rw [Nat.pow_zero, Nat.mod_one]; rfl
  | succ n ih =>
    have hhigh : s.streamValue p n = x / 2 % 2 ^ n := ih (x / 2) fun j hj => by
      rw [h j (by omega), ← Nat.testBit_add_one, show n + 1 - 1 - j = n - 1 - j + 1 by omega]
    have hlast : s.streamBit (p + n) = x.testBit 0 := by
      rw [h n (by omega), show n + 1 - 1 - n = 0 by omega]
    rw [s.streamValue_succ, hhigh, hlast, Nat.toNat_testBit, Nat.pow_succ', Nat.mod_mul, Nat.pow_zero, Nat.div_one]
    omega

/-- The eight stream bits of a byte are that byte (20_memory R42). -/
theorem State.streamValue_byte (s : State) (a : Nat) : s.streamValue (8 * a) 8 = (Store.read s.store a).toNat := by
  rw [s.streamValue_eq_mod (8 * a) 8 (Store.read s.store a).toNat fun j hj => ?_, Nat.mod_eq_of_lt (BitVec.isLt _)]
  rw [BitVec.testBit_toNat, s.getLsbD_read a _ (by omega), show 7 - (8 - 1 - j) = j by omega]

/-- A run of stream bits as the 32-bit result of a collect (43_read_path R118). -/
def State.collected (s : State) (p n : Nat) : Value := BitVec.ofNat 32 (s.streamValue p n)

theorem State.collected_toNat (s : State) (p n : Nat) (h : n ≤ 32) : (s.collected p n).toNat = s.streamValue p n :=
  (BitVec.toNat_ofNat _ _).trans
    (Nat.mod_eq_of_lt ((s.streamValue_lt p n).trans_le (Nat.pow_le_pow_right (by decide) h)))

/-- Two runs one behind the other are collected by shifting the first and joining the second (43_read_path R118, R120,
R121). -/
theorem State.collected_add (s : State) (p m n : Nat) :
    s.collected p (m + n) = (s.collected p m <<< n) ||| s.collected (p + m) n := by
  have hshift : BitVec.ofNat 32 (s.streamValue p m <<< n) = s.collected p m <<< n := by
    refine BitVec.eq_of_toNat_eq ?_
    rw [BitVec.toNat_shiftLeft, State.collected, BitVec.toNat_ofNat, BitVec.toNat_ofNat, Nat.shiftLeft_eq,
      Nat.shiftLeft_eq, Nat.mod_mul_mod]
  rw [← hshift, State.collected, State.collected, s.streamValue_add, ← Nat.shiftLeft_eq,
    Nat.shiftLeft_add_eq_or_of_lt (s.streamValue_lt (p + m) n), BitVec.ofNat_or]

theorem State.collected_byte (s : State) (a : Nat) :
    s.collected (8 * a) 8 = (Store.read s.store a).zeroExtend 32 := by
  rw [State.collected, s.streamValue_byte, BitVec.ofNat_toNat]

/-! ### `COLLECT` -/

/-- The state with its cursor at stream position `p` (10_state R35). -/
def State.cursorAt (s : State) (p : Nat) : State :=
  (s.setByteIndex (p / 8)).setBitOffset ⟨p % 8, by omega⟩

/-- A read frame that rests inside a byte is a move of the cursor. -/
theorem State.ReadFrame.eq_cursorAt {s t : State} (h : s.ReadFrame t) (hoff : t.bitOffset.val ≤ 7) :
    t = s.cursorAt t.pos := by
  obtain ⟨⟨hmode, hcap, hhost, hdin, hdef, hfree⟩, hrsp, hlen, hstore⟩ := h
  have hidx : t.pos / 8 = t.byteIndex := by unfold State.pos; omega
  have hbit : t.pos % 8 = t.bitOffset.val := by unfold State.pos; omega
  simp only [State.cursorAt, hidx, hbit]
  cases s
  cases t
  simp_all [State.setByteIndex, State.setBitOffset]

/-- The bit loop of `COLLECT` in closed form: the run of stream bits at the cursor, and the cursor behind it. -/
theorem collectBits_closedForm (n : Nat) (s : State) (h : s.ReadReady) (hn : n ≤ 32) (hrem : s.pos + n ≤ 8 * s.len) :
    collectBits n 0#32 s = some (s.collected s.pos n, s.cursorAt (s.pos + n)) := by
  obtain ⟨x, t, ht, hframe, ⟨⟨_, hoff, _⟩, _⟩, hpos, hbits⟩ := collectBits_spec n hn 0#32 s h hrem
  have hvalue : x = s.collected s.pos n := by
    refine BitVec.eq_of_getLsbD_eq fun i hi => ?_
    have hsum : s.streamValue s.pos n = x.toNat % 2 ^ n := by
      refine s.streamValue_eq_mod _ _ _ fun j hj => ?_
      rw [BitVec.testBit_toNat, hbits _ (by omega), show n - 1 - (n - 1 - j) = j by omega]
      simp [show n - 1 - j < n by omega]
    rw [State.collected, BitVec.getLsbD_ofNat, hsum, Nat.testBit_mod_two_pow, BitVec.testBit_toNat, hbits i hi]
    simp [hi]
  rw [ht, hvalue, ← hpos, ← hframe.eq_cursorAt hoff]

theorem readerChecks_collect (n : BitVec 8) (s : State) (hp : s.poisoned = false) (hm : s.mode = .reader)
    (h1 : 1 ≤ n.toNat) (h32 : n.toNat ≤ 32) : ReaderChecks (.collect n) s :=
  ⟨rfl, hp, hm, congrArg Bool.not ((numBitsValid_iff _).mpr ⟨h1, h32⟩)⟩

theorem firstStatus_collect_eq_ok_iff (n : BitVec 8) (s : State) : firstStatus (.collect n) s = .ok ↔
    1 ≤ n.toNat ∧ n.toNat ≤ 32 ∧ s.mode = .reader ∧ s.pos + n.toNat ≤ 8 * s.len := by
  rw [firstStatus_eq_ok_iff, capacityCond_of_no_growth _ s rfl, wrongModeCond, invalidParameterCond, Bool.not_eq_false',
    Bool.not_eq_false', numBitsValid_iff, overrunCond, decide_eq_false_iff_not]
  simp [Instr.mnemonic, Mnemonic.capClass, classAdmits_reader_iff, alignmentCond, and_assoc]

theorem exec_collect (n : BitVec 8) (s : State) (h : s.ReadReady) (hp : s.poisoned = false) (hm : s.mode = .reader)
    (h1 : 1 ≤ n.toNat) (h32 : n.toNat ≤ 32) (hrem : s.pos + n.toNat ≤ 8 * s.len) :
    exec (.collect n) s =
      .next ((s.cursorAt (s.pos + n.toNat)).setRsp (Response.okay (s.collected s.pos n.toNat) [])) := by
  refine (readerChecks_collect n s hp hm h1 h32).completes rfl (decide_eq_false (by omega)) rfl ?_
  rw [commandBody, numBitsOperand, collectBits_closedForm n.toNat s h h32 hrem]
  rfl

theorem exec_collect_of_bad_numBits (n : BitVec 8) (s : State) (hp : s.poisoned = false)
    (hn : n.toNat = 0 ∨ 33 ≤ n.toNat) : FaultsWith (exec (.collect n) s) .invalidParameter s := by
  refine exec_of_invalidParameter hp nofun (congrArg Bool.not (Bool.eq_false_of_not_eq_true fun hgood => ?_))
  obtain ⟨h1, h32⟩ := (numBitsValid_iff _).mp hgood
  omega

theorem exec_collect_of_wrong_mode (n : BitVec 8) (s : State) (hp : s.poisoned = false) (h1 : 1 ≤ n.toNat)
    (h32 : n.toNat ≤ 32) (hm : s.mode ≠ .reader) : FaultsWith (exec (.collect n) s) .wrongMode s :=
  exec_of_wrongMode hp nofun (congrArg Bool.not ((numBitsValid_iff _).mpr ⟨h1, h32⟩))
    (congrArg Bool.not (Bool.eq_false_of_not_eq_true (mt (classAdmits_reader_iff _).mp hm)))

theorem exec_collect_overrun (n : BitVec 8) (s : State) (hp : s.poisoned = false) (hm : s.mode = .reader)
    (h1 : 1 ≤ n.toNat) (h32 : n.toNat ≤ 32) (hrem : 8 * s.len < s.pos + n.toNat) :
    FaultsWith (exec (.collect n) s) .overrun s :=
  (readerChecks_collect n s hp hm h1 h32).overruns rfl (decide_eq_true hrem)

theorem State.cursorAt_pos (s : State) (p : Nat) : (s.cursorAt p).pos = p := Nat.div_add_mod p 8

/-- Every position up to the end is one a reader can rest at (10_state R33). -/
theorem State.ReadReady.cursorAt {s : State} (h : s.ReadReady) {p : Nat} (hp : p ≤ 8 * s.len) :
    (s.cursorAt p).ReadReady := by
  obtain ⟨_, hc⟩ := h
  have hval : (s.cursorAt p).bitOffset.val = p % 8 := rfl
  have hidx : (s.cursorAt p).byteIndex = p / 8 := rfl
  have hlen : (s.cursorAt p).len = s.len := rfl
  refine ⟨⟨?_, ?_, fun hne => ?_⟩, hc⟩ <;> omega

/-- Two consecutive collects leave what one collect of both counts leaves, with the joined result (43_read_path R118). -/
theorem exec_collect_join {n1 n2 : BitVec 8} {s t u : State} {r1 r2 : Value} (h : s.ReadReady)
    (hp : s.poisoned = false) (hm : s.mode = .reader) (h1 : 1 ≤ n1.toNat) (h2 : 1 ≤ n2.toNat)
    (h32 : n1.toNat + n2.toNat ≤ 32) (hrem : s.pos + n1.toNat + n2.toNat ≤ 8 * s.len)
    (ht : exec (.collect n1) s = .next t) (htr : t.rsp = some (Response.okay r1 []))
    (hu : exec (.collect n2) t = .next u) (hur : u.rsp = some (Response.okay r2 [])) :
    exec (.collect (n1 + n2)) s = .next (u.setRsp (Response.okay ((r1 <<< n2.toNat) ||| r2) [])) := by
  have hadd : (n1 + n2).toNat = n1.toNat + n2.toNat := BitVec.toNat_add_of_lt (by omega)
  have hpos : ∀ r, ((s.cursorAt (s.pos + n1.toNat)).setRsp r).pos = s.pos + n1.toNat := fun _ => s.cursorAt_pos _
  rw [exec_collect n1 s h hp hm h1 (by omega) (by omega)] at ht
  cases ht
  cases htr
  rw [exec_collect n2 ((s.cursorAt (s.pos + n1.toNat)).setRsp _) (h.cursorAt (p := s.pos + n1.toNat) (by omega)) hp hm h2
    (by omega) ((hpos _).symm ▸ hrem), hpos] at hu
  cases hu
  cases hur
  rw [exec_collect (n1 + n2) s h hp hm (by omega) (by omega) (by omega), hadd, s.collected_add, ← Nat.add_assoc]
  rfl

/-! ### The byte commands -/

/-- The commands that read whole bytes at the cursor, and how many they read (43_read_path R119 to R121). -/
inductive CollectsBytes : Instr → Nat → Prop where
  | byte : CollectsBytes .collectByte 1
  | word : CollectsBytes .collectWord 2
  | dword : CollectsBytes .collectDword 4

theorem CollectsBytes.checks {i : Instr} {k : Nat} (hi : CollectsBytes i k) {s : State} (hp : s.poisoned = false)
    (hm : s.mode = .reader) : ReaderChecks i s := by
  cases hi <;> exact ⟨rfl, hp, hm, rfl⟩

theorem CollectsBytes.alignmentCond_eq {i : Instr} {k : Nat} (hi : CollectsBytes i k) (s : State) :
    alignmentCond i s = !s.aligned08 := by
  cases hi <;> rfl

theorem CollectsBytes.overrunCond_eq {i : Instr} {k : Nat} (hi : CollectsBytes i k) (s : State) :
    overrunCond i s = decide (s.len < s.byteIndex + k) := by
  cases hi with
  | byte => exact decide_eq_decide.mpr Nat.lt_succ_iff.symm
  | word | dword => rfl

theorem aligned08_of_aligned {s : State} (h0 : s.bitOffset = 0) : s.aligned08 = true :=
  s.aligned08_iff.mpr (.inl (congrArg Fin.val h0))

theorem readWordAt_eq_collected (s : State) (a : Nat) (hc : capacityAdmits s.cap s.len = true) (h : a + 2 ≤ s.len) :
    readWordAt s a = some (s.collected (8 * a) 16) := by
  rw [readWordAt_of_lt s a hc h, s.collected_add (8 * a) 8 8, ← Nat.mul_succ, s.collected_byte, s.collected_byte]
  rfl

theorem readDwordAt_eq_collected (s : State) (a : Nat) (hc : capacityAdmits s.cap s.len = true) (h : a + 4 ≤ s.len) :
    readDwordAt s a = some (s.collected (8 * a) 32) := by
  rw [readDwordAt, readWordAt_eq_collected s a hc (by omega), Option.bind_some,
    readWordAt_eq_collected s (a + 2) hc (by omega), Option.map_some, s.collected_add (8 * a) 16 16, Nat.mul_add]
  rfl

/-- A byte command reads its bytes as `COLLECT` reads their bits (43_read_path R119 to R121). -/
theorem CollectsBytes.commandBody_eq {i : Instr} {k : Nat} (hi : CollectsBytes i k) {s : State}
    (hc : capacityAdmits s.cap s.len = true) (hend : s.byteIndex + k ≤ s.len) :
    commandBody i s = some (advance s k, s.collected (8 * s.byteIndex) (8 * k), []) := by
  cases hi with
  | byte =>
    rw [commandBody, memRead_of_lt s _ hc (by omega), Nat.mul_one, s.collected_byte]
    rfl
  | word =>
    rw [commandBody, readWordAt_eq_collected s _ hc hend]
    rfl
  | dword =>
    rw [commandBody, readDwordAt_eq_collected s _ hc hend]
    rfl

theorem CollectsBytes.exec_eq {i : Instr} {k : Nat} (hi : CollectsBytes i k) {s : State} (hp : s.poisoned = false)
    (hm : s.mode = .reader) (hc : capacityAdmits s.cap s.len = true) (h0 : s.bitOffset = 0)
    (hend : s.byteIndex + k ≤ s.len) :
    exec i s = .next ((advance s k).setRsp (Response.okay (s.collected (8 * s.byteIndex) (8 * k)) [])) := by
  refine (hi.checks hp hm).completes ?_ ?_ ?_ (hi.commandBody_eq hc hend)
  · rw [hi.alignmentCond_eq, aligned08_of_aligned h0]
    rfl
  · rw [hi.overrunCond_eq]
    exact decide_eq_false (by omega)
  · cases hi <;> rfl

/-- At a byte boundary with the bytes left a byte command answers their value, most significant byte first, and moves past
them (43_read_path R119 to R121). -/
theorem CollectsBytes.exec_completes {i : Instr} {k : Nat} (hi : CollectsBytes i k) {s : State} (h : s.ReadReady)
    (hp : s.poisoned = false) (hm : s.mode = .reader) (h0 : s.bitOffset = 0) (hend : s.byteIndex + k ≤ s.len) :
    ∃ t v, exec i s = .next t ∧ s.SameBeside t ∧ t.rsp = some (Response.okay v []) ∧
      v.toNat = s.streamValue (8 * s.byteIndex) (8 * k) ∧ t.len = s.len ∧ t.store = s.store ∧
      t.bitOffset = s.bitOffset ∧ t.byteIndex = s.byteIndex + k := by
  obtain ⟨_, hc⟩ := h
  have hk : k ≤ 4 := by cases hi <;> decide
  exact ⟨_, _, hi.exec_eq hp hm hc h0 hend, ⟨rfl, rfl, rfl, rfl, rfl, rfl⟩, rfl, s.collected_toNat _ _ (by omega), rfl, rfl,
    rfl, rfl⟩

/-- From the invariant a misaligned cursor is inside a byte, and the byte commands refuse it first (60_exceptions R133). -/
theorem CollectsBytes.exec_misaligned {i : Instr} {k : Nat} (hi : CollectsBytes i k) {s : State} (h : s.ReadReady)
    (hp : s.poisoned = false) (hm : s.mode = .reader) (h0 : s.bitOffset ≠ 0) :
    FaultsWith (exec i s) .alignmentViolation s := by
  refine (hi.checks hp hm).misaligned ?_
  obtain ⟨⟨_, hoff, _⟩, _⟩ := h
  have hne : s.bitOffset.val ≠ 0 := mt Fin.val_eq_zero_iff.mp h0
  rw [hi.alignmentCond_eq, Bool.not_eq_true', ← Bool.not_eq_true, s.aligned08_iff]
  omega

theorem CollectsBytes.exec_overrun {i : Instr} {k : Nat} (hi : CollectsBytes i k) {s : State} (hp : s.poisoned = false)
    (hm : s.mode = .reader) (h0 : s.bitOffset = 0) (hend : s.len < s.byteIndex + k) :
    FaultsWith (exec i s) .overrun s := by
  refine (hi.checks hp hm).overruns ?_ ?_
  · rw [hi.alignmentCond_eq, aligned08_of_aligned h0]
    rfl
  · rw [hi.overrunCond_eq]
    exact decide_eq_true hend

/-- A run of whole bytes is its first byte and the run behind it (20_memory R44). -/
theorem State.streamValue_bytes_succ (s : State) (a k : Nat) : s.streamValue (8 * a) (8 * (k + 1)) =
    (Store.read s.store a).toNat * 2 ^ (8 * k) + s.streamValue (8 * (a + 1)) (8 * k) := by
  rw [Nat.mul_succ 8 k, Nat.add_comm, s.streamValue_add, s.streamValue_byte, Nat.mul_succ]

/-! ### The round trip -/

/-- The committed content reaches to the cursor (40_construct_and_view R88). -/
theorem State.WriteReady.committedBytes_eq {s : State} (h : s.WriteReady) :
    ∃ m, s.committedBytes = s.bytesFrom 0 m ∧ s.pos ≤ 8 * m := by
  obtain ⟨hidx, hoff, hlen⟩ := h.cursor_eq
  unfold State.committedBytes
  by_cases h0 : s.bitOffset = 0
  · rw [h0, Fin.val_zero] at hoff
    exact ⟨_, if_pos h0, by omega⟩
  · exact ⟨_, if_neg h0, by omega⟩

/-- Either view of a writer answers the bytes of its store from index 0 on, at least up to its cursor. -/
theorem view_bytes {t q : State} {b : Response} (h : t.WriteReady) (hp : t.poisoned = false) (hm : t.mode = .writer)
    (hview : exec .buffer t = .next q ∨ exec .rawview t = .next q) (hb : q.rsp = some b) :
    ∃ m, b.dout = t.bytesFrom 0 m ∧ t.pos ≤ 8 * m := by
  have hlt := h.pos_lt
  have ⟨_, hc, _⟩ := h
  obtain hview | hview := hview
  · rw [exec_buffer t hp hm (by omega) hc] at hview
    cases hview
    cases hb
    exact h.committedBytes_eq
  · rw [exec_rawview t hp (by rw [hm]; decide) hc] at hview
    cases hview
    cases hb
    exact ⟨t.len, rfl, hlt.le⟩

theorem read_eq_of_bytesFrom_eq {s t : State} {m : Nat} (h : s.bytesFrom 0 m = t.bytesFrom 0 m) {a : Nat} (ha : a < m) :
    Store.read s.store a = Store.read t.store a := by
  have := List.map_inj_left.mp h a (List.mem_range.mpr ha)
  rwa [Nat.zero_add] at this

/-- A reader in a defined run at stream position `p`, over the bytes of `t` at least up to the cursor of `t`. -/
structure ReadsOver (r t : State) (p : Nat) : Prop where
  ready : r.ReadReady
  defined : r.poisoned = false
  reader : r.mode = .reader
  position : r.pos = p
  covers : t.pos ≤ 8 * r.len
  sameBytes : ∀ a < r.len, Store.read r.store a = Store.read t.store a

theorem ReadsOver.of_view {r t q : State} {b : Response} {p : Nat} (ht : t.WriteReady) (htp : t.poisoned = false)
    (htm : t.mode = .writer) (hview : exec .buffer t = .next q ∨ exec .rawview t = .next q) (hb : q.rsp = some b)
    (hr : r.Inv) (hrp : r.poisoned = false) (hrm : r.mode = .reader) (hlen : r.len = b.dout.length)
    (hbytes : r.bytesFrom 0 r.len = b.dout) (hpos : r.pos = p) : ReadsOver r t p := by
  obtain ⟨m, hdout, hcovers⟩ := view_bytes ht htp htm hview hb
  rw [hdout, State.bytesFrom_length] at hlen
  subst hlen
  exact ⟨hr.readReady hrp hrm, hrp, hrm, hpos, hcovers, fun a ha => read_eq_of_bytesFrom_eq (hbytes.trans hdout) ha⟩

theorem ReadsOver.streamBit_eq {r t : State} {p k : Nat} (h : ReadsOver r t p) (hk : k < t.pos) :
    r.streamBit k = t.streamBit k := by
  have hcovers := h.covers
  rw [State.streamBit, State.streamBit, h.sameBytes (k / 8) (by omega)]

/-- What `EMIT` packed at `p` is the value of the run of stream bits there (42_write_path R105, 43_read_path R122). -/
theorem ReadsOver.streamValue_emit {r s t : State} {n : BitVec 8} {v : BitVec 32} (h : ReadsOver r t s.pos)
    (hs : s.WriteReady) (hchecks : WriterChecks (.emit n v) s) (hrun : exec (.emit n v) s = .next t)
    (hrsp : t.rsp = some (Response.okay 0#32 [])) :
    s.pos + n.toNat ≤ 8 * r.len ∧ r.streamValue s.pos n.toNat = v.toNat % 2 ^ n.toNat := by
  obtain ⟨hroom, u, hu, rfl⟩ := exec_emit_completed hchecks hrun hrsp
  obtain ⟨u', hu', _, _, hpos, hbits⟩ := emitBits_spec v n.toNat s hs hroom
  obtain rfl := Option.mem_unique hu hu'
  have hend : (u.setRsp (Response.okay 0#32 [])).pos = s.pos + n.toNat := hpos
  refine ⟨hend ▸ h.covers, r.streamValue_eq_mod _ _ _ fun j hj => ?_⟩
  rw [h.streamBit_eq (by omega), BitVec.testBit_toNat]
  refine (hbits (s.pos + j)).trans ?_
  rw [if_pos (by omega), Nat.add_sub_cancel_left]

/-- A writer command that has answered `OK` leaves a writer in a defined run. -/
theorem WriterChecks.leaves_writer {i : Instr} {s t : State} {v : Value} {d : List Byte} (h : WriterChecks i s)
    (hinv : s.Inv) (hrun : exec i s = .next t) (hrsp : t.rsp = some (Response.okay v d)) :
    t.Inv ∧ t.poisoned = false ∧ t.mode = .writer := by
  have htinv := exec_inv i s t hinv hrun
  obtain ⟨_, u, x, e, hbody, rfl⟩ := h.of_completed hrun hrsp
  obtain ⟨⟨hmode, _, _, _, hdef, _⟩, _⟩ := commandBody_writeFrame i s u x e h.capClass hbody
  exact ⟨htinv, hdef.trans h.defined, hmode.trans h.writer⟩

/-- An `EMIT` that has answered `OK` had passed its checks. -/
theorem writerChecks_of_emit_answer {n : BitVec 8} {v : BitVec 32} {s t : State} (hp : s.poisoned = false)
    (hm : s.mode = .writer) (hrun : exec (.emit n v) s = .next t) (hrsp : t.rsp = some (Response.okay 0#32 [])) :
    WriterChecks (.emit n v) s := by
  obtain ⟨hbits, _⟩ := (firstStatus_eq_ok_iff _ s).mp (firstStatus_ok_of_answer hp rfl hrun hrsp rfl)
  exact ⟨rfl, hp, hm, hbits, rfl, nofun⟩

/-- `COLLECT` returns the low bits that `EMIT` packed (43_read_path R122). -/
theorem ReadsOver.collect_of_emit {r s t : State} {n : BitVec 8} {v : BitVec 32} (h : ReadsOver r t s.pos)
    (hs : s.WriteReady) (hchecks : WriterChecks (.emit n v) s) (hrun : exec (.emit n v) s = .next t)
    (hrsp : t.rsp = some (Response.okay 0#32 [])) :
    ∃ u y, exec (.collect n) r = .next u ∧ u.rsp = some (Response.okay y []) ∧ y.toNat = v.toNat % 2 ^ n.toNat := by
  obtain ⟨hend, hvalue⟩ := h.streamValue_emit hs hchecks hrun hrsp
  have hpos := h.position
  obtain ⟨h1, h32⟩ := (numBitsValid_iff n.toNat).mp (by simpa [invalidParameterCond] using hchecks.numBits)
  refine ⟨_, _, exec_collect n r h.ready h.defined h.reader h1 h32 (by omega), rfl, ?_⟩
  rw [r.collected_toNat _ _ h32, hpos, hvalue]

/-- At a byte boundary a byte command of the read path returns what its counterpart of the write path packed, since both
move whole bytes as `COLLECT` and `EMIT` move their bits (42_write_path R109 (a), 43_read_path R122). -/
theorem ReadsOver.collectBytes_of_emitBytes {r s t : State} {i j : Instr} {v : Value} {k : Nat} (h : ReadsOver r t s.pos)
    (hi : EmitsBytes i (lowBytes v k)) (hj : CollectsBytes j k) (hs : s.WriteReady) (hp : s.poisoned = false)
    (hm : s.mode = .writer) (h0 : s.bitOffset = 0) (hrun : exec i s = .next t)
    (hrsp : t.rsp = some (Response.okay 0#32 [])) :
    ∃ u y, exec j r = .next u ∧ u.rsp = some (Response.okay y []) ∧ y.toNat = v.toNat % 2 ^ (8 * k) := by
  have hk : k ≤ 4 := by cases hj <;> decide
  have hwidth : (BitVec.ofNat 8 (8 * k)).toNat = 8 * k :=
    (BitVec.toNat_ofNat _ _).trans (Nat.mod_eq_of_lt (by omega))
  rw [hi.exec_eq_emit hs hp hm h0 hwidth hk] at hrun
  obtain ⟨hend, hvalue⟩ := h.streamValue_emit hs (writerChecks_of_emit_answer hp hm hrun hrsp) hrun hrsp
  obtain ⟨⟨_, hoff, _⟩, hc⟩ := h.ready
  have hpos := h.position
  have hstart : s.bitOffset.val = 0 := congrArg Fin.val h0
  have hidx : s.pos = 8 * r.byteIndex ∧ r.bitOffset.val = 0 := by
    unfold State.pos at hpos ⊢
    omega
  obtain ⟨hidx, hroff⟩ := hidx
  rw [hwidth, hidx] at hend hvalue
  refine ⟨_, _, hj.exec_eq h.defined h.reader hc (Fin.ext hroff) (by omega), rfl, ?_⟩
  rw [r.collected_toNat _ _ (by omega), hvalue]

/-- A narrower operand is the low bits of its zero extension. -/
theorem zeroExtend_toNat_mod {n : Nat} (v : BitVec n) (h : n ≤ 32) : (v.zeroExtend 32).toNat % 2 ^ n = v.toNat := by
  rw [BitVec.zeroExtend, BitVec.toNat_setWidth, Nat.mod_mod_of_dvd _ (Nat.pow_dvd_pow 2 h), Nat.mod_eq_of_lt v.isLt]

/-! ### The obligations of 43_read_path -/

/-- Settles O46: inside the store the bytes at the cursor are readable; misaligned the alignment check faults first. -/
theorem rawExtractsReturnTheNextBytes : Obligations.RawExtractsReturnTheNextBytes := by
  unfold Obligations.RawExtractsReturnTheNextBytes
  intro k s
  refine ⟨fun h hp hm h0 hend => ?_, fun hp hm h0 => ?_, exec_deconcat_eq_deappend k s⟩
  · have ⟨_, hc, _⟩ := h
    have hrun := exec_deappend k s hp hm hc h0 hend
    exact ⟨_, hrun, hrun, ⟨rfl, rfl, rfl, rfl, rfl, rfl⟩, rfl, rfl, rfl, h0, rfl⟩
  · have hfault := exec_deappend_misaligned k s hp hm h0
    exact ⟨hfault, hfault⟩

/-- Settles O47: the undefined case marks the run and writes the cursor and the response only. -/
theorem rawExtractPastTheEndMarksTheRun : Obligations.RawExtractPastTheEndMarksTheRun := by
  unfold Obligations.RawExtractPastTheEndMarksTheRun
  intro k s hp hm h0 hend
  have hrun := exec_deappend_past_end k s hp hm h0 hend
  exact ⟨_, hrun, hrun, rfl, rfl, rfl, rfl, rfl, rfl, rfl⟩

/-- Settles O49: `COLLECT` answers `OK` exactly where no check of its own faults; the closed form of its loop gives the
sum, and two runs of stream bits one behind the other join. -/
theorem collectReadsTheNextBitsMsbFirst : Obligations.CollectReadsTheNextBitsMsbFirst := by
  unfold Obligations.CollectReadsTheNextBitsMsbFirst
  refine ⟨fun n s h hp => ?_, fun n s h hp hm h1 h32 hrem => ?_,
    fun n1 n2 s t u r1 r2 h hp hm h1 h2 h32 hrem ht htr hu hur => ?_⟩
  · rw [← firstStatus_collect_eq_ok_iff]
    refine ⟨fun ⟨t, r, hrun, hr, hok⟩ => firstStatus_ok_of_answer hp rfl hrun hr hok, fun hok => ?_⟩
    obtain ⟨t, v, d, hrun, hr, _⟩ := exec_completes (.collect n) s h hp nofun hok rfl
    exact ⟨t, _, hrun, hr, rfl⟩
  · exact ⟨_, _, exec_collect n s (h.readReady hp hm) hp hm h1 h32 hrem, ⟨rfl, rfl, rfl, rfl, rfl, rfl⟩, rfl,
      s.collected_toNat _ _ h32, s.cursorAt_pos _, rfl, rfl, rfl, rfl⟩
  · exact exec_collect_join (h.readReady hp hm) hp hm h1 h2 h32 hrem ht htr hu hur

/-- Settles O50: the checks of `COLLECT` in the order of 60_exceptions R140. -/
theorem collectFaultsBeforeAnyRead : Obligations.CollectFaultsBeforeAnyRead := by
  unfold Obligations.CollectFaultsBeforeAnyRead
  intro n s hp
  exact ⟨exec_collect_of_bad_numBits n s hp, exec_collect_of_wrong_mode n s hp,
    fun h1 h32 hm hrem => exec_collect_overrun n s hp hm h1 h32 hrem⟩

/-- Settles O51: the byte command that reads one byte. -/
theorem collectByteReturnsTheByte : Obligations.CollectByteReturnsTheByte := by
  unfold Obligations.CollectByteReturnsTheByte
  intro s h hp hm
  have hready := h.readReady hp hm
  refine ⟨fun h0 hend => ?_, CollectsBytes.byte.exec_misaligned hready hp hm,
    fun h0 hend => CollectsBytes.byte.exec_overrun hp hm h0 (Nat.lt_succ_of_le hend)⟩
  obtain ⟨t, v, hrun, hsame, hrsp, hvalue, hframe⟩ := CollectsBytes.byte.exec_completes hready hp hm h0 hend
  rw [Nat.mul_one, s.streamValue_byte] at hvalue
  exact ⟨t, v, hrun, hsame, hrsp, hvalue, hframe⟩

/-- Settles O52: the byte command that reads two bytes, one behind the other. -/
theorem collectWordIsBigEndianOrNothing : Obligations.CollectWordIsBigEndianOrNothing := by
  unfold Obligations.CollectWordIsBigEndianOrNothing
  intro s h hp hm
  have hready := h.readReady hp hm
  refine ⟨fun h0 hend => ?_, CollectsBytes.word.exec_misaligned hready hp hm,
    CollectsBytes.word.exec_overrun hp hm⟩
  obtain ⟨t, v, hrun, hsame, hrsp, hvalue, hframe⟩ := CollectsBytes.word.exec_completes hready hp hm h0 hend
  rw [s.streamValue_bytes_succ, Nat.mul_one, s.streamValue_byte] at hvalue
  exact ⟨t, v, hrun, hsame, hrsp, hvalue, hframe⟩

/-- Settles O53: the byte command that reads four bytes, one behind the other. -/
theorem collectDwordIsBigEndianOrNothing : Obligations.CollectDwordIsBigEndianOrNothing := by
  unfold Obligations.CollectDwordIsBigEndianOrNothing
  intro s h hp hm
  have hready := h.readReady hp hm
  refine ⟨fun h0 hend => ?_, CollectsBytes.dword.exec_misaligned hready hp hm,
    CollectsBytes.dword.exec_overrun hp hm⟩
  obtain ⟨t, v, hrun, hsame, hrsp, hvalue, hframe⟩ := CollectsBytes.dword.exec_completes hready hp hm h0 hend
  rw [s.streamValue_bytes_succ, s.streamValue_bytes_succ, s.streamValue_bytes_succ, Nat.mul_one, s.streamValue_byte,
    ← Nat.add_assoc, ← Nat.add_assoc] at hvalue
  exact ⟨t, v, hrun, hsame, hrsp, hvalue, hframe⟩

/-- Settles O54: either view hands the reader the bytes up to the writer's cursor, where a collect of as many bits finds
the value that the emit packed. -/
theorem roundTripThroughEitherView : Obligations.RoundTripThroughEitherView := by
  unfold Obligations.RoundTripThroughEitherView
  intro s t q r x b h hp hm hrun hrsp hview hb hr hrp hrm hlen hbytes hpos
  have hs := h.writeReady hp hm
  have hover : WriterChecks x s → ReadsOver r t s.pos := fun hchecks => by
    obtain ⟨htinv, htp, htm⟩ := hchecks.leaves_writer h hrun hrsp
    exact .of_view (htinv.writeReady htp htm) htp htm hview hb hr hrp hrm hlen hbytes hpos
  have hpack : ∀ {v j k}, CollectsBytes j k → EmitsBytes x (lowBytes v k) → s.bitOffset = 0 →
      ∃ u y, exec j r = .next u ∧ u.rsp = some (Response.okay y []) ∧ y.toNat = v.toNat % 2 ^ (8 * k) :=
    fun hj hi h0 => (hover (hi.checks hp hm)).collectBytes_of_emitBytes hi hj hs hp hm h0 hrun hrsp
  refine ⟨fun n v hx => ?_, fun v hx h0 => ?_, fun v hx h0 => ?_, fun v hx h0 => ?_⟩ <;> subst hx
  · have hchecks := writerChecks_of_emit_answer hp hm hrun hrsp
    exact (hover hchecks).collect_of_emit hs hchecks hrun hrsp
  · obtain ⟨u, y, hu, hy, hv⟩ := hpack (v := v.zeroExtend 32) .byte (singleton_eq_lowBytes v ▸ EmitsBytes.byte v) h0
    exact ⟨u, y, hu, hy, hv.trans (zeroExtend_toNat_mod v (by decide))⟩
  · obtain ⟨u, y, hu, hy, hv⟩ := hpack (v := v.zeroExtend 32) .word (wordBytes_eq_lowBytes v ▸ EmitsBytes.word v) h0
    exact ⟨u, y, hu, hy, hv.trans (zeroExtend_toNat_mod v (by decide))⟩
  · obtain ⟨u, y, hu, hy, hv⟩ := hpack (v := v) .dword (dwordBytes_eq_lowBytes v ▸ EmitsBytes.dword v) h0
    exact ⟨u, y, hu, hy, hv.trans (Nat.mod_eq_of_lt v.isLt)⟩

end Sys2Proof.Machine
end

section
/-! PROOFS. Exceptions (60_exceptions): which condition each reported status stands for, that a fault writes the response
only, and that no command reads the response, so that the next one runs as if the faulting one had never been issued. -/

namespace Sys2Proof.Machine

/-! ### The condition behind a reported status -/

/-- The condition that a reported status stands for (60_exceptions R132 to R138). `OK` asks for none here, and
`ILLEGAL_COMMAND` belongs to a word that is no command. -/
def StatusCond (i : Instr) (s : State) : Status → Prop
  | .ok => True
  | .invalidParameter => invalidParameterCond i = true
  | .wrongMode => wrongModeCond i s = true
  | .alignmentViolation => alignmentCond i s = true
  | .overrun => overrunCond i s = true
  | .capacityExceeded => capacityCond i s = true
  | .illegalCommand => False

theorem statusCond_firstStatus (i : Instr) (s : State) : StatusCond i s (firstStatus i s) := by
  unfold firstStatus
  split_ifs with hbits hmode halign hover hcap
  · exact hbits
  · exact hmode
  · exact halign
  · exact hover
  · exact hcap
  · trivial

/-- In a run that is defined afterwards a command reports only a status whose condition holds. -/
theorem statusCond_of_report {i : Instr} {s t : State} {r : Response} {st : Status} (h : exec i s = .next t)
    (ht : t.poisoned = false) (hr : t.rsp = some r) (hst : r.status = st) : StatusCond i s st := by
  rw [← hst, exec_status i s t r h ht hr]
  exact statusCond_firstStatus i s

theorem numBitsValid_eq_false_iff (n : Nat) : numBitsValid n = false ↔ n = 0 ∨ 33 ≤ n := by
  rw [← Bool.not_eq_true, numBitsValid_iff]
  omega

/-- Only `EMIT` and `COLLECT` have a bit count to check (60_exceptions R132). -/
theorem badBitCount_of_invalidParameterCond {i : Instr} (h : invalidParameterCond i = true) :
    ∃ (n : BitVec 8) (v : BitVec 32), (i = .emit n v ∨ i = .collect n) ∧ (n.toNat = 0 ∨ 33 ≤ n.toNat) := by
  cases i with
  | emit n v => exact ⟨n, v, .inl rfl, (numBitsValid_eq_false_iff _).mp ((Bool.not_eq_true' _).mp h)⟩
  | collect n => exact ⟨n, 0#32, .inr rfl, (numBitsValid_eq_false_iff _).mp ((Bool.not_eq_true' _).mp h)⟩
  | _ => exact nomatch h

/-- Which `MODE` each class is refused in; class `any` in none (60_exceptions R137, R152). -/
theorem classAdmits_eq_false_iff (c : CapClass) (m : Mode) : classAdmits c m = false ↔
    (c = .writer ∧ m ≠ .writer) ∨ (c = .reader ∧ m ≠ .reader) ∨ (c = .both ∧ m = .idle) := by
  rw [← Bool.not_eq_true]
  cases c with
  | any => simp [classAdmits]
  | writer => simp [classAdmits_writer_iff]
  | reader => simp [classAdmits_reader_iff]
  | both => simp [classAdmits_both_iff]

theorem wrongModeCond_iff (i : Instr) (s : State) : wrongModeCond i s = true ↔
    (i.mnemonic.capClass = .writer ∧ s.mode ≠ .writer) ∨ (i.mnemonic.capClass = .reader ∧ s.mode ≠ .reader) ∨
      (i.mnemonic.capClass = .both ∧ s.mode = .idle) := by
  rw [wrongModeCond, Bool.not_eq_true', classAdmits_eq_false_iff]

/-- The listed commands, each with its own test of the bit offset (60_exceptions R133). -/
theorem misaligned_of_alignmentCond {i : Instr} {s : State} (h : alignmentCond i s = true) :
    (i ∈ [Instr.collectByte, .collectWord, .collectDword] ∧ s.bitOffset.val ≠ 0 ∧ s.bitOffset.val ≠ 8) ∨
    ((∃ k, i = .deconcat k ∨ i = .deappend k ∨ i = .appendBytes k) ∧ s.bitOffset.val ≠ 0) := by
  cases i with
  | collectByte | collectWord | collectDword => exact .inl ⟨by simp, by simpa [alignmentCond] using h⟩
  | deconcat k | deappend k | appendBytes k => exact .inr ⟨⟨k, by simp⟩, by simpa [alignmentCond] using h⟩
  | _ => exact nomatch h

/-- The four checked reads, each with its own threshold (60_exceptions R134). -/
theorem checkedRead_of_overrunCond {i : Instr} {s : State} (h : overrunCond i s = true) :
    (i = .collectByte ∧ s.len ≤ s.byteIndex) ∨ (i = .collectWord ∧ s.len < s.byteIndex + 2) ∨
    (i = .collectDword ∧ s.len < s.byteIndex + 4) ∨ (∃ n, i = .collect n ∧ 8 * s.len < s.pos + n.toNat) := by
  cases i with
  | collectByte => exact .inl ⟨rfl, of_decide_eq_true h⟩
  | collectWord => exact .inr (.inl ⟨rfl, of_decide_eq_true h⟩)
  | collectDword => exact .inr (.inr (.inl ⟨rfl, of_decide_eq_true h⟩))
  | collect n => exact .inr (.inr (.inr ⟨n, rfl, of_decide_eq_true h⟩))
  | _ => exact nomatch h

/-- Only these commands ever ask the store for room (20_memory R52, 60_exceptions R138). -/
theorem growing_of_capacityCond {i : Instr} {s : State} (h : capacityCond i s = true) :
    (∃ k, i = .createReader k ∨ i = .appendBytes k) ∨ i = .alignW ∨ (∃ n v, i = .emit n v) ∨
      (∃ v, i = .emitByte v) ∨ (∃ v, i = .emitWord v) ∨ (∃ v, i = .emitDword v) := by
  have hgrows : neededLen i s ≠ 0 := fun h0 => by simp [capacityCond_of_no_growth i s h0] at h
  cases i with
  | createReader k | appendBytes k | alignW | emit n v | emitByte v | emitWord v | emitDword v => simp
  | _ => exact absurd rfl hgrows

/-- A checked read asks for no room, so its overrun meets no capacity check (60_exceptions R140). -/
theorem capacityCond_of_overrunCond {i : Instr} {s : State} (h : overrunCond i s = true) : capacityCond i s = false := by
  refine capacityCond_of_no_growth i s ?_
  obtain ⟨rfl, _⟩ | ⟨rfl, _⟩ | ⟨rfl, _⟩ | ⟨n, rfl, _⟩ := checkedRead_of_overrunCond h <;> rfl

/-! ### A fault writes the response only -/

/-- A command that reports a fault left everything but the response, which is the fault's (60_exceptions R141). -/
theorem exec_eq_setRsp_of_fault {i : Instr} {s t : State} {r : Response} (h : exec i s = .next t)
    (ht : t.poisoned = false) (hr : t.rsp = some r) (hst : r.status ≠ .ok) :
    s.poisoned = false ∧ r = faultResponse r.status s ∧ t = s.setRsp r := by
  obtain ⟨rfl, _⟩ | ⟨_, _, _, _, _, rfl⟩ | ⟨hp, _, rfl⟩ := exec_cases i s t h
  · exact nomatch ht
  · obtain rfl := Option.some.inj hr
    exact absurd rfl hst
  · obtain rfl := Option.some.inj hr
    exact ⟨hp, rfl, rfl⟩

theorem Response.WellFormedIn.of_ok {r : Response} {s : State} (h : r.WellFormedIn s) (hst : r.status = .ok) :
    r.diagLen = 0#32 ∧ r.diagByteIndex = 0#32 ∧ r.diagBitOffset = 0#4 := by
  rw [Response.WellFormedIn, if_pos hst] at h
  obtain ⟨_, hdiag⟩ := h
  exact hdiag

theorem Response.WellFormedIn.of_fault {r : Response} {s : State} (h : r.WellFormedIn s) (hst : r.status ≠ .ok) :
    r.result = 0#32 ∧ r.dout = [] ∧ (s.len < 2 ^ 32 → r.diagLen.toNat = s.len) ∧
      (s.byteIndex < 2 ^ 32 → r.diagByteIndex.toNat = s.byteIndex) ∧ r.diagBitOffset.toNat = s.bitOffset.val := by
  rwa [Response.WellFormedIn, if_neg hst] at h

/-- With every register at 0, as in `IDLE`, a fault's diagnostic triple is zero (10_state R36, 60_exceptions R142). -/
theorem faultResponse_diag_of_idle (st : Status) {s : State} (h : s.IdleInv) :
    (faultResponse st s).diagLen = 0#32 ∧ (faultResponse st s).diagByteIndex = 0#32 ∧
      (faultResponse st s).diagBitOffset = 0#4 := by
  obtain ⟨hlen, hidx, hoff⟩ := h
  rw [faultResponse, hlen, hidx, hoff]
  exact ⟨rfl, rfl, rfl⟩

theorem rejectWord_eq_setRsp_of_defined {s t : State} {r : Response} (h : rejectWord s = .next t)
    (ht : t.poisoned = false) (hr : t.rsp = some r) : r = faultResponse r.status s ∧ t = s.setRsp r := by
  obtain ⟨_, rfl⟩ | ⟨_, rfl⟩ := (rejectWord_eq_next s t).mp h
  · exact nomatch ht
  · obtain rfl := Option.some.inj hr
    exact ⟨rfl, rfl⟩

/-- A step at a command that reports a fault only takes the event and writes the fault's response (60_exceptions R141,
R143). -/
theorem step_eq_setRsp_of_fault {s t : State} {c : Command} {rest : List HostEvent} {r : Response}
    (hhost : s.host = .command c :: rest) (h : step s = .next t) (ht : t.poisoned = false) (hr : t.rsp = some r)
    (hst : r.status ≠ .ok) :
    r = faultResponse r.status (s.accept c.payload rest) ∧ t = (s.accept c.payload rest).setRsp r := by
  obtain ⟨hhost', _⟩ | ⟨_, _, hhost', _⟩ | ⟨_, _, _, hhost', _, hrej⟩ | ⟨_, _, i, hhost', _, _, hrun⟩ := step_cases s t h
    <;> rw [hhost] at hhost' <;> cases hhost'
  · exact rejectWord_eq_setRsp_of_defined hrej ht hr
  · obtain ⟨_, hfault⟩ := exec_eq_setRsp_of_fault hrun ht hr hst
    exact hfault

/-! ### No command reads the response -/

theorem memWriteRun_setRsp (s : State) (r : Response) (a : Nat) (bs : List Byte) :
    memWriteRun (s.setRsp r) a bs = (memWriteRun s a bs).map fun t => t.setRsp r := by
  induction bs generalizing s a with
  | nil => rfl
  | cons b bs ih => simp only [memWriteRun, memWrite_setRsp, Option.bind_map, Option.map_bind, Function.comp_def, ih]

theorem createWriterBody_setRsp (s : State) (r : Response) :
    createWriterBody (s.setRsp r) = (createWriterBody s).map fun t => t.setRsp r := by
  have hwrite := memWrite_setRsp ((s.setMode .writer).setLen 1) r 0 0x00#8
  rw [createWriterBody, createWriterBody, Option.map_map]
  exact (congrArg _ hwrite).trans (Option.map_map _ _ _)

theorem createReaderBody_setRsp (k : BitVec 32) (bs : List Byte) (s : State) (r : Response) :
    createReaderBody k bs (s.setRsp r) = (createReaderBody k bs s).map fun t => t.setRsp r := by
  have hwrite := memWriteRun_setRsp ((s.setMode .reader).setLen (countOperand k)) r 0 bs
  rw [createReaderBody, createReaderBody, Option.map_map]
  exact (congrArg _ hwrite).trans (Option.map_map _ _ _)

theorem appendBody_setRsp (bs : List Byte) (s : State) (r : Response) :
    appendBody bs (s.setRsp r) = (appendBody bs s).map fun t => t.setRsp r := by
  have hgrown : ∀ a, memWriteRun ((s.setRsp r).setLen (s.len + bs.length)) a bs =
      (memWriteRun (s.setLen (s.len + bs.length)) a bs).map fun t => t.setRsp r :=
    fun a => memWriteRun_setRsp (s.setLen (s.len + bs.length)) r a bs
  have hlast : lastIndex (s.setRsp r) = lastIndex s := rfl
  simp only [appendBody, hlast, State.setRsp_len, hgrown, memWrite_setRsp, Option.bind_map, Option.map_bind,
    Option.map_map, Function.comp_def]
  rfl

theorem alignWriteBody_setRsp (s : State) (r : Response) :
    alignWriteBody (s.setRsp r) = (alignWriteBody s).map fun t => t.setRsp r :=
  memWrite_setRsp ((advance (s.setBitOffset 0) 1).setLen (s.len + 1)) r s.len 0x00#8

/-- The end of a command replaces the response that stood. -/
theorem finish_unitResult_setRsp (o : Option State) (r : Response) :
    finish (unitResult (o.map fun t => t.setRsp r)) = finish (unitResult o) := by
  cases o <;> rfl

/-- States that agree on the valid bytes and have the same store differ in the response only. -/
theorem State.ValidAgree.setRsp_eq {s s' : State} (h : s.ValidAgree s') (hstore : s'.store = s.store) (r : Response) :
    s'.setRsp r = s.setRsp r := by
  obtain ⟨m, _, rfl, _⟩ := h
  obtain rfl : m = s.store := hstore
  rfl

/-- Bodies that write no store and agree whatever the response was end in the same state. -/
theorem finish_eq_of_agree {i : Instr} {s : State} {r : Response}
    (hagree : Option.Rel BodyAgree (commandBody i s) (commandBody i (s.setRsp r)))
    (hstore : ∀ s u v d, commandBody i s = some (u, v, d) → u.store = s.store) :
    finish (commandBody i (s.setRsp r)) = finish (commandBody i s) := by
  generalize hb : commandBody i s = o, hb' : commandBody i (s.setRsp r) = o' at hagree
  cases hagree with
  | none => rfl
  | @some x x' hx =>
    obtain ⟨u, v, d⟩ := x
    obtain ⟨u', _⟩ := x'
    obtain ⟨rfl, hu⟩ := hx
    have hsame : u'.store = u.store := (hstore _ _ _ _ hb').trans (hstore _ _ _ _ hb).symm
    exact congrArg Host.Outcome.next (hu.setRsp_eq hsame _)

theorem finish_commandBody_setRsp_of_readOut {i : Instr} (hi : IsReadOut i) (s : State) (r : Response) :
    finish (commandBody i (s.setRsp r)) = finish (commandBody i s) :=
  finish_eq_of_agree (commandBody_agree_of_readOut (s.validAgree_setRsp r) i hi)
    fun s u v d h => congrArg State.store (commandBody_readOut_state i s u v d hi h)

theorem finish_commandBody_setRsp_of_reader {i : Instr} (hi : i.mnemonic.capClass = .reader) (s : State)
    (r : Response) : finish (commandBody i (s.setRsp r)) = finish (commandBody i s) := by
  refine finish_eq_of_agree (commandBody_agree_of_reader (s.validAgree_setRsp r) i hi) fun s u v d h => ?_
  obtain ⟨_, _, _, hstore⟩ := commandBody_readFrame i s u v d hi h
  exact hstore

/-- A body that writes the store, or replaces it, carries the response along until its end. -/
theorem finish_commandBody_setRsp_of_unit {i : Instr} {s : State} {r : Response} {o : Option State}
    (hbody : commandBody i s = unitResult o)
    (hbody' : commandBody i (s.setRsp r) = unitResult (o.map fun t => t.setRsp r)) :
    finish (commandBody i (s.setRsp r)) = finish (commandBody i s) := by
  rw [hbody, hbody', finish_unitResult_setRsp]

/-- A command that has passed its checks ends the same whatever response stood. -/
theorem finish_commandBody_setRsp (i : Instr) (s : State) (r : Response) :
    finish (commandBody i (s.setRsp r)) = finish (commandBody i s) := by
  cases i with
  | createWriter =>
    exact finish_commandBody_setRsp_of_unit rfl (congrArg unitResult (createWriterBody_setRsp s r))
  | createReader k =>
    exact finish_commandBody_setRsp_of_unit rfl (congrArg unitResult (createReaderBody_setRsp k s.din s r))
  | alignW =>
    refine finish_commandBody_setRsp_of_unit rfl (congrArg unitResult ?_)
    rw [apply_ite (Option.map _), ← alignWriteBody_setRsp]
    rfl
  | appendBytes k => exact finish_commandBody_setRsp_of_unit rfl (congrArg unitResult (appendBody_setRsp s.din s r))
  | emit n v => exact finish_commandBody_setRsp_of_unit rfl (congrArg unitResult (emitBits_setRsp v n.toNat s r))
  | emitByte v => exact finish_commandBody_setRsp_of_unit rfl (congrArg unitResult (emitByteBody_setRsp s r v))
  | emitWord v =>
    exact finish_commandBody_setRsp_of_unit rfl (congrArg unitResult (emitBytesBody_setRsp s r (wordBytes v)))
  | emitDword v =>
    exact finish_commandBody_setRsp_of_unit rfl (congrArg unitResult (emitBytesBody_setRsp s r (dwordBytes v)))
  | buffer => exact finish_commandBody_setRsp_of_readOut (.inl rfl) s r
  | rawview | getByteIndex | getBitOffset | hasMore => exact finish_commandBody_setRsp_of_readOut (.inr rfl) s r
  | alignR | collectAll | deconcat k | deappend k | collect n | collectByte | collectWord | collectDword =>
    exact finish_commandBody_setRsp_of_reader rfl s r

/-- A form-`P` command without the payload its word calls for has no meaning (30_encoding R64). -/
theorem exec_refuses_of_not_payloadFits {i : Instr} {s : State} (h : ¬PayloadFits i s) :
    exec i s = .refused .illFormedCommand := by
  have hpay : ∀ k body, s.din.length ≠ BitVec.toNat k → withPayload k s body = .refused .illFormedCommand :=
    fun k body hne => by simp only [withPayload, payloadOperand, if_neg hne]
  cases i with
  | createReader k => exact hpay k _ fun heq => h fun _ => heq
  | appendBytes k => exact hpay k _ fun heq => h fun _ => heq
  | _ => exact absurd (fun hp => nomatch hp) h

/-- No command reads the response of an earlier one: it does the same whatever response stands (30_encoding R70,
60_exceptions R143). -/
theorem exec_setRsp (i : Instr) (s : State) (r : Response) : exec i (s.setRsp r) = exec i s := by
  have hbody := finish_commandBody_setRsp i s r
  by_cases hpay : PayloadFits i s
  · cases hp : s.poisoned with
    | true =>
      rw [exec_of_poisoned i s hp hpay, exec_of_poisoned i (s.setRsp r) hp hpay, hbody]
      rfl
    | false =>
      rw [exec_eq_checkedRun i s hp hpay, exec_eq_checkedRun i (s.setRsp r) hp hpay]
      unfold checkedRun runBody
      rw [hbody]
      rfl
  · rw [exec_refuses_of_not_payloadFits hpay, exec_refuses_of_not_payloadFits (s := s.setRsp r) hpay]

/-! ### The faults of a command at its own check -/

theorem CollectsBytes.exec_faults_off_boundary {i : Instr} {k : Nat} (hi : CollectsBytes i k) {s : State}
    (hp : s.poisoned = false) (hm : s.mode = .reader) (h0 : s.bitOffset.val ≠ 0) (h8 : s.bitOffset.val ≠ 8) :
    FaultsWith (exec i s) .alignmentViolation s := by
  refine (hi.checks hp hm).misaligned ?_
  rw [hi.alignmentCond_eq, Bool.not_eq_true', ← Bool.not_eq_true, s.aligned08_iff]
  omega

theorem CollectsBytes.exec_faults_past_end {i : Instr} {k : Nat} (hi : CollectsBytes i k) {s : State}
    (hp : s.poisoned = false) (hm : s.mode = .reader) (h08 : s.bitOffset.val = 0 ∨ s.bitOffset.val = 8)
    (hend : s.len < s.byteIndex + k) : FaultsWith (exec i s) .overrun s := by
  refine (hi.checks hp hm).overruns ?_ ?_
  · rw [hi.alignmentCond_eq, s.aligned08_iff.mpr h08]
    rfl
  · rw [hi.overrunCond_eq]
    exact decide_eq_true hend

theorem exec_of_capacityCond {i : Instr} {s : State} (hp : s.poisoned = false) (hpay : PayloadFits i s)
    (hbits : invalidParameterCond i = false) (hmode : wrongModeCond i s = false) (halign : alignmentCond i s = false)
    (hcap : capacityCond i s = true) : FaultsWith (exec i s) .capacityExceeded s := by
  have hover : overrunCond i s = false :=
    Bool.eq_false_of_not_eq_true fun hover => by simp [capacityCond_of_overrunCond hover] at hcap
  refine exec_faultsWith hp hpay ?_ nofun
  rw [firstStatus, hbits, hmode, halign, hover, hcap]
  rfl

/-! ### The obligations of 60_exceptions -/

/-- Settles O27: each of the seven codes is its own. -/
theorem statusCodesAreTheListed : Obligations.StatusCodesAreTheListed := by
  unfold Obligations.StatusCodesAreTheListed
  intro st
  cases st <;> decide

/-- Settles O18: a first status other than `OK` is raised, without one the body completes, and no checked read asks for
room. -/
theorem firstFaultInPriorityOrder : Obligations.FirstFaultInPriorityOrder := by
  unfold Obligations.FirstFaultInPriorityOrder
  refine ⟨fun i s h hp hwf hundef => ?_, fun s c rest e => step_faultsWith_of_illegal_word,
    fun i s ⟨hover, hcap⟩ => ?_⟩
  · have hpay := payloadFits_of_wellFormed i s hwf
    by_cases hok : firstStatus i s = .ok
    · obtain ⟨t, v, d, hrun, hr, _⟩ := exec_completes i s h hp hpay hok (hundef hok)
      exact ⟨t, _, hrun, hr, hok.symm⟩
    · obtain ⟨t, hrun, hr, _⟩ := exec_faultsWith hp hpay rfl hok
      exact ⟨t, _, hrun, hr, rfl⟩
  · rw [capacityCond_of_overrunCond hover] at hcap
    exact nomatch hcap

/-- Settles O19: a fault leaves the state but for its response, which is well formed there. -/
theorem faultsLeaveNoTrace : Obligations.FaultsLeaveNoTrace := by
  unfold Obligations.FaultsLeaveNoTrace
  refine ⟨fun i s t r h ht hr => ⟨fun hst => ?_, fun hst hinv hidle => ?_, fun hst => ?_⟩,
    fun s t c rest r hhost h ht hr hst => ?_⟩
  · have hrsp := exec_rspInv i s t h ht r hr
    obtain ⟨_, hfault, rfl⟩ := exec_eq_setRsp_of_fault h ht hr hst
    exact ⟨s.sameButRsp_setRsp r, hfault, hrsp.of_fault hst⟩
  · obtain ⟨hp, hfault, _⟩ := exec_eq_setRsp_of_fault h ht hr hst
    obtain ⟨_, _, _, _, _, hmode⟩ := hinv
    obtain ⟨hidleInv, _, _⟩ := hmode hp
    rw [hfault]
    exact faultResponse_diag_of_idle r.status (hidleInv hidle)
  · have hrsp := exec_rspInv i s t h ht r hr
    exact hrsp.of_ok hst
  · obtain ⟨hfault, rfl⟩ := step_eq_setRsp_of_fault hhost h ht hr hst
    exact ⟨State.sameButRsp_setRsp _ r, hfault⟩

/-- Settles O20: the bit count is the first check, and only `EMIT` and `COLLECT` have it. -/
theorem invalidParameterIsRaisedForBadBitCounts : Obligations.InvalidParameterIsRaisedForBadBitCounts := by
  unfold Obligations.InvalidParameterIsRaisedForBadBitCounts
  refine ⟨fun n v s hp hn => ⟨exec_emit_of_bad_numBits n v s hp hn, exec_collect_of_bad_numBits n s hp hn⟩,
    fun i s t r h ht hr hst => ?_⟩
  exact badBitCount_of_invalidParameterCond (statusCond_of_report h ht hr hst)

/-- Settles O21: the class check comes second, and reads the table of classes and modes. -/
theorem wrongModeIsRaisedByClass : Obligations.WrongModeIsRaisedByClass := by
  unfold Obligations.WrongModeIsRaisedByClass
  refine ⟨fun i s hp hwf hbits hclass => ?_, fun i s t r h ht hr hst => ?_⟩
  · exact exec_of_wrongMode hp (payloadFits_of_wellFormed i s hwf) hbits ((wrongModeCond_iff i s).mpr hclass)
  · exact (wrongModeCond_iff i s).mp (statusCond_of_report h ht hr hst)

/-- Settles O22: each listed command checks its alignment right after its class, and no other has the check. -/
theorem alignmentViolationIsRaisedByTheListed : Obligations.AlignmentViolationIsRaisedByTheListed := by
  unfold Obligations.AlignmentViolationIsRaisedByTheListed
  refine ⟨fun i s hi hp hm h0 h8 => ?_, fun k s hp hm h0 => ?_, fun k s hp hm hdin h0 => ?_,
    fun i s t r h ht hr hst => ?_⟩
  · simp only [List.mem_cons, List.not_mem_nil, or_false] at hi
    obtain rfl | rfl | rfl := hi
    · exact CollectsBytes.byte.exec_faults_off_boundary hp hm h0 h8
    · exact CollectsBytes.word.exec_faults_off_boundary hp hm h0 h8
    · exact CollectsBytes.dword.exec_faults_off_boundary hp hm h0 h8
  · have hfault := exec_deappend_misaligned k s hp hm (mt Fin.val_eq_zero_iff.mpr h0)
    exact ⟨hfault, hfault⟩
  · exact exec_appendBytes_misaligned k s hp hm hdin (mt Fin.val_eq_zero_iff.mpr h0)
  · exact misaligned_of_alignmentCond (statusCond_of_report h ht hr hst)

/-- Settles O23: each checked read compares what it reads with what is left, and no other command does. -/
theorem overrunIsRaisedByTheCheckedReads : Obligations.OverrunIsRaisedByTheCheckedReads := by
  unfold Obligations.OverrunIsRaisedByTheCheckedReads
  refine ⟨fun s hp hm h08 => ⟨fun hend => ?_, fun hend => ?_, fun hend => ?_⟩,
    fun n s hp hm h1 h32 hrem => exec_collect_overrun n s hp hm h1 h32 hrem, fun i s t r h ht hr hst => ?_⟩
  · exact CollectsBytes.byte.exec_faults_past_end hp hm h08 (Nat.lt_succ_of_le hend)
  · exact CollectsBytes.word.exec_faults_past_end hp hm h08 hend
  · exact CollectsBytes.dword.exec_faults_past_end hp hm h08 hend
  · exact checkedRead_of_overrunCond (statusCond_of_report h ht hr hst)

/-- Settles O24: the room is checked last, for the whole command, and only a growing command asks for any. -/
theorem capacityExceededIsRaisedForTheWholeCommand : Obligations.CapacityExceededIsRaisedForTheWholeCommand := by
  unfold Obligations.CapacityExceededIsRaisedForTheWholeCommand
  refine ⟨fun i s _ hp hwf => exec_of_capacityCond hp (payloadFits_of_wellFormed i s hwf),
    fun i s t r _ h ht hr hst => ?_⟩
  have hcond : capacityCond i s = true := statusCond_of_report h ht hr hst
  have hfirst : firstStatus i s = .capacityExceeded := (exec_status i s t r h ht hr).symm.trans hst
  exact ⟨hcond, fun hcap => firstStatus_ne_capacityExceeded i s hcap hfirst, growing_of_capacityCond hcond⟩

/-- Settles O25: the fault wrote the response only, which no command reads. -/
theorem commandAfterAFaultRunsAsIfAlone : Obligations.CommandAfterAFaultRunsAsIfAlone := by
  unfold Obligations.CommandAfterAFaultRunsAsIfAlone
  intro i j s t r h ht hr hst
  obtain ⟨_, _, rfl⟩ := exec_eq_setRsp_of_fault h ht hr hst
  exact exec_setRsp j s r

end Sys2Proof.Machine
end

section
/-! PROOFS. Reset and hazards (70_reset_and_hazards): the reset state, what `IDLE` admits, the staging byte an `EMIT`
needs room for, and what ends a marked run. -/

namespace Sys2Proof.Machine

/-! ### `IDLE` -/

/-- Only a reader meets the undefined case, so a run in `IDLE` is defined (43_read_path R114). -/
theorem State.Inv.defined_of_idle {s : State} (h : s.Inv) (hm : s.mode = .idle) : s.poisoned = false := by
  refine Bool.eq_false_of_not_eq_true fun hp => ?_
  have hreader := h.mode_of_poisoned hp
  rw [hm] at hreader
  exact nomatch hreader

theorem State.Inv.idleInv {s : State} (h : s.Inv) (hm : s.mode = .idle) : s.IdleInv := by
  have hp := h.defined_of_idle hm
  obtain ⟨_, _, _, _, _, hmode⟩ := h
  obtain ⟨hidle, _, _⟩ := hmode hp
  exact hidle hm

/-- With every register at 0 a fault's response is its status and nothing else (10_state R36, 60_exceptions R142). -/
theorem faultResponse_of_idle (st : Status) {s : State} (h : s.IdleInv) :
    faultResponse st s = ⟨st, 0#32, [], 0#32, 0#32, 0#4⟩ := by
  obtain ⟨hlen, hidx, hoff⟩ := h
  rw [faultResponse, hlen, hidx, hoff]
  rfl

/-- `IDLE` admits no class but that of the constructions (60_exceptions R137, R152). -/
theorem wrongModeCond_of_idle {i : Instr} {s : State} (hm : s.mode = .idle) (hi : i.mnemonic.capClass ≠ .any) :
    wrongModeCond i s = true := by
  rw [wrongModeCond_iff, hm]
  cases hc : i.mnemonic.capClass with
  | any => exact absurd hc hi
  | writer => exact .inl ⟨rfl, nofun⟩
  | reader => exact .inr (.inl ⟨rfl, nofun⟩)
  | both => exact .inr (.inr ⟨rfl, rfl⟩)

/-- In `IDLE` a command that is no construction faults at its bit count, or else at its class (60_exceptions R140). -/
theorem exec_faults_in_idle {i : Instr} {s : State} (h : s.Inv) (hm : s.mode = .idle)
    (hi : i.mnemonic.capClass ≠ .any) (hpay : PayloadFits i s) :
    FaultsWith (exec i s) (if invalidParameterCond i = true then .invalidParameter else .wrongMode) s := by
  have hp := h.defined_of_idle hm
  split
  · next hbits => exact exec_of_invalidParameter hp hpay hbits
  · next hbits =>
    exact exec_of_wrongMode hp hpay (Bool.eq_false_of_not_eq_true hbits) (wrongModeCond_of_idle hm hi)

/-! ### The staging byte -/

/-- The `LEN` that `EMIT` asks for, from the stream position: the bytes up to the new position and one staging byte
(20_memory R52, 70_reset R172). -/
theorem State.WriteReady.emit_neededLen {s : State} (h : s.WriteReady) (n : Nat) :
    s.len + (s.bitOffset.val + n) / 8 = (s.pos + n) / 8 + 1 := by
  have := h.cursor_eq
  omega

/-- After its other checks `EMIT` completes exactly where it has its room (42_write_path R104). -/
theorem exec_emit_completes_iff {n : BitVec 8} {v : BitVec 32} {s : State} (h : s.WriteReady)
    (hchecks : WriterChecks (.emit n v) s) :
    (∃ t, exec (.emit n v) s = .next t ∧ t.rsp = some (Response.okay 0#32 [])) ↔
      s.HasRoom ((s.bitOffset.val + n.toNat) / 8) := by
  refine ⟨fun ⟨t, hrun, hrsp⟩ => ?_, fun hroom => ?_⟩
  · obtain ⟨hroom, _⟩ := exec_emit_completed hchecks hrun hrsp
    exact hroom
  · obtain ⟨u, hu, _⟩ := emitBits_spec v n.toNat s h hroom
    exact ⟨_, hchecks.completes (u := u) hroom (congrArg unitResult hu), rfl⟩

/-! ### A marked run -/

/-- A construction has written all five items, so the run is defined again (93 U1). -/
theorem commandBody_defined_of_construction {i : Instr} {s u : State} {v : Value} {d : List Byte}
    (hi : i.mnemonic.capClass = .any) (h : commandBody i s = some (u, v, d)) : u.poisoned = false := by
  cases i with
  | createWriter =>
    obtain rfl := createWriterBody_eq_some s u (unitResult_state h)
    rfl
  | createReader k =>
    obtain rfl := createReaderBody_eq_some k s.din s u (unitResult_state h)
    rfl
  | _ => exact nomatch hi

/-- Everything a command can do in a marked run: leave it marked with free values, or construct and end the mark (93 U1,
log entry 15). -/
theorem exec_marked_cases {i : Instr} {s t : State} (hp : s.poisoned = true) (h : exec i s = .next t) :
    t = s.poison ∨ (i.mnemonic.capClass = .any ∧ t.poisoned = false) := by
  rw [exec_of_poisoned i s hp (payloadFits_of_exec i s t h)] at h
  split_ifs at h with hrun
  · obtain ⟨hi, _⟩ := hrun
    obtain ⟨u, v, d, hu, rfl⟩ := (finish_eq_next _ t).mp h
    have hdef := commandBody_defined_of_construction hi hu
    exact .inr ⟨hi, hdef⟩
  · cases h
    exact .inl rfl

theorem exec_createWriter_defined {s t : State} (hcap : s.cap.wellFormed = true)
    (h : exec .createWriter s = .next t) : t.poisoned = false := by
  rw [exec_createWriter s hcap] at h
  cases h
  rfl

theorem exec_createReader_defined {k : BitVec 32} {s t : State} (hroom : capacityAdmits s.cap k.toNat = true)
    (h : exec (.createReader k) s = .next t) : t.poisoned = false := by
  rw [exec_createReader k s (payloadFits_of_exec _ s t h rfl) hroom] at h
  cases h
  rfl

/-! ### The obligations of 70_reset_and_hazards -/

/-- Settles O26: the constructions run in every `MODE`, `IDLE` admits no other class, and there every register is 0. -/
theorem idleAdmitsOnlyConstruction : Obligations.IdleAdmitsOnlyConstruction := by
  unfold Obligations.IdleAdmitsOnlyConstruction
  intro s h hm
  have ⟨hcap, _⟩ := h
  have hidle := h.idleInv hm
  refine ⟨⟨_, exec_createWriter s hcap, rfl, rfl⟩, fun k hdin hroom => ⟨_, exec_createReader k s hdin hroom, rfl, rfl⟩,
    fun i hi hwf => ?_, fun c rest e hhost hdec => ?_⟩
  · obtain ⟨t, hrun, hrsp, hsame⟩ := exec_faults_in_idle h hm hi (payloadFits_of_wellFormed i s hwf)
    exact ⟨t, hrun, hsame, by rw [hrsp, faultResponse_of_idle _ hidle]⟩
  · obtain ⟨t, hrun, hrsp, heng, _⟩ := step_faultsWith_of_illegal_word (h.defined_of_idle hm) hhost hdec
    have hidle' : (s.accept c.payload rest).IdleInv := hidle
    exact ⟨t, hrun, heng, by rw [hrsp, faultResponse_of_idle _ hidle']⟩

/-- Settles O45: the one check left is the room, and the `LEN` it asks for is that of the new position. -/
theorem emitNeedsRoomForTheStagingByte : Obligations.EmitNeedsRoomForTheStagingByte := by
  unfold Obligations.EmitNeedsRoomForTheStagingByte
  intro n v c s h hp hm hc h1 h32
  have hready := h.writeReady hp hm
  rw [exec_emit_completes_iff hready (writerChecks_emit n v s hp hm h1 h32), State.HasRoom,
    hready.emit_neededLen, hc, capacityAdmits, decide_eq_true_iff]

/-- Settles O48: a command of a marked run poisons it again or is a construction, and a construction keeps the
invariant. -/
theorem markedRunLastsUntilCreation : Obligations.MarkedRunLastsUntilCreation := by
  unfold Obligations.MarkedRunLastsUntilCreation
  refine ⟨fun i s t hp hrun ht => ?_, fun i s t hp hrun ht => ?_, fun s t h _ hrun => ?_,
    fun k s t h _ hroom hrun => ?_⟩
  · obtain rfl | ⟨_, hdef⟩ := exec_marked_cases hp hrun
    · exact ⟨rfl, rfl, rfl, rfl⟩
    · exact nomatch ht.symm.trans hdef
  · obtain rfl | ⟨hi, _⟩ := exec_marked_cases hp hrun
    · exact nomatch ht
    · exact hi
  · have ⟨hcap, _⟩ := h
    exact ⟨exec_createWriter_defined hcap hrun, exec_inv .createWriter s t h hrun⟩
  · exact ⟨exec_createReader_defined hroom hrun, exec_inv (.createReader k) s t h hrun⟩

/-- Settles O10: reset writes every item and every field of the port but `CAP`, and with no event left the state is
held. -/
theorem resetGivesTheResetState : Obligations.ResetGivesTheResetState := by
  unfold Obligations.ResetGivesTheResetState
  refine ⟨fun s abandoned rest hhost => ?_, fun s t hhost hrun => ?_⟩
  · exact ⟨s.assertReset rest, step_of_reset hhost, rfl, rfl, rfl, rfl, rfl, rfl, rfl, rfl, rfl⟩
  · rw [step_of_no_event hhost] at hrun
    cases hrun
    rfl

end Sys2Proof.Machine
end

section
/-! PROOFS. The sample words (95_test_vectors V30, V60d): a legal word is the encoding of its command, and a word that is
none has a reserved opcode or a nonzero must-be-zero field. -/

namespace Sys2Proof.Machine

/-- A word decodes to a command exactly when the command encodes to it (30_encoding R69). -/
theorem decode_eq_ok_iff_encode_eq (w : CmdWord) (i : Instr) : decode w = .ok i ↔ encode i = w :=
  ⟨encode_of_decode, fun h => h ▸ decode_encode i⟩

/-- Settles O1: each legal word is its command's encoding; of the four others two have a reserved opcode, and two set a
bit that their row's form asks to be zero. -/
theorem sampleWordsDecodeAsListed : Obligations.SampleWordsDecodeAsListed := by
  unfold Obligations.SampleWordsDecodeAsListed
  simp only [decode_eq_ok_iff_encode_eq]
  have ⟨hzero, _⟩ := reservedOpcodesAreIllegal 0x000000000000#48 (.inl rfl)
  have ⟨hhigh, _⟩ := reservedOpcodesAreIllegal 0x160000000000#48 (.inr (by decide))
  have hbyte := decode_of_nonzero_field (w := 0x0D0000000100#48) (m := .emitByte) rfl rfl
  have hcollect := decode_of_nonzero_field (w := 0x120300000001#48) (m := .collect) rfl rfl
  exact ⟨rfl, rfl, rfl, rfl, rfl, rfl, rfl, rfl, rfl, rfl, rfl, rfl, rfl, rfl, rfl, rfl, rfl, rfl, rfl, rfl, rfl, rfl,
    hzero, hhigh, hbyte, hcollect⟩

end Sys2Proof.Machine
end
